-- ==== Sys2Proof/Word.lean ====
section
/-! DEFINITION. The bit-vector types of HUFFCORE and their plainest names. -/

namespace Sys2Proof

/-- A host-visible register or bus word: REG_WIDTH = 32 bits (R6). -/
abbrev Word := BitVec 32

/-- A symbol, SYMBOL_WIDTH = 8 bits (R6), and any other byte operand. -/
abbrev Byte := BitVec 8

/-- A bit sequence: a finite ordered list of bits, the first bit first (R9). -/
abbrev Bits := List Bool

end Sys2Proof
end

