-- ==== Sys2Proof/Config.lean ====
section
/-! DEFINITION. What an implementation of HUFFCORE fixes: the parameters of R6 as numbers, and the open
parameters of R7 and the free read values of R276 as constants with no body, so that no proof can see them. -/

namespace Sys2Proof

/-- N_MAX, the most distinct symbols, so the entries of FT and of CT (R6). -/
def Config.nMax : Nat := 256

/-- MAX_CODE_LEN, the longest code in bits (R6). -/
def Config.maxCodeLen : Nat := 255

/-- NODE_MAX, the entries of the NODE arena (R6). -/
def Config.nodeMax : Nat := 511

/-- DLEN_DEAD, the saturated decoder buffer length (R6). -/
def Config.dlenDead : Nat := 256

/-- How far FIFO_DEPTH lies above its least value: open, no body (R7, D13; log 4). -/
opaque Config.fifoExtra : Fin 65504

/-- FIFO_DEPTH of this build: open, 32 to 65535 (R7, D13; log 4). -/
def Config.fifoDepth : Nat := 32 + Config.fifoExtra.val

/-- BusyDraw, the k-th draw: how many legal accesses see BUSY = 1 after an accepted command. Open, finite,
possibly 0 (R7, R49, R277, D28; log 2). -/
opaque Config.busyDraw : Nat → Nat

/-- The k-th arbitrary value of a read during BUSY = 1: free, under no law (R276, D28; log 3). -/
opaque Config.busyRead : Nat → Word

/-- HUFF_BASE in units of the 256-byte window: open, no body (R7, D9; log 5). -/
opaque Config.huffBasePage : Nat

/-- HUFF_BASE, the bus address of offset 0x00: platform-chosen, 256-byte aligned (R7, R66; log 5). -/
def Config.huffBase : Nat := 256 * Config.huffBasePage

end Sys2Proof
end

