-- ==== Sys2Proof/Syntax.lean ====
section
/-! DEFINITION. The commands of HUFFCORE, one constructor per row of the opcode map R83, and the names of the
host-visible registers R21. -/

namespace Sys2Proof

/-- A command of the opcode map (R83), with its operands as the unsigned fields of R81 and R82. -/
inductive Instr where
  | nop
  | freqClear
  | freqCount (sym : Byte)
  | freqLoad (sym : Byte)
  | freqRead (slot : Byte)
  | build
  | nodeRead (idx : BitVec 9)
  | genCodes
  | codeRead (slot : Byte)
  | codeClear
  | codeLoad (sym len : Byte)
  | encStart
  | encSym (sym : Byte)
  | encFlush
  | decStart
  | decWord (n : BitVec 6)
  | decChar (c : Byte)
  | decEnd
  | errClear
  | softReset
  deriving DecidableEq, Repr

/-- The names of the registers of the window (R21). -/
inductive Reg where
  | id | param | cmd | status | cause | info | arg0
  | res0 | res1 | res2 | res3
  | ftN | ctN | tree
  | encNbitsLo | encNbitsHi | encFill | encLevel | encOut
  | decLevel | decOut | decBuflen | decNsym
  | cbits (j : Fin 8)
  deriving DecidableEq, Repr

end Sys2Proof
end

