-- ==== Sys2Proof/WellFormed.lean ====
section
/-! DEFINITION. Which terms of Instr are commands of the spec: the operand limits that a field's width alone does
not give. -/

namespace Sys2Proof

/-- The legal bit counts of DEC_WORD: 1 to 32 (R81, R85). -/
def legalBitCount (n : BitVec 6) : Bool := 1 ≤ n.toNat && n.toNat ≤ 32

/-- A well-formed command: only DEC_WORD's `n` has values that its field admits and the spec does not (R85). -/
def Instr.wf : Instr → Bool
  | .decWord n => legalBitCount n
  | .nop => true
  | .freqClear => true
  | .freqCount _ => true
  | .freqLoad _ => true
  | .freqRead _ => true
  | .build => true
  | .nodeRead _ => true
  | .genCodes => true
  | .codeRead _ => true
  | .codeClear => true
  | .codeLoad _ _ => true
  | .encStart => true
  | .encSym _ => true
  | .encFlush => true
  | .decStart => true
  | .decChar _ => true
  | .decEnd => true
  | .errClear => true
  | .softReset => true

end Sys2Proof
end

