-- ==== Sys2Proof/Decode.lean ====
section
/-! DEFINITION. The decoder of command words, total on every 32-bit word (R86), rejecting by name, and the encoder,
both written from the formats R81 and the opcode map R83. -/

namespace Sys2Proof

/-- Why a word is no command (R84, R85). -/
inductive Illegal where
  /-- The opcode is in no row of the map (R84). -/
  | reservedOpcode
  /-- A bit marked 0 in the opcode's format is 1 (R85). -/
  | reservedBits
  /-- DEC_WORD with n = 0 or n above 32 (R85). -/
  | badBitCount
  deriving DecidableEq, Repr

/-- What the decoder answers. -/
inductive Decoded where
  | legal (i : Instr)
  | illegal (why : Illegal)
  deriving DecidableEq, Repr

/-- The command if the reserved bits are all zero, else the rejection of R85. -/
def ifReservedZero (zero : Bool) (i : Instr) : Decoded :=
  if zero then .legal i else .illegal .reservedBits

/-- Format Z: bits 23:0 are reserved (R81). -/
def formatZ (w : Word) (i : Instr) : Decoded :=
  ifReservedZero (w.extractLsb' 0 24 == 0#24) i

/-- Format B: bits 23:8 are reserved, `b` = w[7:0] (R81). -/
def formatB (w : Word) (f : Byte → Instr) : Decoded :=
  ifReservedZero (w.extractLsb' 8 16 == 0#16) (f (w.extractLsb' 0 8))

/-- Format I: bits 23:9 are reserved, `idx` = w[8:0] (R81). -/
def formatI (w : Word) (f : BitVec 9 → Instr) : Decoded :=
  ifReservedZero (w.extractLsb' 9 15 == 0#15) (f (w.extractLsb' 0 9))

/-- Format BL: bits 23:16 are reserved, `len` = w[15:8], `sym` = w[7:0] (R81). -/
def formatBL (w : Word) (f : Byte → Byte → Instr) : Decoded :=
  ifReservedZero (w.extractLsb' 16 8 == 0#8) (f (w.extractLsb' 0 8) (w.extractLsb' 8 8))

/-- Format N: bits 23:6 are reserved, `n` = w[5:0], legal 1 to 32 (R81, R85). -/
def formatN (w : Word) (f : BitVec 6 → Instr) : Decoded :=
  if w.extractLsb' 6 18 == 0#18 then
    if legalBitCount (w.extractLsb' 0 6) then .legal (f (w.extractLsb' 0 6)) else .illegal .badBitCount
  else .illegal .reservedBits

/-- The decode function of R86. -/
def decode (w : Word) : Decoded :=
  match (w.extractLsb' 24 8).toNat with
  | 0x00 => formatZ w .nop
  | 0x10 => formatZ w .freqClear
  | 0x11 => formatB w .freqCount
  | 0x12 => formatB w .freqLoad
  | 0x13 => formatB w .freqRead
  | 0x20 => formatZ w .build
  | 0x21 => formatI w .nodeRead
  | 0x30 => formatZ w .genCodes
  | 0x31 => formatB w .codeRead
  | 0x32 => formatZ w .codeClear
  | 0x33 => formatBL w .codeLoad
  | 0x40 => formatZ w .encStart
  | 0x41 => formatB w .encSym
  | 0x42 => formatZ w .encFlush
  | 0x50 => formatZ w .decStart
  | 0x51 => formatN w .decWord
  | 0x52 => formatB w .decChar
  | 0x53 => formatZ w .decEnd
  | 0x70 => formatZ w .errClear
  | 0x7F => formatZ w .softReset
  | _ => .illegal .reservedOpcode

/-- The opcode byte of each command (R83). -/
def Instr.opcode : Instr → Byte
  | .nop => 0x00#8
  | .freqClear => 0x10#8
  | .freqCount _ => 0x11#8
  | .freqLoad _ => 0x12#8
  | .freqRead _ => 0x13#8
  | .build => 0x20#8
  | .nodeRead _ => 0x21#8
  | .genCodes => 0x30#8
  | .codeRead _ => 0x31#8
  | .codeClear => 0x32#8
  | .codeLoad _ _ => 0x33#8
  | .encStart => 0x40#8
  | .encSym _ => 0x41#8
  | .encFlush => 0x42#8
  | .decStart => 0x50#8
  | .decWord _ => 0x51#8
  | .decChar _ => 0x52#8
  | .decEnd => 0x53#8
  | .errClear => 0x70#8
  | .softReset => 0x7F#8

/-- The operand field of each command, bits 23:0, laid out by its format (R81). -/
def Instr.operandField : Instr → BitVec 24
  | .nop => 0#24
  | .freqClear => 0#24
  | .freqCount sym => 0#16 ++ sym
  | .freqLoad sym => 0#16 ++ sym
  | .freqRead slot => 0#16 ++ slot
  | .build => 0#24
  | .nodeRead idx => 0#15 ++ idx
  | .genCodes => 0#24
  | .codeRead slot => 0#16 ++ slot
  | .codeClear => 0#24
  | .codeLoad sym len => 0#8 ++ len ++ sym
  | .encStart => 0#24
  | .encSym sym => 0#16 ++ sym
  | .encFlush => 0#24
  | .decStart => 0#24
  | .decWord n => 0#18 ++ n
  | .decChar c => 0#16 ++ c
  | .decEnd => 0#24
  | .errClear => 0#24
  | .softReset => 0#24

/-- The word of a command: opcode in bits 31:24, operand field in bits 23:0 (R80). -/
def encode (i : Instr) : Word := i.opcode ++ i.operandField

/-- One row of the match and mask table of R83. -/
structure OpcodeRow where
  /-- The bits a word of this row must show under the mask. -/
  pattern : Word
  /-- The bits the row fixes. -/
  mask : Word
  deriving DecidableEq, Repr

/-- The match and mask table of R83, in its order. -/
def opcodeRows : List OpcodeRow :=
  [⟨0x00000000#32, 0xFFFFFFFF#32⟩, ⟨0x10000000#32, 0xFFFFFFFF#32⟩, ⟨0x11000000#32, 0xFFFFFF00#32⟩,
   ⟨0x12000000#32, 0xFFFFFF00#32⟩, ⟨0x13000000#32, 0xFFFFFF00#32⟩, ⟨0x20000000#32, 0xFFFFFFFF#32⟩,
   ⟨0x21000000#32, 0xFFFFFE00#32⟩, ⟨0x30000000#32, 0xFFFFFFFF#32⟩, ⟨0x31000000#32, 0xFFFFFF00#32⟩,
   ⟨0x32000000#32, 0xFFFFFFFF#32⟩, ⟨0x33000000#32, 0xFFFF0000#32⟩, ⟨0x40000000#32, 0xFFFFFFFF#32⟩,
   ⟨0x41000000#32, 0xFFFFFF00#32⟩, ⟨0x42000000#32, 0xFFFFFFFF#32⟩, ⟨0x50000000#32, 0xFFFFFFFF#32⟩,
   ⟨0x51000000#32, 0xFFFFFFC0#32⟩, ⟨0x52000000#32, 0xFFFFFF00#32⟩, ⟨0x53000000#32, 0xFFFFFFFF#32⟩,
   ⟨0x70000000#32, 0xFFFFFFFF#32⟩, ⟨0x7F000000#32, 0xFFFFFFFF#32⟩]

/-- The word shows the row's pattern (R83). -/
def OpcodeRow.covers (r : OpcodeRow) (w : Word) : Bool := w &&& r.mask == r.pattern

/-- The host's question: the command the decoder reads from the `nbits` low bits of `w`, none where it refuses. -/
def decodeTableWord (nbits w : Nat) : Option Instr :=
  match decode (BitVec.ofNat 32 (w % 2 ^ nbits)) with
  | .legal i => some i
  | .illegal _ => none

end Sys2Proof
end

