-- ==== Sys2Proof/Machine/State.lean ====
section
/-! DEFINITION. The state of HUFFCORE as plain data (10_state.md), the host's side of the bus, the reasons a step can
stop, and the state after reset (R52). -/

namespace Sys2Proof.Machine

/-- Why the machine stops: never. A fault of HUFFCORE is a latched cause (R241), a next state; a bus error is a
response (R61). The type has no constructor, so a step that stops with a fault cannot be written (log 14). -/
inductive Fault where
  deriving DecidableEq, Repr

/-- Why an instruction has no meaning. -/
inductive Refusal where
  /-- Raised by `exec` alone, for a command that has no meaning yet; safe: the machine stops. No arm raises it now. -/
  | notModelled (mnemonic : String)
  deriving DecidableEq, Repr

/-- The cause codes of R240; the reserved codes 0x0D to 0xFF are never produced, so they have no constructor. -/
inductive Cause where
  | noFault
  | emptyInput
  | unknownSymbol
  | incompleteCode
  | illegalCommand
  | sequenceError
  | tableBusy
  | noTree
  | badCodeLength
  | duplicateCode
  | countOverflow
  | outputOverflow
  | busyOverrun
  deriving DecidableEq, Repr

/-- The error latch: ERR, CAUSE and INFO (R48). -/
structure Latch where
  /-- ERR (R25 bit 1). -/
  err : Bool
  /-- CAUSE (R26). -/
  cause : Cause
  /-- INFO (R27). -/
  info : Word
  deriving DecidableEq, Repr

/-- The latch with no fault in it (R52). -/
def Latch.clear : Latch := ⟨false, .noFault, 0#32⟩

/-- An internal memory: the entries at the listed slots, slots strictly rising, none equal to what an unlisted slot
reads as, which is the entry's reset value (R52; log 6). -/
abbrev Memory (α : Type) := List (Nat × α)

/-- An entry of FT (R43). -/
structure FtEntry where
  sym : Byte
  /-- COUNT_WIDTH = 32 bits (R6). -/
  count : BitVec 32
  deriving DecidableEq, Repr

/-- The reset value of an FT entry (R52). -/
def FtEntry.zero : FtEntry := ⟨0#8, 0#32⟩

/-- FT and FT_N (R43, R30). -/
structure FreqTable where
  /-- FT_N, 0 to 256. -/
  n : Nat
  mem : Memory FtEntry
  deriving DecidableEq, Repr

/-- An entry of NODE: the two variants of R44; WEIGHT_WIDTH = 40 bits (R6), a child is a node index. -/
inductive Node where
  | leaf (weight : BitVec 40) (sym : Byte)
  | internal (weight : BitVec 40) (left right : Nat)
  deriving DecidableEq, Repr

/-- The reset value of a NODE entry (R52). -/
def Node.zero : Node := .leaf 0#40 0#8

/-- NODE, NODE_N, ROOT and TREE_VALID (R44, R32). -/
structure TreeArena where
  /-- TREE_VALID (R25 bit 2). -/
  valid : Bool
  /-- NODE_N, 0 to 511. -/
  n : Nat
  /-- ROOT, a node index. -/
  root : Nat
  mem : Memory Node
  deriving DecidableEq, Repr

/-- An entry of CT (R45): code bit `k` is bit number `k` of `bits`. -/
structure CtEntry where
  sym : Byte
  len : BitVec 8
  bits : BitVec 255
  deriving DecidableEq, Repr

/-- The reset value of a CT entry (R52). -/
def CtEntry.zero : CtEntry := ⟨0#8, 0#8, 0#255⟩

/-- CT and CT_N (R45, R31). -/
structure CodeTable where
  /-- CT_N, 0 to 256. -/
  n : Nat
  mem : Memory CtEntry
  deriving DecidableEq, Repr

/-- The encoder's state (R46). -/
structure Encoder where
  /-- ENC_OPEN (R25 bit 3). -/
  isOpen : Bool
  /-- ENC_ACC, the word being filled. -/
  acc : Word
  /-- ENC_FILL, 0 to 31 (R34). -/
  fill : Nat
  /-- ENC_NBITS, modulo 2^64 (R33). -/
  nbits : BitVec 64
  /-- ENC_Q, the oldest word first (R72). -/
  q : List Word
  deriving DecidableEq, Repr

/-- The decoder's state (R47): buffer bit `k` is bit number `k` of `buf`. -/
structure Decoder where
  /-- DEC_OPEN (R25 bit 4). -/
  isOpen : Bool
  /-- DBUF, the candidate buffer. -/
  buf : BitVec 255
  /-- DLEN, 0 to 256, where 256 means longer than 255 bits (R39). -/
  len : Nat
  /-- DEC_NSYM, modulo 2^32 (R40). -/
  nsym : Word
  /-- DEC_Q, the oldest word first (R72). -/
  q : List Word
  deriving DecidableEq, Repr

/-- The size of a bus access (R60). -/
inductive AccessSize where
  | byte | half | word
  deriving DecidableEq, Repr

/-- A request on the bus slave port (R60); `off` is the byte offset within the window. -/
structure Request where
  write : Bool
  off : BitVec 8
  size : AccessSize
  wdata : Word
  deriving DecidableEq, Repr

/-- A response on the bus slave port (R60, R61). The response to a write carries no read data (log 11). -/
inductive Response where
  /-- err = 0, with the value read. -/
  | read (rdata : Word)
  /-- err = 0, to a write. -/
  | written
  /-- err = 1 and rdata = 0. -/
  | busError
  deriving DecidableEq, Repr

/-- What the host does next. Each action makes one bus access a step, or drives the `rst` input (log 1, log 10). -/
inductive HostAction where
  /-- One bus transaction (R60). -/
  | access (t : Request)
  /-- One pulse of the `rst` input (R270). -/
  | rst
  /-- The `POLL` statement: read STATUS until BUSY reads 0 (R87). -/
  | poll
  /-- `DRAIN_ENC`: while ENC_LEVEL does not read 0, read ENC_OUT (R88). -/
  | drainEnc
  /-- `DRAIN_DEC`: while DEC_LEVEL does not read 0, read DEC_OUT (R88). -/
  | drainDec
  deriving DecidableEq, Repr

/-- The host's side of the port and the free-value counter: the model's own fields, not the block's state
(log 1, log 2, log 3). -/
structure HostSide where
  /-- The host's remaining actions, the next one first. -/
  pending : List HostAction
  /-- The responses given so far, newest first: the observation of R283. -/
  responses : List Response
  /-- How many free values have been drawn. -/
  draws : Nat
  deriving DecidableEq, Repr

/-- The whole state. -/
structure State where
  /-- FIFO_DEPTH, a constant of the build, 32 to 65535 (R7, R23; log 4). -/
  fifoDepth : Nat
  /-- For how many more legal accesses BUSY reads 1; BUSY = 1 when it is not 0 (R49; log 2). -/
  busyLeft : Nat
  /-- ERR, CAUSE, INFO (R48). -/
  latch : Latch
  /-- ARG0 (R28). -/
  arg0 : Word
  /-- RES0 (R29). -/
  res0 : Word
  /-- RES1 (R29). -/
  res1 : Word
  /-- RES2 (R29). -/
  res2 : Word
  /-- RES3 (R29). -/
  res3 : Word
  /-- CBITS0 to CBITS7 (R41). -/
  cbits : Vector Word 8
  /-- The frequency table (R43). -/
  ft : FreqTable
  /-- The tree arena (R44). -/
  tree : TreeArena
  /-- The code table (R45). -/
  ct : CodeTable
  /-- The encoder (R46). -/
  enc : Encoder
  /-- The decoder (R47). -/
  dec : Decoder
  /-- The host and the free-value counter. -/
  host : HostSide
  deriving DecidableEq, Repr

/-- The machine right after reset (R52, R270, R271), with nothing for the host to do (log 1). -/
def State.reset : State where
  fifoDepth := Config.fifoDepth
  busyLeft := 0
  latch := Latch.clear
  arg0 := 0#32
  res0 := 0#32
  res1 := 0#32
  res2 := 0#32
  res3 := 0#32
  cbits := Vector.replicate 8 0#32
  ft := ⟨0, []⟩
  tree := ⟨false, 0, 0, []⟩
  ct := ⟨0, []⟩
  enc := ⟨false, 0#32, 0, 0#64, []⟩
  dec := ⟨false, 0#255, 0, 0#32, []⟩
  host := ⟨[], [], 0⟩

end Sys2Proof.Machine
end

