-- ==== Sys2Proof/Machine/Ops.lean ====
section
/-! DEFINITION. The operations the meanings share: the internal memories and their entries, the table lookups, bits of
a register, the fault entry and the return from it, BUSY, the result registers, the block's reset. -/

namespace Sys2Proof.Machine

/-! ### Internal memories -/

/-- The entry at a slot; an unlisted slot reads as the entry's reset value (R52; log 6). -/
def Memory.read {α : Type} (blank : α) : Memory α → Nat → α
  | [], _ => blank
  | (slot, e) :: rest, a => if a = slot then e else Memory.read blank rest a

/-- Put a pair at its place in the rising order of slots. -/
def Memory.insert {α : Type} (a : Nat) (e : α) : Memory α → Memory α
  | [] => [(a, e)]
  | c :: rest => if a < c.1 then (a, e) :: c :: rest else c :: Memory.insert a e rest

/-- Write one entry, keeping the canonical form: a slot written with what it reads as unlisted is not listed. -/
def Memory.write {α : Type} [DecidableEq α] (blank : α) (m : Memory α) (a : Nat) (e : α) : Memory α :=
  let others := m.filter (fun c => c.1 != a)
  if e = blank then others else Memory.insert a e others

/-- The canonical form: slots strictly rising, and no entry equal to what an unlisted slot reads as. -/
def Memory.wf {α : Type} [DecidableEq α] (blank : α) : Memory α → Bool
  | [] => true
  | c :: rest => rest.all (fun d => c.1 < d.1) && decide (c.2 ≠ blank) && Memory.wf blank rest

/-- FT[i] (R43). -/
def FreqTable.entry (t : FreqTable) (i : Nat) : FtEntry := t.mem.read FtEntry.zero i

/-- FT[i] <- e. -/
def FreqTable.setEntry (t : FreqTable) (i : Nat) (e : FtEntry) : FreqTable :=
  { t with mem := t.mem.write FtEntry.zero i e }

/-- NODE[k] of a node memory (R44). -/
def nodeAt (m : Memory Node) (k : Nat) : Node := m.read Node.zero k

/-- NODE[k] <- nd. -/
def setNode (m : Memory Node) (k : Nat) (nd : Node) : Memory Node := m.write Node.zero k nd

/-- NODE[k].weight. -/
def Node.weight : Node → BitVec 40
  | .leaf w _ => w
  | .internal w _ _ => w

/-- The variant is Internal. -/
def Node.isInternal : Node → Bool
  | .leaf _ _ => false
  | .internal _ _ _ => true

/-- CT[i] (R45). -/
def CodeTable.entry (t : CodeTable) (i : Nat) : CtEntry := t.mem.read CtEntry.zero i

/-- CT[i] <- e, in the table's memory. -/
def setCode (m : Memory CtEntry) (i : Nat) (e : CtEntry) : Memory CtEntry := m.write CtEntry.zero i e

/-- CT[i] <- e. -/
def CodeTable.setEntry (t : CodeTable) (i : Nat) (e : CtEntry) : CodeTable :=
  { t with mem := setCode t.mem i e }

/-! ### Bits -/

/-- Bit `i` of a register <- `b`. -/
def setBit {n : Nat} (w : BitVec n) (i : Nat) (b : Bool) : BitVec n :=
  if b then w ||| (1#n <<< i) else w &&& ~~~(1#n <<< i)

/-- The first `l` stored bits of a code or of the candidate buffer, as a bit sequence (R9). -/
def bitsOf (v : BitVec 255) (l : Nat) : Bits := (List.range l).map v.getLsbD

/-- Store the bits of a sequence from position `k` on. -/
def storeBitsFrom (v : BitVec 255) : Nat → Bits → BitVec 255
  | _, [] => v
  | k, b :: rest => storeBitsFrom (setBit v k b) (k + 1) rest

/-- A bit sequence followed by zero bits up to 255 (R150, R155). -/
def storeBits (p : Bits) : BitVec 255 := storeBitsFrom 0#255 0 p

/-- The code of an entry: `bits(0) .. bits(len-1)` (R45). -/
def CtEntry.code (e : CtEntry) : Bits := bitsOf e.bits e.len.toNat

/-- The entry of a symbol and its code (R150, R155). -/
def CtEntry.ofCode (sym : Byte) (p : Bits) : CtEntry := ⟨sym, BitVec.ofNat 8 p.length, storeBits p⟩

/-! ### Lookups -/

/-- The first slot below `n` that satisfies `p`, or none. -/
def findSlot (n : Nat) (p : Nat → Bool) : Option Nat := (List.range n).find? p

/-- FindFT(s): the slot in use that holds the symbol (R110). -/
def FreqTable.find (t : FreqTable) (sym : Byte) : Option Nat := findSlot t.n (fun i => (t.entry i).sym == sym)

/-- FindCT(s): the slot in use that holds the symbol (R157). -/
def CodeTable.find (t : CodeTable) (sym : Byte) : Option Nat := findSlot t.n (fun i => (t.entry i).sym == sym)

/-- MatchCT(l, p) with l = |p|: the slot in use whose code is exactly `p` (R157). -/
def CodeTable.matchCode (t : CodeTable) (p : Bits) : Option Nat := findSlot t.n (fun i => (t.entry i).code == p)

/-! ### Fault entry and return -/

/-- `raise Fault(cause, info)` from the state in which the command was accepted: nothing the command did is kept, and
only ERR, CAUSE and INFO are written (R241, R242). -/
def raise (cause : Cause) (info : Word) (s : State) : State := { s with latch := ⟨true, cause, info⟩ }

/-- A command that ends in a fault: the machine goes on in the state of the fault entry. -/
def fault (cause : Cause) (info : Word) (s : State) : Host.Outcome State Fault Refusal := .next (raise cause info s)

/-- The return from a fault: ERR, CAUSE and INFO are cleared and nothing is restored (R231, R246). -/
def clearLatch (s : State) : State := { s with latch := Latch.clear }

/-- A session is open: the condition of SessionCheck (R156). -/
def State.sessionOpen (s : State) : Bool := s.enc.isOpen || s.dec.isOpen

/-! ### BUSY -/

/-- The BUSY bit (R25 bit 0, R49; log 2). -/
def State.busy (s : State) : Bool := s.busyLeft != 0

/-- `BUSY <- 1` for a number of legal accesses that is the next draw (R49, R243; log 2). -/
def startBusy (s : State) : State :=
  { s with busyLeft := Config.busyDraw s.host.draws, host := { s.host with draws := s.host.draws + 1 } }

/-- One legal access has seen BUSY = 1 (R49; log 2). -/
def tickBusy (s : State) : State := { s with busyLeft := s.busyLeft - 1 }

/-! ### Registers and queues -/

/-- RES0 to RES3, written together by the read-back commands (R29). -/
def setRes (r0 r1 r2 r3 : Word) (s : State) : State := { s with res0 := r0, res1 := r1, res2 := r2, res3 := r3 }

/-- `free(Q)`: FIFO_DEPTH minus the words in the queue (R10, R72). -/
def State.free (s : State) (q : List Word) : Nat := s.fifoDepth - q.length

/-- Every piece of block state takes its reset value (R52, R232, R270); the build constant FIFO_DEPTH and the host's side
are not state of the block (log 10). -/
def blockReset (s : State) : State := { State.reset with fifoDepth := s.fifoDepth, host := s.host }

/-- Apply a function to the state of a next outcome. -/
def onNext (f : State → State) : Host.Outcome State Fault Refusal → Host.Outcome State Fault Refusal
  | .next s => .next (f s)
  | .fault r => .fault r
  | .refused r => .refused r

/-- Record the response of one bus transaction (R60; log 1). -/
def respond (r : Response) (s : State) : State :=
  { s with host := { s.host with responses := r :: s.host.responses } }

end Sys2Proof.Machine
end

