-- ==== Sys2Proof/Machine/Operands.lean ====
section
/-! DEFINITION. The operands that come from registers (R82), the packing of bit sequences into words (R71), and the byte
lanes of a bus word (R62). -/

namespace Sys2Proof.Machine

/-- Bit number `k` of a bit sequence packed into a word: word bit `31 - k` (R71). -/
def packedBit (w : Word) (k : Nat) : Bool := w.getLsbD (31 - k)

/-- The word whose packed bit number `k` is `f k`, for k = 0..31 (R71). -/
def packWord (f : Nat → Bool) : Word := (List.range 32).foldl (fun w k => setBit w (31 - k) (f k)) 0#32

/-- The first `n` packed bits of a word, the first bit first: the operand of DEC_WORD (R202). -/
def packedBits (w : Word) (n : Nat) : Bits := (List.range n).map (packedBit w)

/-- Code bit number `k` of the CBITS window: bit `31 - (k mod 32)` of CBITS(k div 32) (R41). -/
def codeBit (cbits : Vector Word 8) (k : Nat) : Bool := packedBit (cbits[k / 32]?.getD 0#32) (k % 32)

/-- Bits 0 to len-1 of the CBITS window: the operand of CODE_LOAD (R155). -/
def codeBits (cbits : Vector Word 8) (len : Nat) : Bits := (List.range len).map (codeBit cbits)

/-- The CBITS window whose code bit `k` is `f k`, for k = 0..255 (R41, R153). -/
def packWindow (f : Nat → Bool) : Vector Word 8 := Vector.ofFn (fun j => packWord (fun k => f (32 * j.val + k)))

/-- Byte lane `j` of a bus word: register bits 8j+7..8j (R62). -/
def byteLane (w : Word) (j : Nat) : Byte := w.extractLsb' (8 * j) 8

/-- The four bytes of a register as a host with little-endian lanes stores them, lowest address first (R62). -/
def laneBytes (w : Word) : List Byte := (List.range 4).map (byteLane w)

end Sys2Proof.Machine
end

