-- ==== Sys2Proof/Machine/CodeGen.lean ====
section
/-! DEFINITION. The code table: GEN_CODES, CODE_READ, CODE_CLEAR, CODE_LOAD (43_code_table.md). -/

namespace Sys2Proof.Machine

/-- The code of a leaf reached by path `p`: the path, or "0" if it is empty (R151). -/
def leafCode (p : Bits) : Bits := if p.isEmpty then [false] else p

/-- Walk(k, p) of R150 on the arena `nodes`, writing into the code memory; `depth` bounds the walk, and a tree of NODE_N
nodes is never that deep (R134; log 8). -/
def walk (nodes : Memory Node) : Nat → Nat → Bits → Memory CtEntry → Memory CtEntry
  | 0, _, _, codes => codes
  | depth + 1, k, p, codes =>
    match nodeAt nodes k with
    | .leaf _ sym => setCode codes k (CtEntry.ofCode sym (leafCode p))
    | .internal _ left right =>
      walk nodes depth right (p ++ [true]) (walk nodes depth left (p ++ [false]) codes)

/-- GEN_CODES: TABLE_BUSY, NO_TREE, or the path code of every leaf in the slot of its index (R150, R151, R156). -/
def execGenCodes (s : State) : Host.Outcome State Fault Refusal :=
  if s.sessionOpen then fault .tableBusy (encode .genCodes) s
  else if !s.tree.valid then fault .noTree 0#32 s
  else
    .next { s with ct := { n := (s.tree.n + 1) / 2, mem := walk s.tree.mem s.tree.n s.tree.root [] s.ct.mem } }

/-- CODE_READ slot: one entry into RES0 and CBITS, the other result registers 0; an unused slot reads as zero (R153). -/
def execCodeRead (slot : Byte) (s : State) : Host.Outcome State Fault Refusal :=
  if slot.toNat < s.ct.n then
    let e := s.ct.entry slot.toNat
    .next (setRes (1#1 ++ 0#15 ++ e.len ++ e.sym) 0#32 0#32 0#32
      { s with cbits := packWindow (fun k => decide (k < e.len.toNat) && e.bits.getLsbD k) })
  else .next (setRes 0#32 0#32 0#32 0#32 { s with cbits := packWindow (fun _ => false) })

/-- CODE_CLEAR: TABLE_BUSY, or CT_N <- 0 (R154, R156). -/
def execCodeClear (s : State) : Host.Outcome State Fault Refusal :=
  if s.sessionOpen then fault .tableBusy (encode .codeClear) s
  else .next { s with ct := { s.ct with n := 0 } }

/-- CODE_LOAD sym, len: TABLE_BUSY, BAD_CODE_LENGTH, DUPLICATE_CODE, or the code of the symbol becomes the first `len`
bits of CBITS, in place or in a new entry (R155, R156). -/
def execCodeLoad (sym len : Byte) (s : State) : Host.Outcome State Fault Refusal :=
  if s.sessionOpen then fault .tableBusy (encode (.codeLoad sym len)) s
  else if len = 0#8 then fault .badCodeLength (encode (.codeLoad sym len)) s
  else
    let p := codeBits s.cbits len.toNat
    let store : Host.Outcome State Fault Refusal :=
      match s.ct.find sym with
      | some i => .next { s with ct := s.ct.setEntry i (CtEntry.ofCode sym p) }
      | none =>
        .next { s with ct := { s.ct.setEntry s.ct.n (CtEntry.ofCode sym p) with n := s.ct.n + 1 } }
    match s.ct.matchCode p with
    | some j =>
      if (s.ct.entry j).sym = sym then store
      else fault .duplicateCode (0#16 ++ sym ++ (s.ct.entry j).sym) s
    | none => store

end Sys2Proof.Machine
end

