-- ==== Sys2Proof/Machine/Control.lean ====
section
/-! DEFINITION. The control commands: NOP, ERR_CLEAR, SOFT_RESET (46_control.md). -/

namespace Sys2Proof.Machine

/-- NOP: no effect (R230). -/
def execNop (s : State) : Host.Outcome State Fault Refusal := .next s

/-- ERR_CLEAR: the return from a fault (R231, R246). -/
def execErrClear (s : State) : Host.Outcome State Fault Refusal := .next (clearLatch s)

/-- SOFT_RESET: every piece of block state takes its reset value (R232, R270). -/
def execSoftReset (s : State) : Host.Outcome State Fault Refusal := .next (blockReset s)

end Sys2Proof.Machine
end

