-- ==== Sys2Proof/Machine/Flags.lean ====
section
/-! DEFINITION. The status views: the cause code (R240), the flags of STATUS (R25) and the packed read views of the
other registers (R23, R30 to R40). -/

namespace Sys2Proof.Machine

/-- The code of a cause (R240). -/
def Cause.code : Cause → BitVec 8
  | .noFault => 0x00#8
  | .emptyInput => 0x01#8
  | .unknownSymbol => 0x02#8
  | .incompleteCode => 0x03#8
  | .illegalCommand => 0x04#8
  | .sequenceError => 0x05#8
  | .tableBusy => 0x06#8
  | .noTree => 0x07#8
  | .badCodeLength => 0x08#8
  | .duplicateCode => 0x09#8
  | .countOverflow => 0x0A#8
  | .outputOverflow => 0x0B#8
  | .busyOverrun => 0x0C#8

/-- DEC_DEAD: the candidate buffer is longer than any code (R25 bit 5). -/
def Decoder.dead (d : Decoder) : Bool := d.len == Config.dlenDead

/-- STATUS, bits 7 down to 0: DEC_Q_NE, ENC_Q_NE, DEC_DEAD, DEC_OPEN, ENC_OPEN, TREE_VALID, ERR, BUSY; bits 31:8 read
as 0 (R25). -/
def State.statusWord (s : State) : Word :=
  0#24 ++ BitVec.ofBool (!s.dec.q.isEmpty) ++ BitVec.ofBool (!s.enc.q.isEmpty) ++ BitVec.ofBool s.dec.dead ++
    BitVec.ofBool s.dec.isOpen ++ BitVec.ofBool s.enc.isOpen ++ BitVec.ofBool s.tree.valid ++
    BitVec.ofBool s.latch.err ++ BitVec.ofBool s.busy

/-- ID (R22). -/
def idWord : Word := 0x48460001#32

/-- PARAM: FIFO_DEPTH[15:0], MAX_CODE_LEN, SYMBOL_WIDTH (R23). -/
def State.paramWord (s : State) : Word := BitVec.ofNat 16 s.fifoDepth ++ 0xFF#8 ++ 0x08#8

/-- CAUSE: the code in bits 7:0 (R26). -/
def State.causeWord (s : State) : Word := 0#24 ++ s.latch.cause.code

/-- TREE: NODE_N in bits 24:16, ROOT in bits 8:0; both read 0 when TREE_VALID = 0 (R32). -/
def State.treeWord (s : State) : Word :=
  if s.tree.valid then 0#7 ++ BitVec.ofNat 9 s.tree.n ++ 0#7 ++ BitVec.ofNat 9 s.tree.root else 0#32

/-- A 9-bit count in bits 8:0 (R30, R31, R39). -/
def countWord (n : Nat) : Word := 0#23 ++ BitVec.ofNat 9 n

/-- A queue's level in bits 15:0 (R35, R37). -/
def levelWord (q : List Word) : Word := 0#16 ++ BitVec.ofNat 16 q.length

/-- ENC_FILL in bits 4:0 (R34). -/
def State.encFillWord (s : State) : Word := 0#27 ++ BitVec.ofNat 5 s.enc.fill

end Sys2Proof.Machine
end

