-- ==== Sys2Proof/Machine/DecodeStream.lean ====
section
/-! DEFINITION. The decoder: DEC_START, DEC_WORD, DEC_CHAR, DEC_END (45_decoder.md). -/

namespace Sys2Proof.Machine

/-- The candidate buffer as a bit sequence: DBUF(0) .. DBUF(DLEN-1) (R47). -/
def Decoder.candidate (d : Decoder) : Bits := bitsOf d.buf d.len

/-- Append one bit to the candidate buffer, no further than the dead length (R201). -/
def Decoder.accumulate (d : Decoder) (b : Bool) : Decoder :=
  { d with buf := if d.len < Config.maxCodeLen then setBit d.buf d.len b else d.buf, len := d.len + 1 }

/-- Emit a symbol and clear the candidate buffer (R201). -/
def Decoder.emit (d : Decoder) (sym : Byte) : Decoder :=
  { d with q := d.q ++ [sym.setWidth 32], nsym := d.nsym + 1, buf := 0#255, len := 0 }

/-- DecodeBit(b) with the table `t` (R201). -/
def decodeBit (t : CodeTable) (d : Decoder) (b : Bool) : Decoder :=
  if d.dead then d
  else
    let d1 := d.accumulate b
    if d1.len ≤ Config.maxCodeLen then
      match t.matchCode d1.candidate with
      | some i => d1.emit (t.entry i).sym
      | none => d1
    else d1

/-- DecodeBit on each bit of a sequence in order. -/
def decodeBits (t : CodeTable) (d : Decoder) (bs : Bits) : Decoder := bs.foldl (decodeBit t) d

/-- Pushes(bs): how many words DecodeBit would push on the bits of `bs` (R201). -/
def pushes (t : CodeTable) (d : Decoder) (bs : Bits) : Nat := (decodeBits t d bs).q.length - d.q.length

/-- Decode a bit sequence, or OUTPUT_OVERFLOW with no bit consumed when the symbols would not fit (R202, R203). -/
def decodeOrOverflow (bs : Bits) (w : Word) (s : State) : Host.Outcome State Fault Refusal :=
  if s.free s.dec.q < pushes s.ct s.dec bs then fault .outputOverflow w s
  else .next { s with dec := decodeBits s.ct s.dec bs }

/-- DEC_START: open a session with an empty buffer, the queue emptied (R200). -/
def execDecStart (s : State) : Host.Outcome State Fault Refusal :=
  .next { s with dec := ⟨true, 0#255, 0, 0#32, []⟩ }

/-- DEC_WORD n: ILLEGAL_COMMAND on an n that the spec does not admit, SEQUENCE_ERROR, OUTPUT_OVERFLOW, or the first n packed
bits of ARG0 are decoded (R85, R202; log 13). -/
def execDecWord (n : BitVec 6) (s : State) : Host.Outcome State Fault Refusal :=
  if !legalBitCount n then fault .illegalCommand (encode (.decWord n)) s
  else if !s.dec.isOpen then fault .sequenceError (encode (.decWord n)) s
  else decodeOrOverflow (packedBits s.arg0 n.toNat) (encode (.decWord n)) s

/-- The bit a character stands for, none for a character that is skipped (R203). -/
def charBit (c : Byte) : Option Bool :=
  if c = 0x30#8 then some false else if c = 0x31#8 then some true else none

/-- DEC_CHAR c: SEQUENCE_ERROR, no change on a skipped character, OUTPUT_OVERFLOW, or one bit is decoded (R203). -/
def execDecChar (c : Byte) (s : State) : Host.Outcome State Fault Refusal :=
  if !s.dec.isOpen then fault .sequenceError (encode (.decChar c)) s
  else
    match charBit c with
    | none => .next s
    | some b => decodeOrOverflow [b] (encode (.decChar c)) s

/-- DEC_END: SEQUENCE_ERROR, INCOMPLETE_CODE on a non-empty buffer, or the session is closed (R204). A session
that has raised INCOMPLETE_CODE can be continued after ERR_CLEAR and then closed here, although R200 says otherwise (log 16). -/
def execDecEnd (s : State) : Host.Outcome State Fault Refusal :=
  if !s.dec.isOpen then fault .sequenceError (encode .decEnd) s
  else if s.dec.len ≠ 0 then fault .incompleteCode (BitVec.ofNat 32 s.dec.len) s
  else .next { s with dec := { s.dec with isOpen := false } }

end Sys2Proof.Machine
end

