-- ==== Sys2Proof/Machine/Encode.lean ====
section
/-! DEFINITION. The encoder: ENC_START, ENC_SYM, ENC_FLUSH (44_encoder.md). -/

namespace Sys2Proof.Machine

/-- PutBit(b): append one bit to the bitstream (R181). -/
def putBit (e : Encoder) (b : Bool) : Encoder :=
  let acc := setBit e.acc (31 - e.fill) b
  if e.fill + 1 = 32 then { e with acc := 0#32, fill := 0, nbits := e.nbits + 1, q := e.q ++ [acc] }
  else { e with acc := acc, fill := e.fill + 1, nbits := e.nbits + 1 }

/-- Append the bits of a sequence in order. -/
def putBits (e : Encoder) (p : Bits) : Encoder := p.foldl putBit e

/-- ENC_START: open a session with nothing pending, the queue emptied (R180). -/
def execEncStart (s : State) : Host.Outcome State Fault Refusal :=
  .next { s with enc := ⟨true, 0#32, 0, 0#64, []⟩ }

/-- ENC_SYM sym: SEQUENCE_ERROR, UNKNOWN_SYMBOL, OUTPUT_OVERFLOW, or the code of the symbol is appended (R182). -/
def execEncSym (sym : Byte) (s : State) : Host.Outcome State Fault Refusal :=
  if !s.enc.isOpen then fault .sequenceError (encode (.encSym sym)) s
  else
    match s.ct.find sym with
    | none => fault .unknownSymbol (sym.setWidth 32) s
    | some i =>
      let e := s.ct.entry i
      if s.free s.enc.q < (s.enc.fill + e.len.toNat) / 32 then fault .outputOverflow (encode (.encSym sym)) s
      else .next { s with enc := putBits s.enc e.code }

/-- ENC_FLUSH: SEQUENCE_ERROR, OUTPUT_OVERFLOW, or the last partial word is pushed and the session closed (R183). -/
def execEncFlush (s : State) : Host.Outcome State Fault Refusal :=
  if !s.enc.isOpen then fault .sequenceError (encode .encFlush) s
  else if 0 < s.enc.fill && s.free s.enc.q < 1 then fault .outputOverflow (encode .encFlush) s
  else
    let q := if 0 < s.enc.fill then s.enc.q ++ [s.enc.acc] else s.enc.q
    .next { s with enc := { s.enc with isOpen := false, acc := 0#32, fill := 0, q := q } }

end Sys2Proof.Machine
end

