-- ==== Sys2Proof/Machine/Frequency.lean ====
section
/-! DEFINITION. The frequency front end: FREQ_CLEAR, FREQ_COUNT, FREQ_LOAD, FREQ_READ (41_frequency.md). -/

namespace Sys2Proof.Machine

/-- FT[FT_N] <- e; FT_N <- FT_N + 1 (R112, R113). -/
def FreqTable.append (t : FreqTable) (e : FtEntry) : FreqTable := { t.setEntry t.n e with n := t.n + 1 }

/-- FREQ_CLEAR: FT_N <- 0; the entries keep what they held (R111). -/
def execFreqClear (s : State) : Host.Outcome State Fault Refusal :=
  .next { s with ft := { s.ft with n := 0 } }

/-- FREQ_COUNT sym: one more occurrence, or a new entry of count 1, or COUNT_OVERFLOW (R112). -/
def execFreqCount (sym : Byte) (s : State) : Host.Outcome State Fault Refusal :=
  match s.ft.find sym with
  | some i =>
    let e := s.ft.entry i
    if e.count = 0xFFFFFFFF#32 then fault .countOverflow (sym.setWidth 32) s
    else .next { s with ft := s.ft.setEntry i { e with count := e.count + 1 } }
  | none => .next { s with ft := s.ft.append ⟨sym, 1#32⟩ }

/-- FREQ_LOAD sym: the count becomes ARG0, in place or in a new entry (R113). -/
def execFreqLoad (sym : Byte) (s : State) : Host.Outcome State Fault Refusal :=
  match s.ft.find sym with
  | some i => .next { s with ft := s.ft.setEntry i { s.ft.entry i with count := s.arg0 } }
  | none => .next { s with ft := s.ft.append ⟨sym, s.arg0⟩ }

/-- FREQ_READ slot: one entry into RES0 to RES3; an unused slot reads as zero (R114). -/
def execFreqRead (slot : Byte) (s : State) : Host.Outcome State Fault Refusal :=
  if slot.toNat < s.ft.n then
    let e := s.ft.entry slot.toNat
    .next (setRes (1#1 ++ 0#23 ++ e.sym) e.count 0#32 0#32 s)
  else .next (setRes 0#32 0#32 0#32 0#32 s)

end Sys2Proof.Machine
end

