-- ==== Sys2Proof/Machine/TreeBuilder.lean ====
section
/-! DEFINITION. The tree builder: BUILD and NODE_READ (42_tree_builder.md). -/

namespace Sys2Proof.Machine

/-- The key (weight, sequence number) of node `j` is below that of node `k` (R131). -/
def keyBelow (m : Memory Node) (j k : Nat) : Bool :=
  (nodeAt m j).weight < (nodeAt m k).weight || ((nodeAt m j).weight == (nodeAt m k).weight && j < k)

/-- The live node whose key is least, none when no node is live (R10, R130, R131). -/
def argmin (m : Memory Node) : List Nat → Option Nat
  | [] => none
  | j :: rest =>
    match argmin m rest with
    | none => some j
    | some k => if keyBelow m k j then some k else some j

/-- Seed the leaves 0..n-1 in FT slot order (R116, R130). -/
def seedLeaves (t : FreqTable) (m : Memory Node) : Memory Node :=
  (List.range t.n).foldl
    (fun acc i => setNode acc i (.leaf ((t.entry i).count.setWidth 40) (t.entry i).sym)) m

/-- What the merge loop works on: NODE, LIVE and NEXT (R50, R130). -/
structure MergeState where
  mem : Memory Node
  live : List Nat
  next : Nat
  deriving DecidableEq, Repr

/-- One turn of R130's loop: remove the two least live nodes, the first becomes the left child; none when fewer than two
nodes are live (R131, R132). -/
def mergeStep (g : MergeState) : Option MergeState :=
  match argmin g.mem g.live with
  | none => none
  | some a =>
    match argmin g.mem (g.live.erase a) with
    | none => none
    | some b =>
      some
        { mem := setNode g.mem g.next
            (.internal ((nodeAt g.mem a).weight + (nodeAt g.mem b).weight) a b)
          live := g.next :: (g.live.erase a).erase b
          next := g.next + 1 }

/-- R130's loop: at most `turns` turns, ending as soon as fewer than two nodes are live. -/
def mergeLoop : Nat → MergeState → MergeState
  | 0, g => g
  | turns + 1, g =>
    match mergeStep g with
    | none => g
    | some g' => mergeLoop turns g'

/-- The merge of a frequency table: each turn makes LIVE one shorter, so `n` turns are enough (R130, R134). -/
def mergeAll (t : FreqTable) (m : Memory Node) : MergeState :=
  mergeLoop t.n { mem := seedLeaves t m, live := List.range t.n, next := t.n }

/-- BUILD: EMPTY_INPUT on an empty table, else the merge tree in NODE with ROOT the single live node (R130). -/
def execBuild (s : State) : Host.Outcome State Fault Refusal :=
  if s.ft.n = 0 then fault .emptyInput 0#32 s
  else
    let g := mergeAll s.ft s.tree.mem
    .next { s with tree := { valid := true, n := g.next, root := g.live.headD 0, mem := g.mem } }

/-- NODE_READ idx: one node into RES0 to RES3; an unused index reads as zero (R135). -/
def execNodeRead (idx : BitVec 9) (s : State) : Host.Outcome State Fault Refusal :=
  if s.tree.valid && idx.toNat < s.tree.n then
    let nd := nodeAt s.tree.mem idx.toNat
    let r0 := 1#1 ++ BitVec.ofBool nd.isInternal ++ BitVec.ofBool (idx.toNat == s.tree.root) ++ 0#20 ++ idx
    let r1 := nd.weight.extractLsb' 0 32
    let r2 := 0#24 ++ nd.weight.extractLsb' 32 8
    match nd with
    | .leaf _ sym => .next (setRes r0 r1 r2 (0#24 ++ sym) s)
    | .internal _ left right => .next (setRes r0 r1 r2 (0#7 ++ BitVec.ofNat 9 right ++ 0#7 ++ BitVec.ofNat 9 left) s)
  else .next (setRes 0#32 0#32 0#32 0#32 s)

end Sys2Proof.Machine
end

