-- ==== Sys2Proof/Machine/Dispatch.lean ====
section
/-! DEFINITION. One arm per command: the rule of R83's "rule" column, run when the command has been accepted (R243). -/

namespace Sys2Proof.Machine

/-- The meaning of each command. -/
def exec (i : Instr) (s : State) : Host.Outcome State Fault Refusal :=
  match i with
  | .nop => Sys2Proof.Machine.execNop s
  | .freqClear => Sys2Proof.Machine.execFreqClear s
  | .freqCount sym => Sys2Proof.Machine.execFreqCount sym s
  | .freqLoad sym => Sys2Proof.Machine.execFreqLoad sym s
  | .freqRead slot => Sys2Proof.Machine.execFreqRead slot s
  | .build => Sys2Proof.Machine.execBuild s
  | .nodeRead idx => Sys2Proof.Machine.execNodeRead idx s
  | .genCodes => Sys2Proof.Machine.execGenCodes s
  | .codeRead slot => Sys2Proof.Machine.execCodeRead slot s
  | .codeClear => Sys2Proof.Machine.execCodeClear s
  | .codeLoad sym len => Sys2Proof.Machine.execCodeLoad sym len s
  | .encStart => Sys2Proof.Machine.execEncStart s
  | .encSym sym => Sys2Proof.Machine.execEncSym sym s
  | .encFlush => Sys2Proof.Machine.execEncFlush s
  | .decStart => Sys2Proof.Machine.execDecStart s
  | .decWord n => Sys2Proof.Machine.execDecWord n s
  | .decChar c => Sys2Proof.Machine.execDecChar c s
  | .decEnd => Sys2Proof.Machine.execDecEnd s
  | .errClear => Sys2Proof.Machine.execErrClear s
  | .softReset => Sys2Proof.Machine.execSoftReset s

end Sys2Proof.Machine
end

