-- ==== Sys2Proof/Machine/Bus.lean ====
section
/-! DEFINITION. The host interface: the address map (R21), register reads and writes, command acceptance (R243), accesses
while BUSY = 1 (R276), illegal accesses (R61), and what one host action does. -/

namespace Sys2Proof.Machine

/-! ### The address map -/

/-- The byte offset of a register (R21). -/
def regOffset : Reg → BitVec 8
  | .id => 0x00#8
  | .param => 0x04#8
  | .cmd => 0x08#8
  | .status => 0x0C#8
  | .cause => 0x10#8
  | .info => 0x14#8
  | .arg0 => 0x18#8
  | .res0 => 0x20#8
  | .res1 => 0x24#8
  | .res2 => 0x28#8
  | .res3 => 0x2C#8
  | .ftN => 0x30#8
  | .ctN => 0x34#8
  | .tree => 0x38#8
  | .encNbitsLo => 0x40#8
  | .encNbitsHi => 0x44#8
  | .encFill => 0x48#8
  | .encLevel => 0x4C#8
  | .encOut => 0x50#8
  | .decLevel => 0x54#8
  | .decOut => 0x58#8
  | .decBuflen => 0x5C#8
  | .decNsym => 0x60#8
  | .cbits j => 0x80#8 + BitVec.ofNat 8 (4 * j.val)

/-- The registers of the window in the order of R21. -/
def regList : List Reg :=
  [.id, .param, .cmd, .status, .cause, .info, .arg0, .res0, .res1, .res2, .res3, .ftN, .ctN, .tree, .encNbitsLo,
   .encNbitsHi, .encFill, .encLevel, .encOut, .decLevel, .decOut, .decBuflen, .decNsym, .cbits 0, .cbits 1, .cbits 2,
   .cbits 3, .cbits 4, .cbits 5, .cbits 6, .cbits 7]

/-- The register at an offset, none at a reserved offset (R21, R42). -/
def regAt (off : BitVec 8) : Option Reg := regList.find? (fun r => regOffset r == off)

/-- The window offset of a bus address, none outside the window (R7, R21, R66; log 5). -/
def windowOffset (addr : Nat) : Option (BitVec 8) :=
  if Config.huffBase ≤ addr && addr < Config.huffBase + 256 then some (BitVec.ofNat 8 (addr - Config.huffBase)) else none

/-! ### Accesses with BUSY = 0 -/

/-- The value a read of a register returns (R22 to R41). -/
def readValue (s : State) : Reg → Word
  | .id => idWord
  | .param => s.paramWord
  | .cmd => 0#32
  | .status => s.statusWord
  | .cause => s.causeWord
  | .info => s.latch.info
  | .arg0 => s.arg0
  | .res0 => s.res0
  | .res1 => s.res1
  | .res2 => s.res2
  | .res3 => s.res3
  | .ftN => countWord s.ft.n
  | .ctN => countWord s.ct.n
  | .tree => s.treeWord
  | .encNbitsLo => s.enc.nbits.extractLsb' 0 32
  | .encNbitsHi => s.enc.nbits.extractLsb' 32 32
  | .encFill => s.encFillWord
  | .encLevel => levelWord s.enc.q
  | .encOut => s.enc.q.headD 0#32
  | .decLevel => levelWord s.dec.q
  | .decOut => s.dec.q.headD 0#32
  | .decBuflen => countWord s.dec.len
  | .decNsym => s.dec.nsym
  | .cbits j => s.cbits[j]

/-- The side effect of a read: ENC_OUT and DEC_OUT remove the word they return, no other register does (R63, R184, R205). -/
def readEffect (s : State) : Reg → State
  | .encOut => { s with enc := { s.enc with q := s.enc.q.tail } }
  | .decOut => { s with dec := { s.dec with q := s.dec.q.tail } }
  | .id | .param | .cmd | .status | .cause | .info | .arg0 | .res0 | .res1 | .res2 | .res3 | .ftN | .ctN | .tree
  | .encNbitsLo | .encNbitsHi | .encFill | .encLevel | .decLevel | .decBuflen | .decNsym | .cbits _ => s

/-- The words accepted while ERR = 1: ERR_CLEAR and SOFT_RESET, exactly (R243). -/
def acceptedInError (w : Word) : Bool := w == 0x70000000#32 || w == 0x7F000000#32

/-- A CMD write with BUSY = 0: dropped while ERR = 1, else decoded and run or ILLEGAL_COMMAND, then BUSY <- 1 (R243). -/
def acceptCommand (w : Word) (s : State) : Host.Outcome State Fault Refusal :=
  if s.latch.err && !acceptedInError w then .next s
  else
    match decode w with
    | .legal i => onNext startBusy (exec i s)
    | .illegal _ => onNext startBusy (fault .illegalCommand w s)

/-- A legal write with BUSY = 0 (R63, R64): a command at CMD, a stored value at ARG0 and CBITS, nothing elsewhere. -/
def writeReg (v : Word) (s : State) : Reg → Host.Outcome State Fault Refusal
  | .cmd => acceptCommand v s
  | .arg0 => .next { s with arg0 := v }
  | .cbits j => .next { s with cbits := s.cbits.set j v }
  | .id | .param | .status | .cause | .info | .res0 | .res1 | .res2 | .res3 | .ftN | .ctN | .tree | .encNbitsLo
  | .encNbitsHi | .encFill | .encLevel | .encOut | .decLevel | .decOut | .decBuflen | .decNsym => .next s

/-- A legal access with BUSY = 0; a reserved offset reads 0 and ignores writes (R42). -/
def idleAccess (t : Request) (s : State) : Host.Outcome State Fault Refusal :=
  match t.write, regAt t.off with
  | true, some r => writeReg t.wdata (respond .written s) r
  | true, none => .next (respond .written s)
  | false, some r => .next (respond (.read (readValue s r)) (readEffect s r))
  | false, none => .next (respond (.read 0#32) s)

/-! ### Accesses with BUSY = 1 -/

/-- A write to CMD, ARG0 or CBITS is refused while BUSY = 1 (R276). -/
def busyGuarded : Reg → Bool
  | .cmd => true
  | .arg0 => true
  | .cbits _ => true
  | .id | .param | .status | .cause | .info | .res0 | .res1 | .res2 | .res3 | .ftN | .ctN | .tree | .encNbitsLo
  | .encNbitsHi | .encFill | .encLevel | .encOut | .decLevel | .decOut | .decBuflen | .decNsym => false

/-- BUSY_OVERRUN is latched if no fault is (R243, R247, R276). -/
def overrun (off : BitVec 8) (s : State) : State :=
  if s.latch.err then s else raise .busyOverrun (off.setWidth 32) s

/-- A read returns an arbitrary value, the next draw, and has no side effect (R276; log 3). -/
def drawnRead (s : State) : State :=
  respond (.read (Config.busyRead s.host.draws)) { s with host := { s.host with draws := s.host.draws + 1 } }

/-- A legal write with BUSY = 1 (R276). -/
def busyWrite (off : BitVec 8) (s : State) : State :=
  match regAt off with
  | some r => if busyGuarded r then overrun off (respond .written s) else respond .written s
  | none => respond .written s

/-- A legal read with BUSY = 1: STATUS, ID and PARAM are exact, any other offset is a draw (R276; log 3). -/
def busyReadAccess (off : BitVec 8) (s : State) : State :=
  match regAt off with
  | some .status => respond (.read s.statusWord) s
  | some .id => respond (.read idWord) s
  | some .param => respond (.read s.paramWord) s
  | _ => drawnRead s

/-- A legal access with BUSY = 1; it counts toward the end of BUSY (R49; log 2). -/
def busyAccess (t : Request) (s : State) : State :=
  tickBusy (if t.write then busyWrite t.off s else busyReadAccess t.off s)

/-! ### One transaction, one host action -/

/-- The only legal access: 32 bits at an offset with off[1:0] = 0 (R61). -/
def Request.legal (t : Request) : Bool := t.size == .word && t.off.extractLsb' 0 2 == 0#2

/-- One bus transaction; an illegal access gets a bus error and has no effect (R61). -/
def busAccess (t : Request) (s : State) : Host.Outcome State Fault Refusal :=
  if !t.legal then .next (respond .busError s)
  else if s.busy then .next (busyAccess t s)
  else idleAccess t s

/-- `HostRead(offset of r)` (R10). -/
def readRequest (r : Reg) : Request := ⟨false, regOffset r, .word, 0#32⟩

/-- `HostWrite(offset of r, v)` (R10). -/
def writeRequest (r : Reg) (v : Word) : Request := ⟨true, regOffset r, .word, v⟩

/-- The value of the newest response, 0 where it is not a read. -/
def State.lastRead (s : State) : Word :=
  match s.host.responses with
  | .read v :: _ => v
  | _ => 0#32

/-- The host's remaining actions are these. -/
def State.setPending (actions : List HostAction) (s : State) : State :=
  { s with host := { s.host with pending := actions } }

/-- Put actions before the host's remaining ones. -/
def State.withPending (actions : List HostAction) (s : State) : State :=
  s.setPending (actions ++ s.host.pending)

/-- After POLL's read of STATUS: go on while bit 0 reads 1 (R87). -/
def pollAgain (s : State) : State := if s.lastRead.getLsbD 0 then s.withPending [.poll] else s

/-- After DRAIN's read of a level: while it is not 0, read the queue's oldest word and go on (R88). -/
def drainAgain (out : Reg) (again : HostAction) (s : State) : State :=
  if s.lastRead = 0#32 then s else s.withPending [.access (readRequest out), again]

/-- What one host action does, once it has been taken from the list (R60, R87, R88, R270; log 1, log 10, log 15). -/
def runAction (a : HostAction) (s : State) : Host.Outcome State Fault Refusal :=
  match a with
  | .access t => busAccess t s
  | .rst => .next (blockReset s)
  | .poll => onNext pollAgain (busAccess (readRequest .status) s)
  | .drainEnc => onNext (drainAgain .encOut .drainEnc) (busAccess (readRequest .encLevel) s)
  | .drainDec => onNext (drainAgain .decOut .drainDec) (busAccess (readRequest .decLevel) s)

/-- The host's next action is taken and run; with none left the block holds its state (R253; log 1). -/
def hostStep (s : State) : Host.Outcome State Fault Refusal :=
  match s.host.pending with
  | [] => .next s
  | a :: rest => runAction a (s.setPending rest)

end Sys2Proof.Machine
end

