-- ==== Sys2Proof/Machine/Step.lean ====
section
/-! DEFINITION. One step of the machine, and the state whose next step runs a given command word. -/

namespace Sys2Proof.Machine

/-- One step: the oldest remaining host action (R20, R67; log 1). -/
def step (s : State) : Host.Outcome State Fault Refusal := hostStep s

/-- `s` with the command word `w` as the host's next CMD write, and what R243 needs for it to be accepted: BUSY = 0, and,
for a word that ERR = 1 would drop, no latched fault (log 12). -/
def State.withFetchWord (s : State) (nbits w : Nat) : State :=
  let word : Word := BitVec.ofNat 32 (w % 2 ^ nbits)
  { s with
    busyLeft := 0
    latch := if acceptedInError word then s.latch else Latch.clear
    host := { s.host with pending := .access (writeRequest .cmd word) :: s.host.pending } }

end Sys2Proof.Machine
end

