-- ==== Sys2Proof/Machine/Assembly.lean ====
section
/-! DEFINITION. The host assembly language: its statements and pseudo-instructions as host actions (R87, R88), and the
reading of a source line (R87, log 15). -/

namespace Sys2Proof.Machine

/-- A statement or a pseudo-instruction of the host assembly (R87, R88). -/
inductive Statement where
  | command (i : Instr)
  | wr (r : Reg) (value : Word)
  | rd (r : Reg)
  | poll
  | freqSet (sym : Byte) (count : Word)
  | freqStr (text : List Byte)
  | encStr (text : List Byte)
  | decBits (n : BitVec 6) (value : Word)
  | decText (text : List Byte)
  | codeSet (sym : Byte) (code : Bits)
  | drainEnc
  | drainDec
  deriving DecidableEq, Repr

/-- `WR REG, value` (R87). -/
def wrAction (r : Reg) (value : Word) : HostAction := .access (writeRequest r value)

/-- `RD REG` (R87). -/
def rdAction (r : Reg) : HostAction := .access (readRequest r)

/-- `MNEMONIC operands`: the word at CMD, then POLL (R87). -/
def commandActions (i : Instr) : List HostAction := [wrAction .cmd (encode i), .poll]

/-- The eight CBITS writes of `CODE_SET`: the code packed by R41, all other bits 0 (R88). -/
def cbitsActions (code : Bits) : List HostAction :=
  (List.finRange 8).map (fun j => wrAction (.cbits j) (packWindow (fun k => code.getD k false))[j])

/-- What a statement makes the host do (R87, R88). -/
def Statement.actions : Statement → List HostAction
  | .command i => commandActions i
  | .wr r value => [wrAction r value]
  | .rd r => [rdAction r]
  | .poll => [.poll]
  | .freqSet sym count => wrAction .arg0 count :: commandActions (.freqLoad sym)
  | .freqStr text => text.flatMap (fun c => commandActions (.freqCount c))
  | .encStr text => text.flatMap (fun c => commandActions (.encSym c))
  | .decBits n value => wrAction .arg0 value :: commandActions (.decWord n)
  | .decText text => text.flatMap (fun c => commandActions (.decChar c))
  | .codeSet sym code => cbitsActions code ++ commandActions (.codeLoad sym (BitVec.ofNat 8 code.length))
  | .drainEnc => [.drainEnc]
  | .drainDec => [.drainDec]

/-- A program of the host assembly is what its statements do, in order (R87). -/
def programActions (program : List Statement) : List HostAction := program.flatMap Statement.actions

/-! ### Reading a line

A line is given as its character codes. -/

/-- The pieces of a line. -/
inductive Token where
  | word (cs : List Nat)
  | char (c : Nat)
  | text (cs : List Nat)
  | comma
  deriving DecidableEq, Repr

/-- Where the reader of a line stands; the characters read so far are kept last first. -/
inductive LexMode where
  | gap
  | word (rev : List Nat)
  | char (rev : List Nat)
  | text (rev : List Nat)
  deriving DecidableEq, Repr

/-- The escapes `\n` and `\r` (R88; log 15). -/
def unescape : List Nat → List Nat
  | 0x5C :: 0x6E :: rest => 0x0A :: unescape rest
  | 0x5C :: 0x72 :: rest => 0x0D :: unescape rest
  | c :: rest => c :: unescape rest
  | [] => []

/-- The tokens of a line; `;` outside quotes starts a comment (R87). None where a quote does not close or does not hold one
character. -/
def lex : List Nat → LexMode → Option (List Token)
  | [], .gap => some []
  | [], .word rev => some [.word rev.reverse]
  | [], .char _ => none
  | [], .text _ => none
  | c :: rest, .gap =>
    if c = 0x3B then some []
    else if c = 0x20 || c = 0x09 then lex rest .gap
    else if c = 0x2C then (lex rest .gap).map (.comma :: ·)
    else if c = 0x27 then lex rest (.char [])
    else if c = 0x22 then lex rest (.text [])
    else lex rest (.word [c])
  | c :: rest, .word rev =>
    if c = 0x3B then some [.word rev.reverse]
    else if c = 0x20 || c = 0x09 then (lex rest .gap).map (.word rev.reverse :: ·)
    else if c = 0x2C then (lex rest .gap).map (fun ts => .word rev.reverse :: .comma :: ts)
    else lex rest (.word (c :: rev))
  | c :: rest, .char rev =>
    if c = 0x27 && !rev.isEmpty then
      match unescape rev.reverse with
      | [ch] => (lex rest .gap).map (.char ch :: ·)
      | _ => none
    else lex rest (.char (c :: rev))
  | c :: rest, .text rev =>
    if c = 0x22 then (lex rest .gap).map (.text (unescape rev.reverse) :: ·)
    else lex rest (.text (c :: rev))

/-- The character codes of a name. -/
def codesOf (name : String) : List Nat := name.toList.map Char.toNat

/-- The value of a digit. -/
def digitValue (c : Nat) : Option Nat :=
  if 0x30 ≤ c && c ≤ 0x39 then some (c - 0x30)
  else if 0x41 ≤ c && c ≤ 0x46 then some (c - 0x37)
  else if 0x61 ≤ c && c ≤ 0x66 then some (c - 0x57)
  else none

/-- Digits in a base (R8). DESIGN CHOICE: a `_` is read only between two digits; with a leading, trailing, lone or doubled `_`
there is no number (log 15). `inside` says that the character before was a digit. -/
def readDigits (base : Nat) : List Nat → Nat → Bool → Option Nat
  | [], acc, inside => if inside then some acc else none
  | c :: rest, acc, inside =>
    if c = 0x5F then if inside then readDigits base rest acc false else none
    else
      match digitValue c with
      | some d => if d < base then readDigits base rest (acc * base + d) true else none
      | none => none

/-- A number, decimal or `0x` hexadecimal (R8, R87). -/
def readNumber : List Nat → Option Nat
  | 0x30 :: 0x78 :: digits => readDigits 16 digits 0 false
  | digits => readDigits 10 digits 0 false

/-- The byte a quoted character stands for: its code. R12 and R87 give this for ASCII (codes below 0x80). DESIGN CHOICE: a code
0x80 to 0xFF is that byte too, in quotes and in a text, and a code above 0xFF stands for no byte (log 15). -/
def charByte (c : Nat) : Option Byte := if c < 256 then some (BitVec.ofNat 8 c) else none

/-- A number that fits a field of `bits` bits (R87). -/
def fitField (bits v : Nat) : Option (BitVec bits) := if v < 2 ^ bits then some (BitVec.ofNat bits v) else none

/-- A numeric operand of a field of `bits` bits: a number or the byte of a quoted character (R12, R87). -/
def readOperand (bits : Nat) : Token → Option (BitVec bits)
  | .word cs => (readNumber cs).bind (fitField bits)
  | .char c => (charByte c).bind (fun b => fitField bits b.toNat)
  | .text _ => none
  | .comma => none

/-- The bytes of a text operand, none where a character stands for no byte (R88). -/
def readText : Token → Option (List Byte)
  | .text cs => cs.mapM charByte
  | .word _ => none
  | .char _ => none
  | .comma => none

/-- The bit sequence of a quoted string of `0` and `1` (R9). -/
def readBits : Token → Option Bits
  | .text cs => if cs.all (fun c => c == 0x30 || c == 0x31) then some (cs.map (· == 0x31)) else none
  | .word _ => none
  | .char _ => none
  | .comma => none

/-- The names of the registers (R21). -/
def regNames : List (String × Reg) :=
  [("ID", .id), ("PARAM", .param), ("CMD", .cmd), ("STATUS", .status), ("CAUSE", .cause), ("INFO", .info),
   ("ARG0", .arg0), ("RES0", .res0), ("RES1", .res1), ("RES2", .res2), ("RES3", .res3), ("FT_N", .ftN),
   ("CT_N", .ctN), ("TREE", .tree), ("ENC_NBITS_LO", .encNbitsLo), ("ENC_NBITS_HI", .encNbitsHi),
   ("ENC_FILL", .encFill), ("ENC_LEVEL", .encLevel), ("ENC_OUT", .encOut), ("DEC_LEVEL", .decLevel),
   ("DEC_OUT", .decOut), ("DEC_BUFLEN", .decBuflen), ("DEC_NSYM", .decNsym), ("CBITS0", .cbits 0),
   ("CBITS1", .cbits 1), ("CBITS2", .cbits 2), ("CBITS3", .cbits 3), ("CBITS4", .cbits 4), ("CBITS5", .cbits 5),
   ("CBITS6", .cbits 6), ("CBITS7", .cbits 7)]

/-- The commands without operands (R83, format Z) and the other statements that are one word. -/
def plainNames : List (String × Statement) :=
  [("NOP", .command .nop), ("FREQ_CLEAR", .command .freqClear), ("BUILD", .command .build),
   ("GEN_CODES", .command .genCodes), ("CODE_CLEAR", .command .codeClear), ("ENC_START", .command .encStart),
   ("ENC_FLUSH", .command .encFlush), ("DEC_START", .command .decStart), ("DEC_END", .command .decEnd),
   ("ERR_CLEAR", .command .errClear), ("SOFT_RESET", .command .softReset), ("POLL", .poll),
   ("DRAIN_ENC", .drainEnc), ("DRAIN_DEC", .drainDec)]

/-- The statements with one operand (R83, R88). -/
def oneOperandNames : List (String × (Token → Option Statement)) :=
  [("FREQ_COUNT", fun t => (readOperand 8 t).map (fun b => .command (.freqCount b))),
   ("FREQ_LOAD", fun t => (readOperand 8 t).map (fun b => .command (.freqLoad b))),
   ("FREQ_READ", fun t => (readOperand 8 t).map (fun b => .command (.freqRead b))),
   ("NODE_READ", fun t => (readOperand 9 t).map (fun i => .command (.nodeRead i))),
   ("CODE_READ", fun t => (readOperand 8 t).map (fun b => .command (.codeRead b))),
   ("ENC_SYM", fun t => (readOperand 8 t).map (fun b => .command (.encSym b))),
   ("DEC_WORD", fun t => (readOperand 6 t).map (fun n => .command (.decWord n))),
   ("DEC_CHAR", fun t => (readOperand 8 t).map (fun b => .command (.decChar b))),
   ("FREQ_STR", fun t => (readText t).map .freqStr),
   ("ENC_STR", fun t => (readText t).map .encStr),
   ("DEC_TEXT", fun t => (readText t).map .decText)]

/-- The statements with two operands but `WR` (R83, R88). -/
def twoOperandNames : List (String × (Token → Token → Option Statement)) :=
  [("CODE_LOAD", fun t u => (readOperand 8 t).bind (fun s => (readOperand 8 u).map (fun l => .command (.codeLoad s l)))),
   ("FREQ_SET", fun t u => (readOperand 8 t).bind (fun s => (readOperand 32 u).map (fun c => .freqSet s c))),
   ("DEC_BITS", fun t u => (readOperand 6 t).bind (fun n => (readOperand 32 u).map (fun v => .decBits n v))),
   ("CODE_SET", fun t u => (readOperand 8 t).bind (fun s =>
      (readBits u).bind (fun p => if p.length ≤ Config.maxCodeLen then some (.codeSet s p) else none)))]

/-- What a table gives for a name. -/
def named {α : Type} (table : List (String × α)) (cs : List Nat) : Option α :=
  (table.find? (fun row => codesOf row.1 == cs)).map Prod.snd

/-- The statement of a line's tokens; after `RD REG` a listing may show `=>` and the value read (R87). DESIGN CHOICE: after `=>`
stands exactly one number of 32 bits, whose value makes no difference; anything else, or nothing, is no statement (log 15). -/
def readTokens : List Token → Option (List Statement)
  | [] => some []
  | [.word m] => (named plainNames m).map (fun st => [st])
  | [.word m, .word r] =>
    if m = codesOf "RD" then (named regNames r).map (fun r => [.rd r])
    else (named oneOperandNames m).bind (fun f => (f (.word r)).map (fun st => [st]))
  | [.word m, t] => (named oneOperandNames m).bind (fun f => (f t).map (fun st => [st]))
  | [.word m, .word r, .word arrow, .word v] =>
    if m = codesOf "RD" && arrow = codesOf "=>" then
      (named regNames r).bind (fun r => (readOperand 32 (.word v)).map (fun _ => [.rd r]))
    else none
  | [.word m, t, .comma, u] =>
    if m = codesOf "WR" then
      match t with
      | .word r => (named regNames r).bind (fun r => (readOperand 32 u).map (fun v => [.wr r v]))
      | _ => none
    else (named twoOperandNames m).bind (fun f => (f t u).map (fun st => [st]))
  | _ => none

/-- The statement of one source line, no statement on a blank line, none where the line is not of the language (R87). -/
def readLine (line : List Nat) : Option (List Statement) := (lex line .gap).bind readTokens

end Sys2Proof.Machine
end

