-- ==== Sys2Proof/Safety.lean ====
section
/-! DEFINITION. What counts as a good state (the invariants of 10_state.md), the end of a run (R283), and the document's
own algorithms and properties in which the claims are stated (R115, R130, R151, R152, R185, R206). -/

namespace Sys2Proof.Machine

/-! ### The invariants of the state -/

/-- FT: at most 256 entries in use, their symbols pairwise distinct (R43). -/
structure FreqTable.Wf (t : FreqTable) : Prop where
  bound : t.n ≤ Config.nMax
  canonical : t.mem.wf FtEntry.zero = true
  distinct : ∀ i j, i < t.n → j < t.n → (t.entry i).sym = (t.entry j).sym → i = j

/-- Node `k` is one of the two children of the node. -/
def Node.hasChild : Node → Nat → Prop
  | .leaf _ _, _ => False
  | .internal _ left right, k => left = k ∨ right = k

/-- NODE holds a tree over `l` leaves: R44's invariant for TREE_VALID = 1, and the leaves' symbols pairwise distinct, as
they come from FT (R43, R130). -/
structure TreeArena.Shape (t : TreeArena) (l : Nat) : Prop where
  leaves : 1 ≤ l ∧ l ≤ Config.nMax
  count : t.n + 1 = 2 * l
  root : t.root + 1 = t.n
  leafBelow : ∀ k, k < l → (nodeAt t.mem k).isInternal = false
  internalAbove : ∀ k, l ≤ k → k < t.n → (nodeAt t.mem k).isInternal = true
  childBelow : ∀ k c, k < t.n → (nodeAt t.mem k).hasChild c → c < k
  twoChildren : ∀ k w a b, k < t.n → nodeAt t.mem k = .internal w a b → a ≠ b
  oneParent : ∀ c, c < t.root → ∃ p, p < t.n ∧ (nodeAt t.mem p).hasChild c ∧
    ∀ q, q < t.n → (nodeAt t.mem q).hasChild c → q = p
  distinct : ∀ i j w w' sym, i < l → j < l → nodeAt t.mem i = .leaf w sym → nodeAt t.mem j = .leaf w' sym → i = j

/-- The tree arena's invariant (R44). -/
structure TreeArena.Wf (t : TreeArena) : Prop where
  canonical : t.mem.wf Node.zero = true
  absent : t.valid = false → t.n = 0 ∧ t.root = 0
  present : t.valid = true → ∃ l, t.Shape l

/-- CT: the entries in use have codes of 1 to 255 bits, no bit beyond the length, pairwise distinct symbols and pairwise
distinct codes (R45). -/
structure CodeTable.Wf (t : CodeTable) : Prop where
  bound : t.n ≤ Config.nMax
  canonical : t.mem.wf CtEntry.zero = true
  nonempty : ∀ i, i < t.n → (t.entry i).len ≠ 0#8
  clean : ∀ i k, i < t.n → (t.entry i).len.toNat ≤ k → (t.entry i).bits.getLsbD k = false
  distinct : ∀ i j, i < t.n → j < t.n → (t.entry i).sym = (t.entry j).sym → i = j
  codes : ∀ i j, i < t.n → j < t.n → (t.entry i).code = (t.entry j).code → i = j

/-- The encoder: R46's bounds and clean accumulator, the queue within its depth (R72), ENC_FILL = ENC_NBITS mod 32 while the
session is open (R34, R181; log 9), nothing pending outside a session (R183). -/
structure Encoder.Wf (depth : Nat) (e : Encoder) : Prop where
  fill : e.fill ≤ 31
  clean : ∀ j, j < 32 - e.fill → e.acc.getLsbD j = false
  queue : e.q.length ≤ depth
  count : e.isOpen = true → e.fill = e.nbits.toNat % 32
  closed : e.isOpen = false → e.fill = 0 ∧ e.acc = 0#32

/-- The decoder: R47's bounds and clean buffer, the queue within its depth (R72) and holding symbols (R38), an empty buffer
outside a session, and a non-empty buffer that matches no code (R204). -/
structure Decoder.Wf (depth : Nat) (t : CodeTable) (d : Decoder) : Prop where
  len : d.len ≤ Config.dlenDead
  clean : ∀ k, d.len ≤ k → d.buf.getLsbD k = false
  queue : d.q.length ≤ depth
  symbols : ∀ w, w ∈ d.q → w.toNat < 256
  closed : d.isOpen = false → d.len = 0
  unmatched : d.len ≠ 0 → d.len ≤ Config.maxCodeLen → t.matchCode d.candidate = none

/-- CAUSE and INFO are 0 exactly while no fault is latched (R26, R27, R48). -/
structure Latch.Wf (l : Latch) : Prop where
  clean : l.err = false → l.cause = .noFault ∧ l.info = 0#32
  named : l.err = true → l.cause ≠ .noFault

/-- The whole state's invariant. -/
structure State.Inv (s : State) : Prop where
  depth : 32 ≤ s.fifoDepth ∧ s.fifoDepth ≤ 65535
  latch : s.latch.Wf
  ft : s.ft.Wf
  tree : s.tree.Wf
  ct : s.ct.Wf
  enc : s.enc.Wf s.fifoDepth
  dec : s.dec.Wf s.fifoDepth s.ct

/-! ### Runs -/

/-- The commands of a list, each accepted in turn: the effects of a command sequence of the spec, apart from BUSY and the
host's accesses (R115, R185, R208). -/
def runCommands : List Instr → State → Host.Outcome State Fault Refusal
  | [], s => .next s
  | i :: rest, s =>
    match exec i s with
    | .next t => runCommands rest t
    | .fault r => .fault r
    | .refused r => .refused r

/-- The host's run has ended: its last access is made and BUSY = 0 (R283). -/
def State.runEnded (s : State) : Bool := s.host.pending.isEmpty && !s.busy

/-- The run ended in error (R283). -/
def State.endedInError (s : State) : Bool := s.runEnded && s.latch.err

/-- What the host's reads returned, oldest first (R283). DESIGN CHOICE: an access that is answered with a bus error, whose
rdata is 0 (R61), is no observed read; the spec does not say (log 11). -/
def State.observedReads (s : State) : List Word :=
  s.host.responses.reverse.filterMap (fun r => match r with
    | .read v => some v
    | .written => none
    | .busError => none)

/-- The next step reads the offset: it answers `v` and changes nothing but the host's side. -/
def ReadGives (s : State) (off : BitVec 8) (v : Word) : Prop :=
  ∀ wdata rest, s.host.pending = .access ⟨false, off, .word, wdata⟩ :: rest →
    step s = .next (respond (.read v) (s.setPending rest))

/-- The host's next action is the transaction, and `rest` comes after it. -/
def State.Next (s : State) (t : Request) (rest : List HostAction) : Prop := s.host.pending = .access t :: rest

/-- The host's next action puts the whole block to its reset values: the `rst` input, or an accepted SOFT_RESET (R232,
R270). -/
def State.resetsNext (s : State) : Prop :=
  ∃ rest, s.host.pending = .rst :: rest ∨
    (s.busy = false ∧ s.Next ⟨true, 0x08#8, .word, 0x7F000000#32⟩ rest)

/-- The host's next action is an accepted ERR_CLEAR (R231, R243). -/
def State.clearsNext (s : State) : Prop :=
  ∃ rest, s.busy = false ∧ s.Next ⟨true, 0x08#8, .word, 0x70000000#32⟩ rest

/-! ### Counting and building -/

/-- The distinct symbols of a sequence in the order of first occurrence (R116). -/
def firstSeen : List Byte → List Byte
  | [] => []
  | c :: rest => c :: (firstSeen rest).filter (· ≠ c)

/-- The pair (weight, seq) of node `j` is below that of node `k` (R131). -/
def KeyLess (m : Memory Node) (j k : Nat) : Prop :=
  (nodeAt m j).weight.toNat < (nodeAt m k).weight.toNat ∨
    ((nodeAt m j).weight.toNat = (nodeAt m k).weight.toNat ∧ j < k)

/-- Node `j` is live when node `k` is created: created before, and the child of no node before `k` (R130). -/
def LiveAt (m : Memory Node) (k j : Nat) : Prop := j < k ∧ ∀ p, p < k → ¬ (nodeAt m p).hasChild j

/-- `a` is the node of `P` whose key is least (R10, R131). -/
def LeastKey (m : Memory Node) (P : Nat → Prop) (a : Nat) : Prop := P a ∧ ∀ j, P j → j ≠ a → KeyLess m a j

/-! ### Codes -/

/-- The node a path leads to from node `k`, 0 for left and 1 for right (R151). -/
def follow (m : Memory Node) : Nat → Bits → Option Nat
  | k, [] => some k
  | k, b :: p =>
    match nodeAt m k with
    | .leaf _ _ => none
    | .internal _ left right => follow m (if b then right else left) p

/-- No code of an entry in use is a prefix of another's (R152). -/
def CodeTable.PrefixFree (t : CodeTable) : Prop :=
  ∀ i j, i < t.n → j < t.n → (t.entry i).code <+: (t.entry j).code → i = j

/-- Slot `i` is in use and holds the symbol. -/
def CodeTable.Holds (t : CodeTable) (i : Nat) (sym : Byte) : Prop := i < t.n ∧ (t.entry i).sym = sym

/-- The code of a symbol, [] where it has no entry. -/
def CodeTable.codeOf (t : CodeTable) (sym : Byte) : Bits :=
  match t.find sym with
  | some i => (t.entry i).code
  | none => []

/-! ### Encoding and decoding, as the document has them -/

/-- `encode(S, codes)`: the codes of the symbols in input order (R185). -/
def docEncode (t : CodeTable) (S : List Byte) : Bits := S.flatMap t.codeOf

/-- `decode(bits, codes)` from a candidate buffer without bound: the symbols emitted and the buffer left (R206). -/
def docDecode (t : CodeTable) : Bits → Bits → List Byte × Bits
  | buf, [] => ([], buf)
  | buf, b :: rest =>
    match t.matchCode (buf ++ [b]) with
    | some i =>
      let r := docDecode t [] rest
      ((t.entry i).sym :: r.1, r.2)
    | none => docDecode t (buf ++ [b]) rest

/-- The bits of a list of words, each most significant bit first (R71, R185). -/
def wordBits (q : List Word) : Bits := q.flatMap (fun w => packedBits w 32)

/-- The bitstream held by the encoder: the queued words, then the pending bits (R181). -/
def Encoder.stream (e : Encoder) : Bits := wordBits e.q ++ packedBits e.acc e.fill

/-- What a host does in an encode session: append a symbol, or read ENC_OUT. -/
inductive EncodeUse where
  | sym (c : Byte)
  | take
  deriving DecidableEq, Repr

/-- The symbols appended, in order. -/
def symbolsOf (use : List EncodeUse) : List Byte :=
  use.filterMap (fun u => match u with
    | .sym c => some c
    | .take => none)

/-- One encode session with reads of ENC_OUT on the way, apart from BUSY: the words taken, oldest first, and the state; none once
a fault is latched (R184, R185). -/
def runEncode : List EncodeUse → State → Option (List Word × State)
  | [], s => some ([], s)
  | .sym c :: rest, s =>
    match exec (.encSym c) s with
    | .next t => if t.latch.err then none else runEncode rest t
    | .fault _ => none
    | .refused _ => none
  | .take :: rest, s => (runEncode rest (readEffect s .encOut)).map (fun r => (s.enc.q.take 1 ++ r.1, r.2))

/-- The use of a host that reads ENC_OUT eight times after each symbol, as often as one ENC_SYM can push (R182, R278). -/
def drainedUse (S : List Byte) : List EncodeUse := S.flatMap (fun c => .sym c :: List.replicate 8 .take)

/-- Feed a bitstream of `n` bits back, 32 bits from each word and what is left from the last, and take all of DEC_Q after each
word: the words taken and the state; none once a fault is latched (R202, R208). -/
def feedWords : Nat → List Word → State → Option (List Word × State)
  | _, [], s => some ([], s)
  | n, w :: rest, s =>
    match exec (.decWord (BitVec.ofNat 6 (min n 32))) { s with arg0 := w } with
    | .next t =>
      if t.latch.err then none
      else (feedWords (n - 32) rest { t with dec := { t.dec with q := [] } }).map (fun r => (t.dec.q ++ r.1, r.2))
    | .fault _ => none
    | .refused _ => none

/-- The decoder stands for the document's buffer `buf`: the same bits while there are at most 255, else the dead length
(R47, R206). -/
def Decoder.Follows (d : Decoder) (buf : Bits) : Prop :=
  d.len = min buf.length Config.dlenDead ∧ (buf.length ≤ Config.maxCodeLen → d.candidate = buf)

/-- The bits a text stands for: its bit characters, every other character skipped (R203). -/
def textBits (text : List Byte) : Bits := text.filterMap charBit

/-- The reads of `DRAIN_ENC` or `DRAIN_DEC` on a queue, oldest first: each level, then each word, and the last level 0 (R88). -/
def drainReads : List Word → List Response
  | [] => [.read 0#32]
  | w :: rest => .read (BitVec.ofNat 32 (rest.length + 1)) :: .read w :: drainReads rest

end Sys2Proof.Machine
end

