-- ==== Sys2Proof/Certificates/Slice0/Obligations.lean ====
section
/-! DEFINITION. The statements about HUFFCORE for the provers. -/

open Sys2Proof Sys2Proof.Machine

/-! ### Encoding -/

/-- One word of each format and family, written out from R81 and R83, decodes to the command it stands for. -/
def Obligations.OpcodeWordsDecodeAsWritten : Prop :=
  decode 0x00000000#32 = .legal .nop ∧ decode 0x11000062#32 = .legal (.freqCount 0x62#8) ∧
  decode 0x21000102#32 = .legal (.nodeRead 0x102#9) ∧ decode 0x33000278#32 = .legal (.codeLoad 0x78#8 2#8) ∧
  decode 0x41000061#32 = .legal (.encSym 0x61#8) ∧ decode 0x51000017#32 = .legal (.decWord 23#6) ∧
  decode 0x5200000A#32 = .legal (.decChar 0x0A#8) ∧ decode 0x7F000000#32 = .legal .softReset

/-- Decode and encode agree on every well-formed command, with every operand at every value (R81, R82, R86). -/
def Obligations.DecodeOfEncodeIsTheCommand : Prop :=
  ∀ i : Instr, i.wf = true → decode (encode i) = .legal i

/-- Each legal word is the one encoding of its command, and the command is well-formed (R80, R86). -/
def Obligations.LegalWordsAreTheirOwnEncodings : Prop :=
  ∀ (w : Word) (i : Instr), decode w = .legal i → encode i = w ∧ i.wf = true

/-- The decoder accepts exactly the words of the match and mask table, DEC_WORD's n being 1 to 32 (R83, R84, R85). -/
def Obligations.DecodeAcceptsExactlyTheOpcodeMap : Prop :=
  ∀ w : Word, (∃ i, decode w = .legal i) ↔
    (∃ r ∈ opcodeRows, w &&& r.mask = r.pattern) ∧
      (w.toNat / 2 ^ 24 = 0x51 → 1 ≤ w.toNat % 64 ∧ w.toNat % 64 ≤ 32)

/-! ### The host interface -/

/-- A step runs the decoded command: an accepted CMD write of a legal word answers what `exec` answers, with the response
recorded before it and BUSY started after it (R24, R243). -/
def Obligations.StepRunsTheAcceptedCommand : Prop :=
  ∀ (s : State) (w : Word) (rest : List HostAction) (i : Instr),
    s.Next ⟨true, 0x08#8, .word, w⟩ rest → s.busy = false →
    (s.latch.err = false ∨ w = 0x70000000#32 ∨ w = 0x7F000000#32) → decode w = .legal i →
    step s = onNext startBusy (exec i (respond .written (s.setPending rest)))

/-- An illegal word raises ILLEGAL_COMMAND with INFO the word, and nothing else changes in the block but BUSY (R84, R85, R243). -/
def Obligations.StepRaisesIllegalCommand : Prop :=
  ∀ (s : State) (w : Word) (rest : List HostAction),
    s.Next ⟨true, 0x08#8, .word, w⟩ rest → s.busy = false → s.latch.err = false →
    ((∀ r ∈ opcodeRows, w &&& r.mask ≠ r.pattern) ∨
      (w.toNat / 2 ^ 24 = 0x51 ∧ (w.toNat % 64 = 0 ∨ 32 < w.toNat % 64))) →
    step s = .next (startBusy
      { respond .written (s.setPending rest) with latch := ⟨true, .illegalCommand, w⟩ })

/-- While ERR = 1 every CMD write but the two exact words is dropped: nothing changes, not even BUSY (R243). -/
def Obligations.StepDropsCommandsWhileErr : Prop :=
  ∀ (s : State) (w : Word) (rest : List HostAction),
    s.Next ⟨true, 0x08#8, .word, w⟩ rest → s.busy = false → s.latch.err = true →
    w ≠ 0x70000000#32 → w ≠ 0x7F000000#32 →
    step s = .next (respond .written (s.setPending rest))

/-- A write to CMD, ARG0 or CBITS0 to CBITS7 while BUSY = 1 is dropped and latches BUSY_OVERRUN with the offset if ERR = 0; the
access counts toward the end of BUSY (R276, R247; the count is log 2). -/
def Obligations.BusyWritesLatchOverrun : Prop :=
  ∀ (s : State) (off : BitVec 8) (v : Word) (rest : List HostAction),
    s.Next ⟨true, off, .word, v⟩ rest → s.busy = true →
    (off = 0x08#8 ∨ off = 0x18#8 ∨ (0x80 ≤ off.toNat ∧ off.toNat ≤ 0x9C ∧ off.toNat % 4 = 0)) →
    step s = .next
      { respond .written (s.setPending rest) with
        busyLeft := s.busyLeft - 1
        latch := if s.latch.err then s.latch else ⟨true, .busyOverrun, off.setWidth 32⟩ }

/-- Reads while BUSY = 1: STATUS is current, ID and PARAM are their constants, any other aligned offset answers some value and
has no side effect, so the queues do not pop (R276). -/
def Obligations.BusyReadsHaveNoSideEffect : Prop :=
  ∀ (s : State) (off : BitVec 8) (v : Word) (rest : List HostAction),
    s.Next ⟨false, off, .word, v⟩ rest → s.busy = true → off.toNat % 4 = 0 →
    ∃ (x : Word) (draws : Nat),
      step s = .next
        { s with busyLeft := s.busyLeft - 1, host := ⟨rest, .read x :: s.host.responses, draws⟩ } ∧
      (off = 0x00#8 → x = 0x48460001#32) ∧
      (off = 0x04#8 → x.toNat = s.fifoDepth % 65536 * 65536 + 0xFF08) ∧
      (off = 0x0C#8 → x.getLsbD 0 = true ∧ x.getLsbD 1 = s.latch.err ∧ x.getLsbD 2 = s.tree.valid ∧
        x.getLsbD 3 = s.enc.isOpen ∧ x.getLsbD 4 = s.dec.isOpen ∧ x.getLsbD 5 = decide (s.dec.len = 256) ∧
        x.getLsbD 6 = decide (s.enc.q ≠ []) ∧ x.getLsbD 7 = decide (s.dec.q ≠ []) ∧ x.toNat < 256)

/-- Any access that is not a 32-bit access at an aligned offset gets a bus error and has no effect on the block (R61). -/
def Obligations.IllegalAccessHasNoEffect : Prop :=
  ∀ (s : State) (t : Request) (rest : List HostAction),
    s.Next t rest → (t.size ≠ .word ∨ t.off.toNat % 4 ≠ 0) →
    step s = .next { s with host := ⟨rest, .busError :: s.host.responses, s.host.draws⟩ }

/-- A legal write to any offset but CMD, ARG0 and CBITS is ignored, whatever BUSY is: read-only registers and reserved offsets
keep everything (R42, R63, R64; one legal access counts toward the end of BUSY, log 2). -/
def Obligations.WritesElsewhereAreIgnored : Prop :=
  ∀ (s : State) (off : BitVec 8) (v : Word) (rest : List HostAction),
    s.Next ⟨true, off, .word, v⟩ rest → off.toNat % 4 = 0 → off ≠ 0x08#8 → off ≠ 0x18#8 →
    ¬ (0x80 ≤ off.toNat ∧ off.toNat ≤ 0x9C) →
    step s = .next { respond .written (s.setPending rest) with busyLeft := s.busyLeft - 1 }

/-- With BUSY = 0 a write to ARG0 or to CBITSj stores the value there and nowhere else (R28, R41, R63). -/
def Obligations.OperandRegistersStoreTheWord : Prop :=
  ∀ (s : State) (v : Word) (rest : List HostAction), s.busy = false →
    (s.Next ⟨true, 0x18#8, .word, v⟩ rest →
      step s = .next { respond .written (s.setPending rest) with arg0 := v }) ∧
    (∀ j : Fin 8, s.Next ⟨true, BitVec.ofNat 8 (0x80 + 4 * j.val), .word, v⟩ rest →
      ∃ win : Vector Word 8, step s = .next { respond .written (s.setPending rest) with cbits := win } ∧
        ∀ k : Fin 8, win[k] = if k = j then v else s.cbits[k])

/-- The value each register reads as with BUSY = 0, at its offset, with no side effect (R21 to R35, R37, R39 to R42). -/
def Obligations.IdleReadsReturnTheRegisters : Prop :=
  ∀ s : State, s.Inv → s.busy = false →
    ReadGives s 0x00#8 0x48460001#32 ∧
    ReadGives s 0x04#8 (BitVec.ofNat 32 (s.fifoDepth * 65536 + 0xFF08)) ∧
    ReadGives s 0x08#8 0#32 ∧
    ReadGives s 0x0C#8 (BitVec.ofNat 32 (2 * s.latch.err.toNat + 4 * s.tree.valid.toNat + 8 * s.enc.isOpen.toNat +
      16 * s.dec.isOpen.toNat + 32 * (decide (s.dec.len = 256)).toNat + 64 * (decide (s.enc.q ≠ [])).toNat +
      128 * (decide (s.dec.q ≠ [])).toNat)) ∧
    ReadGives s 0x14#8 s.latch.info ∧
    ReadGives s 0x18#8 s.arg0 ∧
    ReadGives s 0x20#8 s.res0 ∧ ReadGives s 0x24#8 s.res1 ∧ ReadGives s 0x28#8 s.res2 ∧ ReadGives s 0x2C#8 s.res3 ∧
    ReadGives s 0x30#8 (BitVec.ofNat 32 s.ft.n) ∧
    ReadGives s 0x34#8 (BitVec.ofNat 32 s.ct.n) ∧
    ReadGives s 0x38#8 (BitVec.ofNat 32 (s.tree.n * 65536 + s.tree.root)) ∧
    ReadGives s 0x40#8 (BitVec.ofNat 32 (s.enc.nbits.toNat % 2 ^ 32)) ∧
    ReadGives s 0x44#8 (BitVec.ofNat 32 (s.enc.nbits.toNat / 2 ^ 32)) ∧
    ReadGives s 0x48#8 (BitVec.ofNat 32 s.enc.fill) ∧
    ReadGives s 0x4C#8 (BitVec.ofNat 32 s.enc.q.length) ∧
    ReadGives s 0x54#8 (BitVec.ofNat 32 s.dec.q.length) ∧
    ReadGives s 0x5C#8 (BitVec.ofNat 32 s.dec.len) ∧
    ReadGives s 0x60#8 s.dec.nsym ∧
    (∀ j : Fin 8, ReadGives s (BitVec.ofNat 8 (0x80 + 4 * j.val)) s.cbits[j]) ∧
    (∀ off : BitVec 8, off.toNat % 4 = 0 →
      (off = 0x1C#8 ∨ off = 0x3C#8 ∨ (0x64 ≤ off.toNat ∧ off.toNat ≤ 0x7C) ∨ 0xA0 ≤ off.toNat) →
      ReadGives s off 0#32)

/-- CAUSE reads as the code of the latched cause (R26, R240). -/
def Obligations.CauseReadsAsItsCode : Prop :=
  ∀ (c : Cause) (code : Word),
    (c, code) ∈ [(Cause.noFault, 0x00#32), (.emptyInput, 0x01#32), (.unknownSymbol, 0x02#32),
      (.incompleteCode, 0x03#32), (.illegalCommand, 0x04#32), (.sequenceError, 0x05#32), (.tableBusy, 0x06#32),
      (.noTree, 0x07#32), (.badCodeLength, 0x08#32), (.duplicateCode, 0x09#32), (.countOverflow, 0x0A#32),
      (.outputOverflow, 0x0B#32), (.busyOverrun, 0x0C#32)] →
    ∀ s : State, s.busy = false → s.latch.cause = c → ReadGives s 0x10#8 code

/-- With BUSY = 0 a read of ENC_OUT or DEC_OUT answers and removes the oldest word of its queue; on an empty queue it answers 0
and changes nothing (R36, R38, R63, R184, R205). -/
def Obligations.OutReadsPopTheOldestWord : Prop :=
  ∀ (s : State) (v : Word) (rest : List HostAction), s.busy = false →
    (s.Next ⟨false, 0x50#8, .word, v⟩ rest →
      (s.enc.q = [] → step s = .next (respond (.read 0#32) (s.setPending rest))) ∧
      ∀ w q, s.enc.q = w :: q →
        step s = .next { respond (.read w) (s.setPending rest) with enc := { s.enc with q := q } }) ∧
    (s.Next ⟨false, 0x58#8, .word, v⟩ rest →
      (s.dec.q = [] → step s = .next (respond (.read 0#32) (s.setPending rest))) ∧
      ∀ w q, s.dec.q = w :: q →
        step s = .next { respond (.read w) (s.setPending rest) with dec := { s.dec with q := q } })

/-- POLL reads STATUS until BUSY reads 0: it ends after as many reads as BUSY lasts and one more, with BUSY = 0 and nothing else
of the block changed (R49, R87, R277). -/
def Obligations.PollEndsWithBusyClear : Prop :=
  ∀ (s : State) (rest : List HostAction), s.host.pending = .poll :: rest →
    ∃ rs : List Response, rs.length = s.busyLeft + 1 ∧
      core.run (s.busyLeft + 1) s =
        .next { s with busyLeft := 0, host := ⟨rest, rs ++ s.host.responses, s.host.draws⟩ }

/-- DRAIN_ENC and DRAIN_DEC with BUSY = 0 read the whole queue in the order it was filled and leave it empty (R72, R88). -/
def Obligations.DrainReadsTheQueueInOrder : Prop :=
  ∀ (s : State) (rest : List HostAction), s.Inv → s.busy = false →
    (s.host.pending = .drainEnc :: rest →
      core.run (2 * s.enc.q.length + 1) s =
        .next { s with
          enc := { s.enc with q := [] }
          host := ⟨rest, (drainReads s.enc.q).reverse ++ s.host.responses, s.host.draws⟩ }) ∧
    (s.host.pending = .drainDec :: rest →
      core.run (2 * s.dec.q.length + 1) s =
        .next { s with
          dec := { s.dec with q := [] }
          host := ⟨rest, (drainReads s.dec.q).reverse ++ s.host.responses, s.host.draws⟩ })

/-- Every step answers a next state, so no fault of the block stops it (R11, R241); no step changes FIFO_DEPTH, the constant of
the build (R7, R23); and with no host action left the block holds its state (R253). -/
def Obligations.EveryStepGoesOn : Prop :=
  ∀ s : State, ∃ t, step s = .next t ∧ t.fifoDepth = s.fifoDepth ∧ (s.host.pending = [] → t = s)

/-! ### Faults -/

/-- Faults are precise: a command other than SOFT_RESET that writes the latch writes nothing else (R241, R242). -/
def Obligations.FaultsArePrecise : Prop :=
  ∀ (i : Instr) (s t : State), i ≠ .softReset → exec i s = .next t →
    t.latch = s.latch ∨ t = { s with latch := t.latch }

/-- Once a fault is latched it stays, unchanged, until an accepted ERR_CLEAR or SOFT_RESET or the `rst` input clears it
(R48, R246, R247). -/
def Obligations.FirstFaultIsKeptUntilCleared : Prop :=
  ∀ s t : State, s.latch.err = true → step s = .next t →
    t.latch = s.latch ∨ (t.latch = Latch.clear ∧ (s.clearsNext ∨ s.resetsNext))

/-! ### Control -/

/-- NOP changes nothing, ERR_CLEAR clears the latch and nothing else, SOFT_RESET puts every piece of the block's state to its
reset value, whatever the latch holds (R230, R231, R232). -/
def Obligations.ControlCommandsDoWhatTheySay : Prop :=
  encode .nop = 0x00000000#32 ∧ encode .errClear = 0x70000000#32 ∧ encode .softReset = 0x7F000000#32 ∧
  ∀ s : State, exec .nop s = .next s ∧
    exec .errClear s = .next { s with latch := ⟨false, .noFault, 0#32⟩ } ∧
    exec .softReset s = .next { State.reset with fifoDepth := s.fifoDepth, host := s.host }

/-- The `rst` input gives every piece of the block's state its reset value, BUSY included (R270). -/
def Obligations.RstResetsTheBlock : Prop :=
  ∀ (s : State) (rest : List HostAction), s.host.pending = .rst :: rest →
    step s = .next { State.reset with fifoDepth := s.fifoDepth, host := { s.host with pending := rest } }

/-- The reset values of R52, and the constants ID and PARAM after reset (R22, R23, R52). -/
def Obligations.ResetLeavesTheValuesOfTheTable : Prop :=
  let s := State.reset
  s.busy = false ∧ s.latch = ⟨false, .noFault, 0#32⟩ ∧ s.arg0 = 0#32 ∧
  s.res0 = 0#32 ∧ s.res1 = 0#32 ∧ s.res2 = 0#32 ∧ s.res3 = 0#32 ∧ (∀ j : Fin 8, s.cbits[j] = 0#32) ∧
  s.ft.n = 0 ∧ (∀ i, s.ft.entry i = ⟨0#8, 0#32⟩) ∧
  s.tree.n = 0 ∧ s.tree.root = 0 ∧ s.tree.valid = false ∧ (∀ k, nodeAt s.tree.mem k = .leaf 0#40 0#8) ∧
  s.ct.n = 0 ∧ (∀ i, s.ct.entry i = ⟨0#8, 0#8, 0#255⟩) ∧
  s.enc = ⟨false, 0#32, 0, 0#64, []⟩ ∧ s.dec = ⟨false, 0#255, 0, 0#32, []⟩ ∧
  readValue s .id = 0x48460001#32 ∧ (readValue s .param).toNat = s.fifoDepth * 65536 + 0xFF08

/-! ### Frequency front end -/

/-- FREQ_CLEAR sets FT_N to 0; CODE_CLEAR sets CT_N to 0, or faults with TABLE_BUSY in a session; nothing else changes, and the
entries keep what they held (R111, R154). -/
def Obligations.ClearCommandsEmptyTheTables : Prop :=
  encode .freqClear = 0x10000000#32 ∧ encode .codeClear = 0x32000000#32 ∧
  ∀ s : State, exec .freqClear s = .next { s with ft := { s.ft with n := 0 } } ∧
    (s.enc.isOpen = false → s.dec.isOpen = false →
      exec .codeClear s = .next { s with ct := { s.ct with n := 0 } }) ∧
    (s.enc.isOpen = true ∨ s.dec.isOpen = true →
      exec .codeClear s = .next { s with latch := ⟨true, .tableBusy, 0x32000000#32⟩ })

/-- FREQ_COUNT: a present symbol's count grows by one in its slot, or COUNT_OVERFLOW at the largest count; an absent symbol
takes the next slot with count 1, and there is one (R112). -/
def Obligations.FreqCountCountsOneOccurrence : Prop :=
  ∀ (s : State) (sym : Byte), s.ft.Wf →
    encode (.freqCount sym) = 0x11000000#32 ||| sym.setWidth 32 ∧
    (∀ i, i < s.ft.n → (s.ft.entry i).sym = sym →
      ((s.ft.entry i).count = 0xFFFFFFFF#32 →
        exec (.freqCount sym) s = .next { s with latch := ⟨true, .countOverflow, sym.setWidth 32⟩ }) ∧
      ((s.ft.entry i).count ≠ 0xFFFFFFFF#32 →
        ∃ ft : FreqTable, exec (.freqCount sym) s = .next { s with ft := ft } ∧ ft.n = s.ft.n ∧
          ∀ j, ft.entry j = if j = i then ⟨sym, (s.ft.entry i).count + 1⟩ else s.ft.entry j)) ∧
    ((∀ i, i < s.ft.n → (s.ft.entry i).sym ≠ sym) →
      s.ft.n < 256 ∧
      ∃ ft : FreqTable, exec (.freqCount sym) s = .next { s with ft := ft } ∧ ft.n = s.ft.n + 1 ∧
        ∀ j, ft.entry j = if j = s.ft.n then ⟨sym, 1#32⟩ else s.ft.entry j)

/-- FREQ_LOAD: the count of the symbol becomes ARG0, in its slot if it is present, else in the next slot (R113). -/
def Obligations.FreqLoadSetsTheCount : Prop :=
  ∀ (s : State) (sym : Byte), s.ft.Wf →
    encode (.freqLoad sym) = 0x12000000#32 ||| sym.setWidth 32 ∧
    (∀ i, i < s.ft.n → (s.ft.entry i).sym = sym →
      ∃ ft : FreqTable, exec (.freqLoad sym) s = .next { s with ft := ft } ∧ ft.n = s.ft.n ∧
        ∀ j, ft.entry j = if j = i then ⟨sym, s.arg0⟩ else s.ft.entry j) ∧
    ((∀ i, i < s.ft.n → (s.ft.entry i).sym ≠ sym) →
      s.ft.n < 256 ∧
      ∃ ft : FreqTable, exec (.freqLoad sym) s = .next { s with ft := ft } ∧ ft.n = s.ft.n + 1 ∧
        ∀ j, ft.entry j = if j = s.ft.n then ⟨sym, s.arg0⟩ else s.ft.entry j)

/-- FREQ_READ: a used slot into RES0 and RES1, an unused one reads as zero, RES2 and RES3 are 0 (R114). -/
def Obligations.FreqReadReportsTheSlot : Prop :=
  ∀ (s : State) (slot : Byte),
    encode (.freqRead slot) = 0x13000000#32 ||| slot.setWidth 32 ∧
    (slot.toNat < s.ft.n → exec (.freqRead slot) s = .next { s with
      res0 := 0x80000000#32 ||| (s.ft.entry slot.toNat).sym.setWidth 32
      res1 := (s.ft.entry slot.toNat).count, res2 := 0#32, res3 := 0#32 }) ∧
    (s.ft.n ≤ slot.toNat → exec (.freqRead slot) s = .next { s with
      res0 := 0#32, res1 := 0#32, res2 := 0#32, res3 := 0#32 })

/-- Counting a sequence leaves exactly its counts, in order of first occurrence, with no fault (R115, R116). -/
def Obligations.CountingASequenceIsExact : Prop :=
  ∀ (S : List Byte) (s : State), S.length < 2 ^ 32 →
    ∃ ft : FreqTable,
      runCommands (.freqClear :: S.map .freqCount) s = .next { s with ft := ft } ∧
      ft.n = (firstSeen S).length ∧
      (∀ i (h : i < (firstSeen S).length),
        (ft.entry i).sym = (firstSeen S)[i] ∧ (ft.entry i).count.toNat = S.count (firstSeen S)[i]) ∧
      ((List.range ft.n).map (fun i => (ft.entry i).count.toNat)).sum = S.length

/-! ### Tree builder -/

/-- BUILD raises EMPTY_INPUT on an empty table and keeps the tree; on n entries it makes a tree of 2n - 1 nodes whose leaves are
the entries in slot order, with the shape of R44; nothing but the tree changes (R130, R133, R134). -/
def Obligations.BuildMakesATreeOverTheEntries : Prop :=
  encode .build = 0x20000000#32 ∧
  ∀ s : State, s.ft.Wf → s.tree.mem.wf Node.zero = true →
    (s.ft.n = 0 → exec .build s = .next { s with latch := ⟨true, .emptyInput, 0#32⟩ }) ∧
    (0 < s.ft.n → ∃ tr : TreeArena, exec .build s = .next { s with tree := tr } ∧
      tr.valid = true ∧ tr.n = 2 * s.ft.n - 1 ∧ tr.root = 2 * s.ft.n - 2 ∧ tr.Wf ∧
      ∀ i, i < s.ft.n → nodeAt tr.mem i = .leaf ((s.ft.entry i).count.setWidth 40) (s.ft.entry i).sym)

/-- Each internal node k joins the two live nodes of least (weight, seq), the least one left, with their exact summed weight
(R130, R131, R132). -/
def Obligations.BuildMergesTheTwoLeastNodes : Prop :=
  ∀ (s : State) (tr : TreeArena), s.ft.Wf → 0 < s.ft.n → exec .build s = .next { s with tree := tr } →
    ∀ k, s.ft.n ≤ k → k < tr.n → ∃ w a b, nodeAt tr.mem k = .internal w a b ∧
      w.toNat = (nodeAt tr.mem a).weight.toNat + (nodeAt tr.mem b).weight.toNat ∧
      LeastKey tr.mem (LiveAt tr.mem k) a ∧
      LeastKey tr.mem (fun j => LiveAt tr.mem k j ∧ j ≠ a) b

/-- The root's weight is the exact sum of all counts (R134). -/
def Obligations.RootWeightIsTheSumOfCounts : Prop :=
  ∀ (s : State) (tr : TreeArena), s.ft.Wf → 0 < s.ft.n → exec .build s = .next { s with tree := tr } →
    (nodeAt tr.mem tr.root).weight.toNat = ((List.range s.ft.n).map (fun i => (s.ft.entry i).count.toNat)).sum

/-- Two BUILDs from the same entries in use give the same tree, whatever else the two states hold (R131, R136). -/
def Obligations.BuildDependsOnTheEntriesInUse : Prop :=
  ∀ (s s' : State) (tr tr' : TreeArena), 0 < s.ft.n → s'.ft.n = s.ft.n →
    (∀ i, i < s.ft.n → s'.ft.entry i = s.ft.entry i) →
    exec .build s = .next { s with tree := tr } → exec .build s' = .next { s' with tree := tr' } →
    tr'.n = tr.n ∧ tr'.root = tr.root ∧ ∀ k, k < tr.n → nodeAt tr'.mem k = nodeAt tr.mem k

/-- NODE_READ: a node in use into RES0 to RES3, any other index reads as zero (R135). -/
def Obligations.NodeReadReportsTheNode : Prop :=
  ∀ (s : State) (idx : BitVec 9), s.tree.Wf →
    encode (.nodeRead idx) = 0x21000000#32 ||| idx.setWidth 32 ∧
    (∀ w sym, s.tree.valid = true → idx.toNat < s.tree.n → nodeAt s.tree.mem idx.toNat = .leaf w sym →
      exec (.nodeRead idx) s = .next { s with
        res0 := 0x80000000#32 ||| (if idx.toNat = s.tree.root then 0x20000000#32 else 0#32) ||| idx.setWidth 32
        res1 := w.setWidth 32, res2 := (w >>> 32).setWidth 32, res3 := sym.setWidth 32 }) ∧
    (∀ w a b, s.tree.valid = true → idx.toNat < s.tree.n → nodeAt s.tree.mem idx.toNat = .internal w a b →
      exec (.nodeRead idx) s = .next { s with
        res0 := 0xC0000000#32 ||| (if idx.toNat = s.tree.root then 0x20000000#32 else 0#32) ||| idx.setWidth 32
        res1 := w.setWidth 32, res2 := (w >>> 32).setWidth 32, res3 := BitVec.ofNat 32 (b * 65536 + a) }) ∧
    (s.tree.valid = false ∨ s.tree.n ≤ idx.toNat →
      exec (.nodeRead idx) s = .next { s with res0 := 0#32, res1 := 0#32, res2 := 0#32, res3 := 0#32 })

/-! ### Code table -/

/-- GEN_CODES, CODE_CLEAR and CODE_LOAD fault with TABLE_BUSY and INFO the word while a session is open (R156). -/
def Obligations.TableCommandsAreRefusedInASession : Prop :=
  ∀ (s : State) (sym len : Byte), (s.enc.isOpen = true ∨ s.dec.isOpen = true) →
    exec .genCodes s = .next { s with latch := ⟨true, .tableBusy, 0x30000000#32⟩ } ∧
    exec .codeClear s = .next { s with latch := ⟨true, .tableBusy, 0x32000000#32⟩ } ∧
    exec (.codeLoad sym len) s = .next { s with
      latch := ⟨true, .tableBusy, 0x33000000#32 ||| (len.setWidth 32 <<< 8) ||| sym.setWidth 32⟩ }

/-- GEN_CODES: TABLE_BUSY in a session, then NO_TREE without a tree; else each leaf gets, in the slot of its index, its path from
the root as its code, or "0" for the empty path, with zero bits after it; everything but CT stays (R150, R151). That slots from n
on keep what they held is the model's: no command can show it (log 6). -/
def Obligations.GenCodesAssignsThePaths : Prop :=
  encode .genCodes = 0x30000000#32 ∧
  ∀ s : State,
    (s.enc.isOpen = true ∨ s.dec.isOpen = true →
      exec .genCodes s = .next { s with latch := ⟨true, .tableBusy, 0x30000000#32⟩ }) ∧
    (s.enc.isOpen = false → s.dec.isOpen = false → s.tree.valid = false →
      exec .genCodes s = .next { s with latch := ⟨true, .noTree, 0#32⟩ }) ∧
    ∀ l : Nat, s.enc.isOpen = false → s.dec.isOpen = false → s.tree.valid = true → s.tree.Shape l →
      ∃ ct : CodeTable, exec .genCodes s = .next { s with ct := ct } ∧ ct.n = l ∧
        (∀ k, k < l → ∃ p w sym, follow s.tree.mem s.tree.root p = some k ∧ nodeAt s.tree.mem k = .leaf w sym ∧
          (ct.entry k).sym = sym ∧ (ct.entry k).code = (if p = [] then [false] else p) ∧
          ∀ m, (ct.entry k).len.toNat ≤ m → (ct.entry k).bits.getLsbD m = false) ∧
        ∀ k, l ≤ k → ct.entry k = s.ct.entry k

/-- A generated table is prefix-free and meets R45's invariant: codes of 1 to 255 bits, pairwise distinct (R152). -/
def Obligations.GeneratedCodesArePrefixFree : Prop :=
  ∀ (s : State) (ct : CodeTable), s.tree.Wf → s.tree.valid = true → s.ct.mem.wf CtEntry.zero = true →
    s.enc.isOpen = false → s.dec.isOpen = false →
    exec .genCodes s = .next { s with ct := ct } → ct.PrefixFree ∧ ct.Wf

/-- A generated table of two or more codes is complete: every long enough bit sequence begins with exactly one code (R152). -/
def Obligations.GeneratedCodesAreComplete : Prop :=
  ∀ (s : State) (ct : CodeTable) (bits : Bits), s.tree.Wf → s.tree.valid = true →
    s.enc.isOpen = false → s.dec.isOpen = false →
    exec .genCodes s = .next { s with ct := ct } → 2 ≤ ct.n → 255 ≤ bits.length →
    ∃ i, i < ct.n ∧ (ct.entry i).code <+: bits ∧ ∀ j, j < ct.n → (ct.entry j).code <+: bits → j = i

/-- CODE_READ: a used slot into RES0 and CBITS, an unused one reads as zero, RES1 to RES3 are 0 (R153). -/
def Obligations.CodeReadReportsTheSlot : Prop :=
  ∀ (s : State) (slot : Byte),
    encode (.codeRead slot) = 0x31000000#32 ||| slot.setWidth 32 ∧
    (slot.toNat < s.ct.n → ∃ win : Vector Word 8, exec (.codeRead slot) s = .next { s with
        res0 := 0x80000000#32 ||| ((s.ct.entry slot.toNat).len.setWidth 32 <<< 8) |||
          (s.ct.entry slot.toNat).sym.setWidth 32
        res1 := 0#32, res2 := 0#32, res3 := 0#32, cbits := win } ∧
      ∀ (j : Fin 8) (m : Nat), m < 32 → win[j].getLsbD (31 - m) =
        (decide (32 * j.val + m < (s.ct.entry slot.toNat).len.toNat) &&
          (s.ct.entry slot.toNat).bits.getLsbD (32 * j.val + m))) ∧
    (s.ct.n ≤ slot.toNat → exec (.codeRead slot) s = .next { s with
      res0 := 0#32, res1 := 0#32, res2 := 0#32, res3 := 0#32, cbits := Vector.replicate 8 0#32 })

/-- CODE_LOAD: TABLE_BUSY in a session; len = 0 is refused; else the first len bits of CBITS become the symbol's code, in its slot
if it has one, else in the next slot, unless another symbol has that code (R155). -/
def Obligations.CodeLoadSetsTheCode : Prop :=
  ∀ (s : State) (sym len : Byte), s.ct.Wf →
    let w := 0x33000000#32 ||| (len.setWidth 32 <<< 8) ||| sym.setWidth 32
    let p := (List.range len.toNat).map (fun k => (s.cbits[k / 32]?.getD 0#32).getLsbD (31 - k % 32))
    encode (.codeLoad sym len) = w ∧
    (s.enc.isOpen = true ∨ s.dec.isOpen = true →
      exec (.codeLoad sym len) s = .next { s with latch := ⟨true, .tableBusy, w⟩ }) ∧
    (s.enc.isOpen = false → s.dec.isOpen = false → len = 0#8 →
      exec (.codeLoad sym len) s = .next { s with latch := ⟨true, .badCodeLength, w⟩ }) ∧
    (∀ j, s.enc.isOpen = false → s.dec.isOpen = false → len ≠ 0#8 →
      j < s.ct.n → (s.ct.entry j).code = p → (s.ct.entry j).sym ≠ sym →
      exec (.codeLoad sym len) s = .next { s with
        latch := ⟨true, .duplicateCode, (sym.setWidth 32 <<< 8) ||| (s.ct.entry j).sym.setWidth 32⟩ }) ∧
    (s.enc.isOpen = false → s.dec.isOpen = false → len ≠ 0#8 →
      (∀ j, j < s.ct.n → (s.ct.entry j).code = p → (s.ct.entry j).sym = sym) →
      ∃ (ct : CodeTable) (e : CtEntry), exec (.codeLoad sym len) s = .next { s with ct := ct } ∧ ct.Wf ∧
        e.sym = sym ∧ e.len = len ∧ e.code = p ∧ (∀ k, len.toNat ≤ k → e.bits.getLsbD k = false) ∧
        (∀ i, s.ct.Holds i sym → ct.n = s.ct.n ∧ ∀ j, ct.entry j = if j = i then e else s.ct.entry j) ∧
        ((∀ i, ¬ s.ct.Holds i sym) → s.ct.n < 256 ∧ ct.n = s.ct.n + 1 ∧
          ∀ j, ct.entry j = if j = s.ct.n then e else s.ct.entry j))

/-- CT does not change while a session is open, unless the whole block is reset (R69, R232, R270). -/
def Obligations.CodeTableIsFixedInASession : Prop :=
  ∀ s t : State, (s.enc.isOpen = true ∨ s.dec.isOpen = true) → step s = .next t →
    t.ct = s.ct ∨ s.resetsNext

/-- Packing a code into the CBITS window as CODE_SET does, and reading it back as CODE_LOAD does, gives the code (R41, R71, R88). -/
def Obligations.PackedWindowHoldsTheCode : Prop :=
  ∀ code : Bits, code.length ≤ 255 →
    codeBits (packWindow (fun k => code.getD k false)) code.length = code

/-! ### Encoder and decoder -/

/-- ENC_START and DEC_START open a fresh session, whatever was open or queued before, and touch nothing else (R180, R200). -/
def Obligations.StartCommandsOpenFreshSessions : Prop :=
  encode .encStart = 0x40000000#32 ∧ encode .decStart = 0x50000000#32 ∧
  ∀ s : State, exec .encStart s = .next { s with enc := ⟨true, 0#32, 0, 0#64, []⟩ } ∧
    exec .decStart s = .next { s with dec := ⟨true, 0#255, 0, 0#32, []⟩ }

/-- ENC_SYM: SEQUENCE_ERROR outside a session, then UNKNOWN_SYMBOL, then OUTPUT_OVERFLOW; else the symbol's code is appended to the
bitstream: queued words stay, completed words are queued, the counts follow (R181, R182). -/
def Obligations.EncSymAppendsTheCode : Prop :=
  ∀ (s : State) (sym : Byte), s.ct.Wf → s.enc.Wf s.fifoDepth →
    let w := 0x41000000#32 ||| sym.setWidth 32
    encode (.encSym sym) = w ∧
    (s.enc.isOpen = false → exec (.encSym sym) s = .next { s with latch := ⟨true, .sequenceError, w⟩ }) ∧
    (s.enc.isOpen = true → (∀ i, ¬ s.ct.Holds i sym) →
      exec (.encSym sym) s = .next { s with latch := ⟨true, .unknownSymbol, sym.setWidth 32⟩ }) ∧
    ∀ i, s.enc.isOpen = true → s.ct.Holds i sym →
      (s.fifoDepth - s.enc.q.length < (s.enc.fill + (s.ct.entry i).len.toNat) / 32 →
        exec (.encSym sym) s = .next { s with latch := ⟨true, .outputOverflow, w⟩ }) ∧
      ((s.enc.fill + (s.ct.entry i).len.toNat) / 32 ≤ s.fifoDepth - s.enc.q.length →
        ∃ e : Encoder, exec (.encSym sym) s = .next { s with enc := e } ∧ e.isOpen = true ∧ e.Wf s.fifoDepth ∧
          e.stream = s.enc.stream ++ (s.ct.entry i).code ∧
          e.fill = (s.enc.fill + (s.ct.entry i).len.toNat) % 32 ∧
          e.nbits = s.enc.nbits + BitVec.ofNat 64 (s.ct.entry i).len.toNat ∧
          s.enc.q <+: e.q ∧ e.q.length = s.enc.q.length + (s.enc.fill + (s.ct.entry i).len.toNat) / 32)

/-- ENC_FLUSH: SEQUENCE_ERROR outside a session; else it pushes the partial word, if there is one and room for it, and closes the
session; the count of bits stays (R183). -/
def Obligations.EncFlushPushesThePartialWord : Prop :=
  encode .encFlush = 0x42000000#32 ∧
  ∀ s : State, s.enc.Wf s.fifoDepth →
    (s.enc.isOpen = false → exec .encFlush s = .next { s with latch := ⟨true, .sequenceError, 0x42000000#32⟩ }) ∧
    (s.enc.isOpen = true → s.enc.fill = 0 →
      exec .encFlush s = .next { s with enc := ⟨false, 0#32, 0, s.enc.nbits, s.enc.q⟩ }) ∧
    (s.enc.isOpen = true → 0 < s.enc.fill → s.enc.q.length < s.fifoDepth → exec .encFlush s = .next { s with
      enc := ⟨false, 0#32, 0, s.enc.nbits, s.enc.q ++ [s.enc.acc]⟩ }) ∧
    (s.enc.isOpen = true → 0 < s.enc.fill → s.enc.q.length = s.fifoDepth →
      exec .encFlush s = .next { s with latch := ⟨true, .outputOverflow, 0x42000000#32⟩ })

/-- Encoding a sequence whose words fit ENC_Q, with no read on the way, gives the document's bitstream: the queue's first ENC_NBITS bits are the codes
concatenated, with zero padding (R185). -/
def Obligations.EncodingASequenceGivesItsCodes : Prop :=
  ∀ (s : State) (S : List Byte), s.ct.Wf → (∀ c, c ∈ S → ∃ i, s.ct.Holds i c) →
    ((docEncode s.ct S).length + 31) / 32 ≤ s.fifoDepth →
    ∃ e : Encoder,
      runCommands (.encStart :: S.map .encSym ++ [.encFlush]) s = .next { s with enc := e } ∧
      e.isOpen = false ∧ e.nbits = BitVec.ofNat 64 (docEncode s.ct S).length ∧
      e.q.length = ((docEncode s.ct S).length + 31) / 32 ∧
      ∃ pad : Nat, wordBits e.q = docEncode s.ct S ++ List.replicate pad false

/-- DEC_WORD: SEQUENCE_ERROR outside a session; else it decodes the first n bits of ARG0, the most significant first, as the
document does from its unbounded buffer: the same symbols in the same order, the same buffer left; OUTPUT_OVERFLOW and no bit
consumed when the symbols do not fit (R201, R202). -/
def Obligations.DecWordFollowsTheDocument : Prop :=
  ∀ (s : State) (n : BitVec 6) (buf : Bits), s.dec.Follows buf → 1 ≤ n.toNat → n.toNat ≤ 32 →
    let w := 0x51000000#32 ||| n.setWidth 32
    let r := docDecode s.ct buf ((List.range n.toNat).map (fun j => s.arg0.getLsbD (31 - j)))
    encode (.decWord n) = w ∧
    (s.dec.isOpen = false → exec (.decWord n) s = .next { s with latch := ⟨true, .sequenceError, w⟩ }) ∧
    (s.dec.isOpen = true → r.1.length ≤ s.fifoDepth - s.dec.q.length →
      ∃ d : Decoder, exec (.decWord n) s = .next { s with dec := d } ∧ d.isOpen = true ∧ d.Follows r.2 ∧
        d.q = s.dec.q ++ r.1.map (BitVec.setWidth 32) ∧ d.nsym = s.dec.nsym + BitVec.ofNat 32 r.1.length) ∧
    (s.dec.isOpen = true → s.fifoDepth - s.dec.q.length < r.1.length →
      exec (.decWord n) s = .next { s with latch := ⟨true, .outputOverflow, w⟩ })

/-- DEC_CHAR: SEQUENCE_ERROR outside a session, whatever the character; else it decodes one bit on the characters 0x30 and 0x31 and
skips every other character without any change (R203). -/
def Obligations.DecCharDecodesBitCharactersOnly : Prop :=
  ∀ (s : State) (c : Byte) (buf : Bits), s.dec.Follows buf →
    let w := 0x52000000#32 ||| c.setWidth 32
    encode (.decChar c) = w ∧
    (s.dec.isOpen = false → exec (.decChar c) s = .next { s with latch := ⟨true, .sequenceError, w⟩ }) ∧
    (s.dec.isOpen = true → c ≠ 0x30#8 → c ≠ 0x31#8 → exec (.decChar c) s = .next s) ∧
    ∀ b : Bool, s.dec.isOpen = true → c = (if b then 0x31#8 else 0x30#8) →
      let r := docDecode s.ct buf [b]
      (r.1.length ≤ s.fifoDepth - s.dec.q.length →
        ∃ d : Decoder, exec (.decChar c) s = .next { s with dec := d } ∧ d.isOpen = true ∧ d.Follows r.2 ∧
          d.q = s.dec.q ++ r.1.map (BitVec.setWidth 32) ∧ d.nsym = s.dec.nsym + BitVec.ofNat 32 r.1.length) ∧
      (s.fifoDepth - s.dec.q.length < r.1.length →
        exec (.decChar c) s = .next { s with latch := ⟨true, .outputOverflow, w⟩ })

/-- DEC_END: SEQUENCE_ERROR outside a session; else it closes the session on an empty buffer and raises INCOMPLETE_CODE with INFO
the buffer length otherwise (R204). -/
def Obligations.DecEndAsksForAnEmptyBuffer : Prop :=
  encode .decEnd = 0x53000000#32 ∧
  ∀ s : State,
    (s.dec.isOpen = false → exec .decEnd s = .next { s with latch := ⟨true, .sequenceError, 0x53000000#32⟩ }) ∧
    (s.dec.isOpen = true → s.dec.len = 0 → exec .decEnd s = .next { s with dec := { s.dec with isOpen := false } }) ∧
    (s.dec.isOpen = true → s.dec.len ≠ 0 →
      exec .decEnd s = .next { s with latch := ⟨true, .incompleteCode, BitVec.ofNat 32 s.dec.len⟩ })

/-- Decoding a text is decoding its bit characters: line breaks and any other characters make no difference (R203, R206). -/
def Obligations.TextDecodesAsItsBitCharacters : Prop :=
  ∀ (s : State) (text : List Byte), s.dec.isOpen = true → s.dec.Follows [] →
    let r := docDecode s.ct [] (textBits text)
    r.1.length ≤ s.fifoDepth - s.dec.q.length →
    ∃ d : Decoder, runCommands (text.map .decChar) s = .next { s with dec := d } ∧ d.isOpen = true ∧ d.Follows r.2 ∧
      d.q = s.dec.q ++ r.1.map (BitVec.setWidth 32)

/-- Round trip of the generated table, in the document's own encode and decode: counting a non-empty sequence, building and deriving codes raises no fault and leaves a code table in which
every symbol has a code and decoding the encoding of the sequence gives the sequence back, with nothing left over (R208). -/
def Obligations.RoundTripRecoversTheSequence : Prop :=
  ∀ (S : List Byte) (s : State), S ≠ [] → S.length < 2 ^ 32 → s.enc.isOpen = false → s.dec.isOpen = false →
    ∃ t : State, runCommands (.freqClear :: S.map .freqCount ++ [.build, .genCodes]) s = .next t ∧
      t.latch = s.latch ∧ (∀ c, c ∈ S → ∃ i, t.ct.Holds i c) ∧
      docDecode t.ct [] (docEncode t.ct S) = (S, [])

/-! ### What each command may write -/

/-- Each command writes its own unit and, on a fault, the latch: encoder commands never the decoder, decoder commands never the
encoder, neither the tables; FREQ, BUILD and table commands only their table; read-backs only RES and CBITS (R29, R51, R69, R70). -/
def Obligations.CommandsWriteOnlyTheirUnit : Prop :=
  ∀ (i : Instr) (s t : State), exec i s = .next t →
    match i with
    | .nop => t = s
    | .errClear => t = { s with latch := t.latch }
    | .softReset => t.fifoDepth = s.fifoDepth ∧ t.host = s.host
    | .freqClear | .freqCount _ | .freqLoad _ => t = { s with ft := t.ft, latch := t.latch }
    | .build => t = { s with tree := t.tree, latch := t.latch }
    | .genCodes | .codeClear | .codeLoad _ _ => t = { s with ct := t.ct, latch := t.latch }
    | .freqRead _ | .nodeRead _ =>
      t = { s with res0 := t.res0, res1 := t.res1, res2 := t.res2, res3 := t.res3 }
    | .codeRead _ =>
      t = { s with res0 := t.res0, res1 := t.res1, res2 := t.res2, res3 := t.res3, cbits := t.cbits }
    | .encStart | .encSym _ | .encFlush => t = { s with enc := t.enc, latch := t.latch }
    | .decStart | .decWord _ | .decChar _ | .decEnd => t = { s with dec := t.dec, latch := t.latch }

/-! ### Invariants -/

/-- The state after reset meets the invariant. -/
def Obligations.ResetMeetsTheInvariant : Prop := State.reset.Inv

/-- Every step keeps the encoder, decoder and latch invariants: queues within FIFO_DEPTH, clean buffers, an empty buffer outside
a session, CAUSE and INFO 0 while ERR = 0 (R26, R27, R46, R47, R72). -/
def Obligations.StepKeepsTheSessionsAndTheLatch : Prop :=
  ∀ s t : State, s.Inv → step s = .next t →
    t.latch.Wf ∧ t.enc.Wf t.fifoDepth ∧ t.dec.Wf t.fifoDepth t.ct

/-- Every step keeps the tree arena's invariant (R44, R134). -/
def Obligations.StepKeepsTheTreeShape : Prop :=
  ∀ s t : State, s.ft.Wf → s.tree.Wf → step s = .next t → t.ft.Wf ∧ t.tree.Wf

/-- Every step keeps the whole invariant, from every state that meets it (R43 to R48, R72). -/
def Obligations.StepKeepsTheInvariant : Prop :=
  ∀ s t : State, s.Inv → step s = .next t → t.Inv

/-- R34's clause "ENC_FILL = ENC_NBITS mod 32 at all times", read literally as an invariant of every step. It fails: ENC_FLUSH
sets ENC_FILL to 0 and keeps ENC_NBITS (R183; log 9). -/
def Obligations.EncFillIsNbitsMod32AtAllTimes : Prop :=
  ∀ s t : State, s.Inv → s.enc.fill = s.enc.nbits.toNat % 32 → step s = .next t →
    t.enc.fill = t.enc.nbits.toNat % 32

/-! ### Whole sessions -/

/-- The part of R34's clause that R183 leaves standing: ENC_FILL = ENC_NBITS mod 32 is kept by every step but an accepted
ENC_FLUSH that has a partial word to push (R34, R181, R183; log 9). -/
def Obligations.EncFillIsNbitsMod32UntilAFlush : Prop :=
  ∀ s t : State, s.enc.fill = s.enc.nbits.toNat % 32 → step s = .next t →
    t.enc.fill = t.enc.nbits.toNat % 32 ∨
      (s.enc.isOpen = true ∧ 0 < s.enc.fill ∧ s.busy = false ∧ s.latch.err = false ∧
        ∃ rest, s.Next ⟨true, 0x08#8, .word, 0x42000000#32⟩ rest)

/-- An encode session that no fault ends, with reads of ENC_OUT anywhere on the way: ENC_NBITS is the number of bits of the
document's encoding, and the words read and then those left, each most significant bit first, are that encoding and less than a
word of zeros after it (R184, R185). -/
def Obligations.EncodingADrainedSessionGivesItsCodes : Prop :=
  ∀ (s s0 t u : State) (use : List EncodeUse) (ws : List Word),
    exec .encStart s = .next s0 → runEncode use s0 = some (ws, t) → exec .encFlush t = .next u → u.latch.err = false →
    u.enc.nbits = BitVec.ofNat 64 (docEncode s.ct (symbolsOf use)).length ∧
    ∃ pad : Nat, pad < 32 ∧ wordBits (ws ++ u.enc.q) = docEncode s.ct (symbolsOf use) ++ List.replicate pad false

/-- Round trip by the block's own commands, with both queues drained on the way: no fault is raised and the words read from DEC_Q
are the symbols of the sequence; the empty sequence, without BUILD and GEN_CODES, gives no words and no symbols (R208). -/
def Obligations.RoundTripByCommandsRecoversTheSequence : Prop :=
  ∀ s : State, 32 ≤ s.fifoDepth → s.enc.isOpen = false → s.dec.isOpen = false → s.latch.err = false →
    (∀ S : List Byte, S ≠ [] → S.length < 2 ^ 32 →
      ∃ (t u v x y z : State) (ws : List Word),
        runCommands (.freqClear :: S.map .freqCount ++ [.build, .genCodes, .encStart]) s = .next t ∧
        t.latch.err = false ∧ runEncode (drainedUse S) t = some (ws, u) ∧
        exec .encFlush u = .next v ∧ v.latch.err = false ∧ exec .decStart v = .next x ∧
        feedWords v.enc.nbits.toNat (ws ++ v.enc.q) x = some (S.map (BitVec.setWidth 32), y) ∧
        exec .decEnd y = .next z ∧ z.latch.err = false ∧ z.dec.isOpen = false) ∧
    ∃ t : State, runCommands [.encStart, .encFlush, .decStart, .decEnd] s = .next t ∧
      t.latch.err = false ∧ t.enc.q = [] ∧ t.enc.nbits = 0#64 ∧ t.dec.q = [] ∧ t.dec.isOpen = false
end

