-- ==== Sys2Proof/Laws/Lookup.lean ====
section
/-! SUPPORT. What the table lookups answer (R110, R157). -/

namespace Sys2Proof.Machine

theorem findSlot_some {n i : Nat} {p : Nat → Bool} (h : findSlot n p = some i) : i < n ∧ p i = true := by
  obtain ⟨hp, hm⟩ : p i = true ∧ i ∈ List.range n := ⟨List.find?_some h, List.mem_of_find?_eq_some h⟩
  exact ⟨List.mem_range.mp hm, hp⟩

theorem findSlot_none {n : Nat} {p : Nat → Bool} : findSlot n p = none ↔ ∀ i, i < n → p i = false := by
  simp [findSlot, List.find?_eq_none]

/-- The only slot that satisfies the predicate is the one found. -/
theorem findSlot_of_unique {n i : Nat} {p : Nat → Bool} (hi : i < n) (hp : p i = true)
    (hu : ∀ j, j < n → p j = true → j = i) : findSlot n p = some i := by
  cases h : findSlot n p with
  | none => simp [findSlot_none.mp h i hi] at hp
  | some j => rw [hu j (findSlot_some h).1 (findSlot_some h).2]

theorem FreqTable.find_some {t : FreqTable} {sym : Byte} {i : Nat} (h : t.find sym = some i) :
    i < t.n ∧ (t.entry i).sym = sym := by
  simpa using findSlot_some h

theorem FreqTable.find_none {t : FreqTable} {sym : Byte} : t.find sym = none ↔ ∀ i, i < t.n → (t.entry i).sym ≠ sym := by
  simp [FreqTable.find, findSlot_none]

theorem FreqTable.find_of_distinct {t : FreqTable} {sym : Byte} {i : Nat} (hi : i < t.n) (hs : (t.entry i).sym = sym)
    (hu : ∀ i j, i < t.n → j < t.n → (t.entry i).sym = (t.entry j).sym → i = j) : t.find sym = some i :=
  findSlot_of_unique hi (by simp [hs]) fun j hj h => hu j i hj hi (by simpa [hs] using h)

theorem CodeTable.find_some {t : CodeTable} {sym : Byte} {i : Nat} (h : t.find sym = some i) :
    i < t.n ∧ (t.entry i).sym = sym := by
  simpa using findSlot_some h

theorem CodeTable.find_none {t : CodeTable} {sym : Byte} : t.find sym = none ↔ ∀ i, i < t.n → (t.entry i).sym ≠ sym := by
  simp [CodeTable.find, findSlot_none]

theorem CodeTable.find_of_distinct {t : CodeTable} {sym : Byte} {i : Nat} (hi : i < t.n) (hs : (t.entry i).sym = sym)
    (hu : ∀ i j, i < t.n → j < t.n → (t.entry i).sym = (t.entry j).sym → i = j) : t.find sym = some i :=
  findSlot_of_unique hi (by simp [hs]) fun j hj h => hu j i hj hi (by simpa [hs] using h)

theorem CodeTable.matchCode_some {t : CodeTable} {p : Bits} {i : Nat} (h : t.matchCode p = some i) :
    i < t.n ∧ (t.entry i).code = p := by
  simpa using findSlot_some h

theorem CodeTable.matchCode_none {t : CodeTable} {p : Bits} :
    t.matchCode p = none ↔ ∀ i, i < t.n → (t.entry i).code ≠ p := by
  simp [CodeTable.matchCode, findSlot_none]

theorem CodeTable.matchCode_of_distinct {t : CodeTable} {p : Bits} {i : Nat} (hi : i < t.n) (hs : (t.entry i).code = p)
    (hu : ∀ i j, i < t.n → j < t.n → (t.entry i).code = (t.entry j).code → i = j) : t.matchCode p = some i :=
  findSlot_of_unique hi (by simp [hs]) fun j hj h => hu j i hj hi (by simpa [hs] using h)

/-- No code is longer than MAX_CODE_LEN, so a longer candidate matches nothing (R206). -/
theorem CodeTable.matchCode_long (t : CodeTable) {p : Bits} (h : 255 < p.length) : t.matchCode p = none := by
  refine CodeTable.matchCode_none.mpr fun i _ he => ?_
  have := (t.entry i).code_length_le
  rw [he] at this
  omega

end Sys2Proof.Machine
end

