-- ==== Sys2Proof/Laws/State.lean ====
section
/-! SUPPORT. One lemma per field and shared update of the state, true by definition, so that no proof unfolds a record
update. -/

namespace Sys2Proof.Machine

/-! ### `raise` -/

@[simp] theorem raise_fifoDepth (c : Cause) (i : Word) (s : State) : (raise c i s).fifoDepth = s.fifoDepth := (rfl)
@[simp] theorem raise_busyLeft (c : Cause) (i : Word) (s : State) : (raise c i s).busyLeft = s.busyLeft := (rfl)
@[simp] theorem raise_latch (c : Cause) (i : Word) (s : State) : (raise c i s).latch = ⟨true, c, i⟩ := (rfl)
@[simp] theorem raise_arg0 (c : Cause) (i : Word) (s : State) : (raise c i s).arg0 = s.arg0 := (rfl)
@[simp] theorem raise_res0 (c : Cause) (i : Word) (s : State) : (raise c i s).res0 = s.res0 := (rfl)
@[simp] theorem raise_res1 (c : Cause) (i : Word) (s : State) : (raise c i s).res1 = s.res1 := (rfl)
@[simp] theorem raise_res2 (c : Cause) (i : Word) (s : State) : (raise c i s).res2 = s.res2 := (rfl)
@[simp] theorem raise_res3 (c : Cause) (i : Word) (s : State) : (raise c i s).res3 = s.res3 := (rfl)
@[simp] theorem raise_cbits (c : Cause) (i : Word) (s : State) : (raise c i s).cbits = s.cbits := (rfl)
@[simp] theorem raise_ft (c : Cause) (i : Word) (s : State) : (raise c i s).ft = s.ft := (rfl)
@[simp] theorem raise_tree (c : Cause) (i : Word) (s : State) : (raise c i s).tree = s.tree := (rfl)
@[simp] theorem raise_ct (c : Cause) (i : Word) (s : State) : (raise c i s).ct = s.ct := (rfl)
@[simp] theorem raise_enc (c : Cause) (i : Word) (s : State) : (raise c i s).enc = s.enc := (rfl)
@[simp] theorem raise_dec (c : Cause) (i : Word) (s : State) : (raise c i s).dec = s.dec := (rfl)
@[simp] theorem raise_host (c : Cause) (i : Word) (s : State) : (raise c i s).host = s.host := (rfl)

/-! ### `clearLatch` -/

@[simp] theorem clearLatch_fifoDepth (s : State) : (clearLatch s).fifoDepth = s.fifoDepth := (rfl)
@[simp] theorem clearLatch_busyLeft (s : State) : (clearLatch s).busyLeft = s.busyLeft := (rfl)
@[simp] theorem clearLatch_latch (s : State) : (clearLatch s).latch = Latch.clear := (rfl)
@[simp] theorem clearLatch_arg0 (s : State) : (clearLatch s).arg0 = s.arg0 := (rfl)
@[simp] theorem clearLatch_res0 (s : State) : (clearLatch s).res0 = s.res0 := (rfl)
@[simp] theorem clearLatch_res1 (s : State) : (clearLatch s).res1 = s.res1 := (rfl)
@[simp] theorem clearLatch_res2 (s : State) : (clearLatch s).res2 = s.res2 := (rfl)
@[simp] theorem clearLatch_res3 (s : State) : (clearLatch s).res3 = s.res3 := (rfl)
@[simp] theorem clearLatch_cbits (s : State) : (clearLatch s).cbits = s.cbits := (rfl)
@[simp] theorem clearLatch_ft (s : State) : (clearLatch s).ft = s.ft := (rfl)
@[simp] theorem clearLatch_tree (s : State) : (clearLatch s).tree = s.tree := (rfl)
@[simp] theorem clearLatch_ct (s : State) : (clearLatch s).ct = s.ct := (rfl)
@[simp] theorem clearLatch_enc (s : State) : (clearLatch s).enc = s.enc := (rfl)
@[simp] theorem clearLatch_dec (s : State) : (clearLatch s).dec = s.dec := (rfl)
@[simp] theorem clearLatch_host (s : State) : (clearLatch s).host = s.host := (rfl)

/-! ### `startBusy` -/

@[simp] theorem startBusy_fifoDepth (s : State) : (startBusy s).fifoDepth = s.fifoDepth := (rfl)
@[simp] theorem startBusy_busyLeft (s : State) : (startBusy s).busyLeft = Config.busyDraw s.host.draws := (rfl)
@[simp] theorem startBusy_latch (s : State) : (startBusy s).latch = s.latch := (rfl)
@[simp] theorem startBusy_arg0 (s : State) : (startBusy s).arg0 = s.arg0 := (rfl)
@[simp] theorem startBusy_res0 (s : State) : (startBusy s).res0 = s.res0 := (rfl)
@[simp] theorem startBusy_res1 (s : State) : (startBusy s).res1 = s.res1 := (rfl)
@[simp] theorem startBusy_res2 (s : State) : (startBusy s).res2 = s.res2 := (rfl)
@[simp] theorem startBusy_res3 (s : State) : (startBusy s).res3 = s.res3 := (rfl)
@[simp] theorem startBusy_cbits (s : State) : (startBusy s).cbits = s.cbits := (rfl)
@[simp] theorem startBusy_ft (s : State) : (startBusy s).ft = s.ft := (rfl)
@[simp] theorem startBusy_tree (s : State) : (startBusy s).tree = s.tree := (rfl)
@[simp] theorem startBusy_ct (s : State) : (startBusy s).ct = s.ct := (rfl)
@[simp] theorem startBusy_enc (s : State) : (startBusy s).enc = s.enc := (rfl)
@[simp] theorem startBusy_dec (s : State) : (startBusy s).dec = s.dec := (rfl)
@[simp] theorem startBusy_host (s : State) : (startBusy s).host = { s.host with draws := s.host.draws + 1 } := (rfl)

/-! ### `tickBusy` -/

@[simp] theorem tickBusy_fifoDepth (s : State) : (tickBusy s).fifoDepth = s.fifoDepth := (rfl)
@[simp] theorem tickBusy_busyLeft (s : State) : (tickBusy s).busyLeft = s.busyLeft - 1 := (rfl)
@[simp] theorem tickBusy_latch (s : State) : (tickBusy s).latch = s.latch := (rfl)
@[simp] theorem tickBusy_arg0 (s : State) : (tickBusy s).arg0 = s.arg0 := (rfl)
@[simp] theorem tickBusy_res0 (s : State) : (tickBusy s).res0 = s.res0 := (rfl)
@[simp] theorem tickBusy_res1 (s : State) : (tickBusy s).res1 = s.res1 := (rfl)
@[simp] theorem tickBusy_res2 (s : State) : (tickBusy s).res2 = s.res2 := (rfl)
@[simp] theorem tickBusy_res3 (s : State) : (tickBusy s).res3 = s.res3 := (rfl)
@[simp] theorem tickBusy_cbits (s : State) : (tickBusy s).cbits = s.cbits := (rfl)
@[simp] theorem tickBusy_ft (s : State) : (tickBusy s).ft = s.ft := (rfl)
@[simp] theorem tickBusy_tree (s : State) : (tickBusy s).tree = s.tree := (rfl)
@[simp] theorem tickBusy_ct (s : State) : (tickBusy s).ct = s.ct := (rfl)
@[simp] theorem tickBusy_enc (s : State) : (tickBusy s).enc = s.enc := (rfl)
@[simp] theorem tickBusy_dec (s : State) : (tickBusy s).dec = s.dec := (rfl)
@[simp] theorem tickBusy_host (s : State) : (tickBusy s).host = s.host := (rfl)

/-! ### `setRes` -/

@[simp] theorem setRes_fifoDepth (a b c d : Word) (s : State) : (setRes a b c d s).fifoDepth = s.fifoDepth := (rfl)
@[simp] theorem setRes_busyLeft (a b c d : Word) (s : State) : (setRes a b c d s).busyLeft = s.busyLeft := (rfl)
@[simp] theorem setRes_latch (a b c d : Word) (s : State) : (setRes a b c d s).latch = s.latch := (rfl)
@[simp] theorem setRes_arg0 (a b c d : Word) (s : State) : (setRes a b c d s).arg0 = s.arg0 := (rfl)
@[simp] theorem setRes_res0 (a b c d : Word) (s : State) : (setRes a b c d s).res0 = a := (rfl)
@[simp] theorem setRes_res1 (a b c d : Word) (s : State) : (setRes a b c d s).res1 = b := (rfl)
@[simp] theorem setRes_res2 (a b c d : Word) (s : State) : (setRes a b c d s).res2 = c := (rfl)
@[simp] theorem setRes_res3 (a b c d : Word) (s : State) : (setRes a b c d s).res3 = d := (rfl)
@[simp] theorem setRes_cbits (a b c d : Word) (s : State) : (setRes a b c d s).cbits = s.cbits := (rfl)
@[simp] theorem setRes_ft (a b c d : Word) (s : State) : (setRes a b c d s).ft = s.ft := (rfl)
@[simp] theorem setRes_tree (a b c d : Word) (s : State) : (setRes a b c d s).tree = s.tree := (rfl)
@[simp] theorem setRes_ct (a b c d : Word) (s : State) : (setRes a b c d s).ct = s.ct := (rfl)
@[simp] theorem setRes_enc (a b c d : Word) (s : State) : (setRes a b c d s).enc = s.enc := (rfl)
@[simp] theorem setRes_dec (a b c d : Word) (s : State) : (setRes a b c d s).dec = s.dec := (rfl)
@[simp] theorem setRes_host (a b c d : Word) (s : State) : (setRes a b c d s).host = s.host := (rfl)

/-! ### `respond` -/

@[simp] theorem respond_fifoDepth (r : Response) (s : State) : (respond r s).fifoDepth = s.fifoDepth := (rfl)
@[simp] theorem respond_busyLeft (r : Response) (s : State) : (respond r s).busyLeft = s.busyLeft := (rfl)
@[simp] theorem respond_latch (r : Response) (s : State) : (respond r s).latch = s.latch := (rfl)
@[simp] theorem respond_arg0 (r : Response) (s : State) : (respond r s).arg0 = s.arg0 := (rfl)
@[simp] theorem respond_res0 (r : Response) (s : State) : (respond r s).res0 = s.res0 := (rfl)
@[simp] theorem respond_res1 (r : Response) (s : State) : (respond r s).res1 = s.res1 := (rfl)
@[simp] theorem respond_res2 (r : Response) (s : State) : (respond r s).res2 = s.res2 := (rfl)
@[simp] theorem respond_res3 (r : Response) (s : State) : (respond r s).res3 = s.res3 := (rfl)
@[simp] theorem respond_cbits (r : Response) (s : State) : (respond r s).cbits = s.cbits := (rfl)
@[simp] theorem respond_ft (r : Response) (s : State) : (respond r s).ft = s.ft := (rfl)
@[simp] theorem respond_tree (r : Response) (s : State) : (respond r s).tree = s.tree := (rfl)
@[simp] theorem respond_ct (r : Response) (s : State) : (respond r s).ct = s.ct := (rfl)
@[simp] theorem respond_enc (r : Response) (s : State) : (respond r s).enc = s.enc := (rfl)
@[simp] theorem respond_dec (r : Response) (s : State) : (respond r s).dec = s.dec := (rfl)
@[simp] theorem respond_host (r : Response) (s : State) : (respond r s).host = { s.host with responses := r :: s.host.responses } := (rfl)

/-! ### `blockReset` -/

@[simp] theorem blockReset_fifoDepth (s : State) : (blockReset s).fifoDepth = s.fifoDepth := (rfl)
@[simp] theorem blockReset_busyLeft (s : State) : (blockReset s).busyLeft = State.reset.busyLeft := (rfl)
@[simp] theorem blockReset_latch (s : State) : (blockReset s).latch = State.reset.latch := (rfl)
@[simp] theorem blockReset_arg0 (s : State) : (blockReset s).arg0 = State.reset.arg0 := (rfl)
@[simp] theorem blockReset_res0 (s : State) : (blockReset s).res0 = State.reset.res0 := (rfl)
@[simp] theorem blockReset_res1 (s : State) : (blockReset s).res1 = State.reset.res1 := (rfl)
@[simp] theorem blockReset_res2 (s : State) : (blockReset s).res2 = State.reset.res2 := (rfl)
@[simp] theorem blockReset_res3 (s : State) : (blockReset s).res3 = State.reset.res3 := (rfl)
@[simp] theorem blockReset_cbits (s : State) : (blockReset s).cbits = State.reset.cbits := (rfl)
@[simp] theorem blockReset_ft (s : State) : (blockReset s).ft = State.reset.ft := (rfl)
@[simp] theorem blockReset_tree (s : State) : (blockReset s).tree = State.reset.tree := (rfl)
@[simp] theorem blockReset_ct (s : State) : (blockReset s).ct = State.reset.ct := (rfl)
@[simp] theorem blockReset_enc (s : State) : (blockReset s).enc = State.reset.enc := (rfl)
@[simp] theorem blockReset_dec (s : State) : (blockReset s).dec = State.reset.dec := (rfl)
@[simp] theorem blockReset_host (s : State) : (blockReset s).host = s.host := (rfl)

/-! ### `State.setPending` -/

@[simp] theorem setPending_fifoDepth (as : List HostAction) (s : State) : (State.setPending as s).fifoDepth = s.fifoDepth := (rfl)
@[simp] theorem setPending_busyLeft (as : List HostAction) (s : State) : (State.setPending as s).busyLeft = s.busyLeft := (rfl)
@[simp] theorem setPending_latch (as : List HostAction) (s : State) : (State.setPending as s).latch = s.latch := (rfl)
@[simp] theorem setPending_arg0 (as : List HostAction) (s : State) : (State.setPending as s).arg0 = s.arg0 := (rfl)
@[simp] theorem setPending_res0 (as : List HostAction) (s : State) : (State.setPending as s).res0 = s.res0 := (rfl)
@[simp] theorem setPending_res1 (as : List HostAction) (s : State) : (State.setPending as s).res1 = s.res1 := (rfl)
@[simp] theorem setPending_res2 (as : List HostAction) (s : State) : (State.setPending as s).res2 = s.res2 := (rfl)
@[simp] theorem setPending_res3 (as : List HostAction) (s : State) : (State.setPending as s).res3 = s.res3 := (rfl)
@[simp] theorem setPending_cbits (as : List HostAction) (s : State) : (State.setPending as s).cbits = s.cbits := (rfl)
@[simp] theorem setPending_ft (as : List HostAction) (s : State) : (State.setPending as s).ft = s.ft := (rfl)
@[simp] theorem setPending_tree (as : List HostAction) (s : State) : (State.setPending as s).tree = s.tree := (rfl)
@[simp] theorem setPending_ct (as : List HostAction) (s : State) : (State.setPending as s).ct = s.ct := (rfl)
@[simp] theorem setPending_enc (as : List HostAction) (s : State) : (State.setPending as s).enc = s.enc := (rfl)
@[simp] theorem setPending_dec (as : List HostAction) (s : State) : (State.setPending as s).dec = s.dec := (rfl)
@[simp] theorem setPending_host (as : List HostAction) (s : State) : (State.setPending as s).host = { s.host with pending := as } := (rfl)

/-! ### Outcomes -/

@[simp] theorem onNext_next (f : State → State) (s : State) : onNext f (.next s) = .next (f s) := (rfl)

theorem onNext_eq_next {f : State → State} {o : Host.Outcome State Fault Refusal} {t : State} :
    onNext f o = .next t ↔ ∃ u, o = .next u ∧ f u = t := by
  cases o <;> simp [onNext]

@[simp] theorem fault_eq (c : Cause) (i : Word) (s : State) : fault c i s = .next (raise c i s) := (rfl)

@[simp] theorem setPending_busy (as : List HostAction) (s : State) : (s.setPending as).busy = s.busy := (rfl)

@[simp] theorem respond_busy (r : Response) (s : State) : (respond r s).busy = s.busy := (rfl)

theorem busy_eq_false {s : State} : s.busy = false ↔ s.busyLeft = 0 := by simp [State.busy]

theorem busy_eq_true {s : State} : s.busy = true ↔ s.busyLeft ≠ 0 := by simp [State.busy]

end Sys2Proof.Machine
end

