-- ==== Sys2Proof/Laws/Codec.lean ====
section
/-! SUPPORT. What one PutBit (R181) and one DecodeBit (R201) do, in terms of the bitstream and of the document's buffer. -/

namespace Sys2Proof.Machine

/-- The pending bits of an encoder are clean: every accumulator bit below them is 0 (R46). -/
def Encoder.Clean (e : Encoder) : Prop := e.fill ≤ 31 ∧ ∀ j, j < 32 - e.fill → e.acc.getLsbD j = false

theorem packedBits_congr {v w : Word} {n : Nat} (h : ∀ k, k < n → v.getLsbD (31 - k) = w.getLsbD (31 - k)) :
    packedBits v n = packedBits w n := by
  simp only [packedBits]
  exact List.map_congr_left fun k hk => h k (List.mem_range.mp hk)

/-- The accumulator with the next bit put into it holds the pending bits and that bit. -/
theorem packedBits_setBit (w : Word) (n : Nat) (b : Bool) (h : n ≤ 31) :
    packedBits (setBit w (31 - n) b) (n + 1) = packedBits w n ++ [b] := by
  rw [packedBits_succ, getLsbD_setBit _ _ _ _ (by omega), if_pos rfl]
  congr 1
  refine packedBits_congr fun k hk => ?_
  rw [getLsbD_setBit _ _ _ _ (by omega), if_neg (by omega)]

theorem wordBits_append (q : List Word) (w : Word) : wordBits (q ++ [w]) = wordBits q ++ packedBits w 32 := by
  simp [wordBits]

/-- PutBit appends one bit to the bitstream and keeps the accumulator clean (R181). -/
theorem putBit_effect {e : Encoder} (h : e.Clean) (b : Bool) :
    (putBit e b).stream = e.stream ++ [b] ∧ (putBit e b).Clean ∧ (putBit e b).isOpen = e.isOpen ∧
      (putBit e b).fill = (e.fill + 1) % 32 ∧ (putBit e b).nbits = e.nbits + 1 ∧ e.q <+: (putBit e b).q ∧
      (putBit e b).q.length = e.q.length + (e.fill + 1) / 32 := by
  obtain ⟨hf, hc⟩ := h
  by_cases hlast : e.fill + 1 = 32
  · have hfill : e.fill = 31 := by omega
    have hp : putBit e b =
        { e with acc := 0#32, fill := 0, nbits := e.nbits + 1, q := e.q ++ [setBit e.acc (31 - e.fill) b] } := by
      simp [putBit, hlast]
    rw [hp]
    refine ⟨?_, ⟨by simp, by simp⟩, rfl, by simp [hfill], rfl, List.prefix_append _ _, by simp [hfill]⟩
    have := packedBits_setBit e.acc e.fill b hf
    rw [hlast] at this
    simp only [Encoder.stream, wordBits_append, this]
    simp [packedBits]
  · have hp : putBit e b =
        { e with acc := setBit e.acc (31 - e.fill) b, fill := e.fill + 1, nbits := e.nbits + 1 } := by
      simp [putBit, hlast]
    rw [hp]
    refine ⟨?_, ⟨by simp; omega, ?_⟩, rfl, ?_, rfl, List.prefix_rfl, ?_⟩
    · simp only [Encoder.stream, packedBits_setBit e.acc e.fill b hf]
      simp
    · intro j hj
      simp only at hj ⊢
      rw [getLsbD_setBit _ _ _ _ (by omega), if_neg (by omega)]
      exact hc j (by omega)
    · simp only; omega
    · simp only; omega

/-- The candidate buffer after one more bit, while it is not full (R201). -/
theorem accumulate_candidate {d : Decoder} (b : Bool) (h : d.len < 255) :
    (d.accumulate b).candidate = d.candidate ++ [b] := by
  have hm : d.len < Config.maxCodeLen := h
  simp only [Decoder.candidate, Decoder.accumulate, if_pos hm, bitsOf_succ]
  rw [getLsbD_setBit _ _ _ _ h, if_pos rfl]
  congr 1
  refine bitsOf_congr fun k hk => ?_
  rw [getLsbD_setBit _ _ _ _ (by omega), if_neg (by omega)]

/-- An emptied buffer stands for the document's empty buffer. -/
theorem Decoder.emit_follows (d : Decoder) (sym : Byte) : (d.emit sym).Follows [] := by
  simp [Decoder.Follows, Decoder.emit, Decoder.candidate, bitsOf]

/-- DecodeBit does what the document's loop does on one bit: it emits on an exact match of the whole buffer and otherwise keeps
accumulating (R201, R206). -/
theorem decodeBit_follows {t : CodeTable} {d : Decoder} {buf : Bits} (h : d.Follows buf) (b : Bool) :
    (∀ i, t.matchCode (buf ++ [b]) = some i →
      decodeBit t d b = (d.accumulate b).emit (t.entry i).sym) ∧
    (t.matchCode (buf ++ [b]) = none →
      (decodeBit t d b).Follows (buf ++ [b]) ∧ (decodeBit t d b).q = d.q ∧ (decodeBit t d b).nsym = d.nsym ∧
        (decodeBit t d b).isOpen = d.isOpen) := by
  obtain ⟨hlen, hcand⟩ := h
  simp only [Config.dlenDead, Config.maxCodeLen] at hlen hcand
  by_cases hshort : buf.length < 255
  · have hl : d.len = buf.length := by omega
    have hacc : (d.accumulate b).candidate = buf ++ [b] := by
      rw [accumulate_candidate b (by omega), hcand (by omega)]
    have hnd : d.dead = false := by simp [Decoder.dead, Config.dlenDead]; omega
    have hle : (d.accumulate b).len ≤ Config.maxCodeLen := by simp [Decoder.accumulate, Config.maxCodeLen]; omega
    refine ⟨fun i hi => ?_, fun hn => ?_⟩
    · simp [decodeBit, hnd, hle, hacc, hi]
    · have : decodeBit t d b = d.accumulate b := by simp [decodeBit, hnd, hle, hacc, hn]
      rw [this]
      refine ⟨⟨?_, fun _ => hacc⟩, rfl, rfl, rfl⟩
      simp [Decoder.accumulate, Config.dlenDead]; omega
  · have hmis : t.matchCode (buf ++ [b]) = none := t.matchCode_long (by simp; omega)
    refine ⟨fun i hi => (by rw [hmis] at hi; cases hi), fun _ => ?_⟩
    by_cases hdead : d.len = 256
    · have : decodeBit t d b = d := by simp [decodeBit, Decoder.dead, Config.dlenDead, hdead]
      rw [this]
      refine ⟨⟨?_, fun hc => ?_⟩, rfl, rfl, rfl⟩
      · simp [Config.dlenDead]; omega
      · simp [Config.maxCodeLen] at hc; omega
    · have hnd : d.dead = false := by simp [Decoder.dead, Config.dlenDead, hdead]
      have hgt : ¬ (d.accumulate b).len ≤ Config.maxCodeLen := by simp [Decoder.accumulate, Config.maxCodeLen]; omega
      have : decodeBit t d b = d.accumulate b := by simp [decodeBit, hnd, hgt]
      rw [this]
      refine ⟨⟨?_, fun hc => ?_⟩, rfl, rfl, rfl⟩
      · simp [Decoder.accumulate, Config.dlenDead]; omega
      · simp [Config.maxCodeLen] at hc; omega

/-- Only a push lengthens the queue, so Pushes counts the words appended (R201). -/
theorem decodeBit_queue (t : CodeTable) (d : Decoder) (b : Bool) : d.q <+: (decodeBit t d b).q := by
  simp only [decodeBit]
  split
  · exact List.prefix_rfl
  · split
    · split
      · exact List.prefix_append _ _
      · exact List.prefix_rfl
    · exact List.prefix_rfl

end Sys2Proof.Machine
end

