-- ==== Sys2Proof/Laws/Memory.lean ====
section
/-! SUPPORT. The laws of the internal memories: a read after a write, and that every operation keeps the canonical
form. -/

namespace Sys2Proof.Machine

variable {α : Type} [DecidableEq α] {blank : α}

omit [DecidableEq α] in
@[simp] theorem Memory.read_nil (a : Nat) : Memory.read blank ([] : Memory α) a = blank := rfl

omit [DecidableEq α] in
theorem Memory.read_of_unlisted {m : Memory α} {a : Nat} (h : ∀ c ∈ m, c.1 ≠ a) : Memory.read blank m a = blank := by
  induction m with
  | nil => rfl
  | cons c rest ih =>
    obtain ⟨slot, e⟩ := c
    have hne : a ≠ slot := fun he => h (slot, e) (by simp) he.symm
    simp only [Memory.read, if_neg hne]
    exact ih fun d hd => h d (by simp [hd])

omit [DecidableEq α] in
theorem Memory.read_insert_same {m : Memory α} {a : Nat} {e : α} (h : ∀ c ∈ m, c.1 ≠ a) :
    Memory.read blank (Memory.insert a e m) a = e := by
  induction m with
  | nil => simp [Memory.insert, Memory.read]
  | cons c rest ih =>
    obtain ⟨slot, v⟩ := c
    have hne : a ≠ slot := fun he => h (slot, v) (by simp) he.symm
    have ih := ih fun d hd => h d (by simp [hd])
    simp only [Memory.insert]
    split <;> simp [Memory.read, hne, ih]

omit [DecidableEq α] in
theorem Memory.read_insert_other {m : Memory α} {a b : Nat} {e : α} (h : b ≠ a) :
    Memory.read blank (Memory.insert a e m) b = Memory.read blank m b := by
  induction m with
  | nil => simp [Memory.insert, Memory.read, h]
  | cons c rest ih =>
    obtain ⟨slot, v⟩ := c
    simp only [Memory.insert]
    split <;> simp [Memory.read, h, ih]

omit [DecidableEq α] in
theorem Memory.read_filter_other {m : Memory α} {a b : Nat} (h : b ≠ a) :
    Memory.read blank (m.filter (fun c => c.1 != a)) b = Memory.read blank m b := by
  induction m with
  | nil => rfl
  | cons c rest ih =>
    obtain ⟨slot, v⟩ := c
    by_cases hs : slot = a
    · have hb : b ≠ slot := hs ▸ h
      simp [hs, Memory.read, ih, h]
    · simp [hs, Memory.read, ih]

/-- A read at the slot just written gives the entry written. -/
@[simp] theorem Memory.read_write_same (m : Memory α) (a : Nat) (e : α) :
    Memory.read blank (Memory.write blank m a e) a = e := by
  have hgone : ∀ c ∈ m.filter (fun c => c.1 != a), c.1 ≠ a := by simp
  simp only [Memory.write]
  split
  · next he => rw [he]; exact Memory.read_of_unlisted hgone
  · exact Memory.read_insert_same hgone

/-- A write leaves every other slot alone. -/
theorem Memory.read_write_other (m : Memory α) {a b : Nat} (e : α) (h : b ≠ a) :
    Memory.read blank (Memory.write blank m a e) b = Memory.read blank m b := by
  simp only [Memory.write]
  split
  · exact Memory.read_filter_other h
  · rw [Memory.read_insert_other h, Memory.read_filter_other h]

/-- What any slot reads as after a write. -/
theorem Memory.read_write (m : Memory α) (a b : Nat) (e : α) :
    Memory.read blank (Memory.write blank m a e) b = if b = a then e else Memory.read blank m b := by
  by_cases h : b = a
  · simp [h]
  · simp [h, Memory.read_write_other m e h]

theorem Memory.wf_cons {c : Nat × α} {rest : Memory α} :
    Memory.wf blank (c :: rest) = true ↔ (∀ d ∈ rest, c.1 < d.1) ∧ c.2 ≠ blank ∧ Memory.wf blank rest = true := by
  simp [Memory.wf, and_assoc]

@[simp] theorem Memory.wf_nil : Memory.wf blank ([] : Memory α) = true := rfl

theorem Memory.filter_wf {m : Memory α} (h : Memory.wf blank m = true) (p : Nat × α → Bool) :
    Memory.wf blank (m.filter p) = true := by
  induction m with
  | nil => rfl
  | cons c rest ih =>
    obtain ⟨hlt, hne, hrest⟩ := Memory.wf_cons.mp h
    rw [List.filter_cons]
    split
    · exact Memory.wf_cons.mpr ⟨fun d hd => hlt d (List.mem_of_mem_filter hd), hne, ih hrest⟩
    · exact ih hrest

omit [DecidableEq α] in
theorem Memory.mem_insert {m : Memory α} {a : Nat} {e : α} {c : Nat × α} (h : c ∈ Memory.insert a e m) :
    c = (a, e) ∨ c ∈ m := by
  induction m with
  | nil => simpa [Memory.insert] using h
  | cons d rest ih =>
    simp only [Memory.insert] at h
    split at h
    · simpa using h
    · rcases List.mem_cons.mp h with h | h
      · exact .inr (by simp [h])
      · exact (ih h).imp id fun h => List.mem_cons_of_mem _ h

theorem Memory.insert_wf {m : Memory α} {a : Nat} {e : α} (h : Memory.wf blank m = true) (hne : e ≠ blank)
    (hgone : ∀ c ∈ m, c.1 ≠ a) : Memory.wf blank (Memory.insert a e m) = true := by
  induction m with
  | nil => simp [Memory.insert, Memory.wf, hne]
  | cons d rest ih =>
    obtain ⟨hlt, hd, hrest⟩ := Memory.wf_cons.mp h
    simp only [Memory.insert]
    split
    · next ha =>
      refine Memory.wf_cons.mpr ⟨fun c hc => ?_, hne, h⟩
      rcases List.mem_cons.mp hc with hc | hc
      · exact hc ▸ ha
      · exact Nat.lt_trans ha (hlt c hc)
    · next ha =>
      have hda : d.1 < a := by
        have := hgone d (by simp)
        omega
      refine Memory.wf_cons.mpr ⟨fun c hc => ?_, hd, ih hrest fun c hc => hgone c (by simp [hc])⟩
      rcases Memory.mem_insert hc with hc | hc
      · simpa [hc] using hda
      · exact hlt c hc

/-- A write keeps the canonical form. -/
theorem Memory.write_wf {m : Memory α} (h : Memory.wf blank m = true) (a : Nat) (e : α) :
    Memory.wf blank (Memory.write blank m a e) = true := by
  simp only [Memory.write]
  split
  · exact Memory.filter_wf h _
  · next hne => exact Memory.insert_wf (Memory.filter_wf h _) hne (by simp)

/-! ### The three memories -/

theorem FreqTable.entry_setEntry (t : FreqTable) (i j : Nat) (e : FtEntry) :
    (t.setEntry i e).entry j = if j = i then e else t.entry j :=
  Memory.read_write t.mem i j e

@[simp] theorem FreqTable.setEntry_n (t : FreqTable) (i : Nat) (e : FtEntry) : (t.setEntry i e).n = t.n := rfl

theorem FreqTable.setEntry_wf {t : FreqTable} (h : t.mem.wf FtEntry.zero = true) (i : Nat) (e : FtEntry) :
    (t.setEntry i e).mem.wf FtEntry.zero = true :=
  Memory.write_wf h i e

theorem nodeAt_setNode (m : Memory Node) (k j : Nat) (nd : Node) :
    nodeAt (setNode m k nd) j = if j = k then nd else nodeAt m j :=
  Memory.read_write m k j nd

theorem setNode_wf {m : Memory Node} (h : m.wf Node.zero = true) (k : Nat) (nd : Node) :
    (setNode m k nd).wf Node.zero = true :=
  Memory.write_wf h k nd

theorem CodeTable.entry_setEntry (t : CodeTable) (i j : Nat) (e : CtEntry) :
    (t.setEntry i e).entry j = if j = i then e else t.entry j :=
  Memory.read_write t.mem i j e

@[simp] theorem CodeTable.setEntry_n (t : CodeTable) (i : Nat) (e : CtEntry) : (t.setEntry i e).n = t.n := rfl

theorem setCode_wf {m : Memory CtEntry} (h : m.wf CtEntry.zero = true) (i : Nat) (e : CtEntry) :
    (setCode m i e).wf CtEntry.zero = true :=
  Memory.write_wf h i e

/-- The memories after reset have the canonical form. -/
theorem reset_memories_wf : State.reset.ft.mem.wf FtEntry.zero = true ∧ State.reset.tree.mem.wf Node.zero = true ∧
    State.reset.ct.mem.wf CtEntry.zero = true := ⟨rfl, rfl, rfl⟩

end Sys2Proof.Machine
end

