-- ==== Sys2Proof/Laws/Merge.lean ====
section
/-! SUPPORT. What one turn of BUILD's merge loop does (R130, R131). -/

namespace Sys2Proof.Machine

theorem keyBelow_iff (m : Memory Node) (j k : Nat) : keyBelow m j k = true ↔ KeyLess m j k := by
  simp [keyBelow, KeyLess, BitVec.lt_def, BitVec.toNat_eq]

theorem KeyLess.trans {m : Memory Node} {i j k : Nat} (h : KeyLess m i j) (h' : KeyLess m j k) : KeyLess m i k := by
  simp only [KeyLess] at *; omega

theorem keyLess_total (m : Memory Node) {j k : Nat} (h : j ≠ k) : KeyLess m j k ∨ KeyLess m k j := by
  simp only [KeyLess]; omega

theorem argmin_eq_none {m : Memory Node} {l : List Nat} : argmin m l = none ↔ l = [] := by
  cases l with
  | nil => simp [argmin]
  | cons j rest =>
    simp only [argmin]
    split
    · simp
    · split <;> simp

/-- The node found is in the list, and its key is below every other key of the list. -/
theorem argmin_some {m : Memory Node} {l : List Nat} {a : Nat} (h : argmin m l = some a) :
    a ∈ l ∧ ∀ j ∈ l, j ≠ a → KeyLess m a j := by
  induction l generalizing a with
  | nil => simp [argmin] at h
  | cons j rest ih =>
    simp only [argmin] at h
    split at h
    · next hn =>
      have hr := argmin_eq_none.mp hn
      obtain rfl : j = a := by simpa using h
      simp [hr]
    · next k hk =>
      obtain ⟨hmem, hleast⟩ := ih hk
      by_cases hb : keyBelow m k j = true
      · obtain rfl : k = a := by simpa [hb] using h
        refine ⟨by simp [hmem], fun i hi hne => ?_⟩
        rcases List.mem_cons.mp hi with rfl | hi
        · exact (keyBelow_iff m k i).mp hb
        · exact hleast i hi hne
      · obtain rfl : j = a := by simpa [hb] using h
        refine ⟨by simp, fun i hi hne => ?_⟩
        rcases List.mem_cons.mp hi with rfl | hi
        · exact absurd rfl hne
        · by_cases hik : i = k
          · subst hik
            rcases keyLess_total m (Ne.symm hne) with h | h
            · exact h
            · exact absurd ((keyBelow_iff m i j).mpr h) hb
          · have hki := hleast i hi hik
            by_cases hkj : k = j
            · exact hkj ▸ hki
            · rcases keyLess_total m (Ne.symm hkj) with h | h
              · exact h.trans hki
              · exact absurd ((keyBelow_iff m k j).mpr h) hb

/-- One turn removes the two least live nodes and adds the node that joins them, the least one left (R130, R132). -/
theorem mergeStep_some {g g' : MergeState} (h : mergeStep g = some g') :
    ∃ a b, a ∈ g.live ∧ b ∈ g.live.erase a ∧ (∀ j ∈ g.live, j ≠ a → KeyLess g.mem a j) ∧
      (∀ j ∈ g.live.erase a, j ≠ b → KeyLess g.mem b j) ∧
      g' = { mem := setNode g.mem g.next (.internal ((nodeAt g.mem a).weight + (nodeAt g.mem b).weight) a b)
             live := g.next :: (g.live.erase a).erase b
             next := g.next + 1 } := by
  simp only [mergeStep] at h
  split at h
  · cases h
  · next a ha =>
    split at h
    · cases h
    · next b hb =>
      obtain ⟨h1, h2⟩ := argmin_some ha
      obtain ⟨h3, h4⟩ := argmin_some hb
      exact ⟨a, b, h1, h3, h2, h4, by simpa using h.symm⟩

/-- The loop ends exactly when fewer than two nodes are live (R130). -/
theorem mergeStep_none {g : MergeState} : mergeStep g = none ↔ g.live.length < 2 := by
  simp only [mergeStep]
  split
  · next h => simp [argmin_eq_none.mp h]
  · next a ha =>
    have hm := (argmin_some ha).1
    have hl : (g.live.erase a).length = g.live.length - 1 := List.length_erase_of_mem hm
    have hpos : 0 < g.live.length := List.length_pos_of_mem hm
    split
    · next h =>
      have := argmin_eq_none.mp h
      rw [this] at hl
      simp at hl ⊢; omega
    · next b hb =>
      have := List.length_pos_of_mem (argmin_some hb).1
      simp; omega

/-- The seeded leaves: node `i` below FT_N is the leaf of slot `i`, every other node stays (R116, R130). -/
theorem nodeAt_seedLeaves (t : FreqTable) (m : Memory Node) (k : Nat) :
    nodeAt (seedLeaves t m) k =
      if k < t.n then .leaf ((t.entry k).count.setWidth 40) (t.entry k).sym else nodeAt m k := by
  have key : ∀ n, nodeAt ((List.range n).foldl
      (fun acc i => setNode acc i (.leaf ((t.entry i).count.setWidth 40) (t.entry i).sym)) m) k =
        if k < n then .leaf ((t.entry k).count.setWidth 40) (t.entry k).sym else nodeAt m k := by
    intro n
    induction n with
    | zero => simp
    | succ n ih =>
      rw [List.range_succ, List.foldl_append, List.foldl_cons, List.foldl_nil, nodeAt_setNode, ih]
      rcases Nat.lt_trichotomy k n with h | h | h
      · rw [if_neg (by omega), if_pos h, if_pos (by omega)]
      · subst h; simp
      · rw [if_neg (by omega), if_neg (by omega), if_neg (by omega)]
  exact key t.n

/-- Seeding keeps the canonical form. -/
theorem seedLeaves_wf (t : FreqTable) {m : Memory Node} (h : m.wf Node.zero = true) :
    (seedLeaves t m).wf Node.zero = true := by
  have key : ∀ l : List Nat, ∀ m : Memory Node, m.wf Node.zero = true → Memory.wf Node.zero (l.foldl
      (fun acc i => setNode acc i (.leaf ((t.entry i).count.setWidth 40) (t.entry i).sym)) m) = true := by
    intro l
    induction l with
    | nil => exact fun m h => h
    | cons i rest ih => exact fun m h => ih _ (setNode_wf h i _)
  exact key _ m h

/-- The merge keeps the canonical form. -/
theorem mergeLoop_wf (turns : Nat) {g : MergeState} (h : g.mem.wf Node.zero = true) :
    (mergeLoop turns g).mem.wf Node.zero = true := by
  induction turns generalizing g with
  | zero => exact h
  | succ n ih =>
    simp only [mergeLoop]
    split
    · exact h
    · next g' hg =>
      obtain ⟨a, b, -, -, -, -, rfl⟩ := mergeStep_some hg
      refine ih ?_
      exact setNode_wf h g.next (.internal ((nodeAt g.mem a).weight + (nodeAt g.mem b).weight) a b)

/-- The walk of GEN_CODES keeps the canonical form. -/
theorem walk_wf (nodes : Memory Node) (depth k : Nat) (p : Bits) {codes : Memory CtEntry}
    (h : codes.wf CtEntry.zero = true) : (walk nodes depth k p codes).wf CtEntry.zero = true := by
  induction depth generalizing k p codes with
  | zero => exact h
  | succ n ih =>
    simp only [walk]
    split
    · exact setCode_wf h _ _
    · exact ih _ _ (ih _ _ h)

end Sys2Proof.Machine
end

