-- ==== Sys2Proof/Laws/PerInstr.lean ====
section
/-! SUPPORT. Per command: the word's opcode byte and operand field are those of R80, one lemma for each constructor. -/

namespace Sys2Proof.Laws.Fields

/-- The word of a command shows its opcode in bits 31:24 and its operand field in bits 23:0 (R80). -/
def Statement (i : Instr) : Prop :=
  (encode i).extractLsb' 24 8 = i.opcode ∧ (encode i).extractLsb' 0 24 = i.operandField

theorem of_append (op : Byte) (field : BitVec 24) :
    (op ++ field : Word).extractLsb' 24 8 = op ∧ (op ++ field : Word).extractLsb' 0 24 = field := by
  refine ⟨BitVec.eq_of_getLsbD_eq fun i hi => ?_, BitVec.eq_of_getLsbD_eq fun i hi => ?_⟩
  · rw [BitVec.getLsbD_extractLsb', BitVec.getLsbD_append]
    simp [hi]
  · rw [BitVec.getLsbD_extractLsb', BitVec.getLsbD_append]
    simp [hi]

theorem nop : Statement .nop := of_append _ _
theorem freqClear : Statement .freqClear := of_append _ _
theorem freqCount (sym : Byte) : Statement (.freqCount sym) := of_append _ _
theorem freqLoad (sym : Byte) : Statement (.freqLoad sym) := of_append _ _
theorem freqRead (slot : Byte) : Statement (.freqRead slot) := of_append _ _
theorem build : Statement .build := of_append _ _
theorem nodeRead (idx : BitVec 9) : Statement (.nodeRead idx) := of_append _ _
theorem genCodes : Statement .genCodes := of_append _ _
theorem codeRead (slot : Byte) : Statement (.codeRead slot) := of_append _ _
theorem codeClear : Statement .codeClear := of_append _ _
theorem codeLoad (sym len : Byte) : Statement (.codeLoad sym len) := of_append _ _
theorem encStart : Statement .encStart := of_append _ _
theorem encSym (sym : Byte) : Statement (.encSym sym) := of_append _ _
theorem encFlush : Statement .encFlush := of_append _ _
theorem decStart : Statement .decStart := of_append _ _
theorem decWord (n : BitVec 6) : Statement (.decWord n) := of_append _ _
theorem decChar (c : Byte) : Statement (.decChar c) := of_append _ _
theorem decEnd : Statement .decEnd := of_append _ _
theorem errClear : Statement .errClear := of_append _ _
theorem softReset : Statement .softReset := of_append _ _

end Sys2Proof.Laws.Fields
end

