-- ==== Sys2Proof/Laws/Session.lean ====
section
/-! SUPPORT. What a session that no fault ends can do: the inversions of ENC_SYM and of the runs in which the statements
about whole sessions are made (R182, R185, R202, R208). -/

namespace Sys2Proof.Machine

/-- An ENC_SYM that leaves no fault has found the symbol in an open session and appended its code (R182). -/
theorem execEncSym_no_fault {c : Byte} {s t : State} (h : execEncSym c s = .next t) (ht : t.latch.err = false) :
    s.enc.isOpen = true ∧ ∃ i, s.ct.find c = some i ∧
      (s.enc.fill + (s.ct.entry i).len.toNat) / 32 ≤ s.free s.enc.q ∧
      t = { s with enc := putBits s.enc (s.ct.entry i).code } := by
  unfold execEncSym fault at h
  split at h
  · cases h; cases ht
  · rename_i hopen
    split at h
    · cases h; cases ht
    · rename_i i hi
      simp only at h
      split at h
      · cases h; cases ht
      · cases h
        exact ⟨by simpa using hopen, i, hi, by omega, rfl⟩

theorem runEncode_nil (s : State) : runEncode [] s = some ([], s) := rfl

/-- A symbol in a run without a fault. -/
theorem runEncode_sym {c : Byte} {rest : List EncodeUse} {s : State} {r : List Word × State}
    (h : runEncode (.sym c :: rest) s = some r) :
    ∃ t, exec (.encSym c) s = .next t ∧ t.latch.err = false ∧ runEncode rest t = some r := by
  rw [runEncode] at h
  split at h
  · rename_i t ht
    cases e : t.latch.err
    · exact ⟨t, ht, e, by simpa [e] using h⟩
    · simp [e] at h
  · cases h
  · cases h

/-- A read of ENC_OUT in a run. -/
theorem runEncode_take {rest : List EncodeUse} {s : State} {ws : List Word} {t : State}
    (h : runEncode (.take :: rest) s = some (ws, t)) :
    ∃ ws', runEncode rest { s with enc := { s.enc with q := s.enc.q.tail } } = some (ws', t) ∧ ws = s.enc.q.take 1 ++ ws' := by
  rw [runEncode, Option.map_eq_some_iff] at h
  obtain ⟨⟨ws', t'⟩, h, e⟩ := h
  cases e
  exact ⟨ws', h, rfl⟩

/-- A word that is fed without a fault, and the reads of DEC_Q after it. -/
theorem feedWords_cons {n : Nat} {w : Word} {rest ds : List Word} {s t u : State}
    (h : exec (.decWord (BitVec.ofNat 6 (min n 32))) { s with arg0 := w } = .next t) (ht : t.latch.err = false)
    (hr : feedWords (n - 32) rest { t with dec := { t.dec with q := [] } } = some (ds, u)) :
    feedWords n (w :: rest) s = some (t.dec.q ++ ds, u) := by
  simp [feedWords, h, ht, hr]

@[simp] theorem symbolsOf_nil : symbolsOf [] = [] := rfl

@[simp] theorem symbolsOf_sym (c : Byte) (rest : List EncodeUse) : symbolsOf (.sym c :: rest) = c :: symbolsOf rest := rfl

@[simp] theorem symbolsOf_take (rest : List EncodeUse) : symbolsOf (.take :: rest) = symbolsOf rest := rfl

end Sys2Proof.Machine
end

