-- ==== Sys2Proof/Laws/Step.lean ====
section
/-! SUPPORT. Said once: what a bus access can do, and what a step can do. -/

namespace Sys2Proof.Machine

/-- A command is accepted and run: the conditions of R243 and the outcome of `exec`. -/
def Accepts (w : Word) (s t : State) : Prop :=
  s.busy = false ∧ (s.latch.err = false ∨ acceptedInError w = true) ∧
    ((∃ i u, decode w = .legal i ∧ exec i (respond .written s) = .next u ∧ t = startBusy u) ∨
      ∃ why, decode w = .illegal why ∧ t = startBusy (raise .illegalCommand w (respond .written s)))

/-- The effects of an access other than an accepted command: the host's side and the count of BUSY apart, a stored operand, a
popped queue or BUSY_OVERRUN. -/
inductive Quiet (s : State) : State → Prop where
  | same (b : Nat) (h : HostSide) : h.pending = s.host.pending → Quiet s { s with busyLeft := b, host := h }
  | arg0 (v : Word) (h : HostSide) : h.pending = s.host.pending → Quiet s { s with arg0 := v, host := h }
  | cbits (c : Vector Word 8) (h : HostSide) : h.pending = s.host.pending → Quiet s { s with cbits := c, host := h }
  | encPop (h : HostSide) : h.pending = s.host.pending →
      Quiet s { s with enc := { s.enc with q := s.enc.q.tail }, host := h }
  | decPop (h : HostSide) : h.pending = s.host.pending →
      Quiet s { s with dec := { s.dec with q := s.dec.q.tail }, host := h }
  | overrun (off : BitVec 8) (b : Nat) (h : HostSide) : h.pending = s.host.pending → s.latch.err = false →
      Quiet s { s with latch := ⟨true, .busyOverrun, off.setWidth 32⟩, busyLeft := b, host := h }

/-- A read with BUSY = 0 pops a queue or changes nothing but the host's side. -/
theorem quiet_read (s : State) (r : Reg) (x : Word) : Quiet s (respond (.read x) (readEffect s r)) := by
  cases r
  case encOut => exact .encPop _ rfl
  case decOut => exact .decPop _ rfl
  all_goals exact .same s.busyLeft _ rfl

/-- An access while BUSY = 1 is quiet. -/
theorem quiet_busyAccess (t : Request) (s : State) : Quiet s (busyAccess t s) := by
  simp only [busyAccess]
  split
  · simp only [busyWrite]
    split
    · split
      · simp only [overrun]
        split
        · exact .same (s.busyLeft - 1) _ rfl
        · next h => exact .overrun t.off (s.busyLeft - 1) _ rfl (by simpa using h)
      · exact .same (s.busyLeft - 1) _ rfl
    · exact .same (s.busyLeft - 1) _ rfl
  · simp only [busyReadAccess]
    split <;> exact .same (s.busyLeft - 1) _ rfl

/-- Everything an accepted or dropped CMD write can do with BUSY = 0. -/
theorem acceptCommand_cases {w : Word} {s t : State} (hb : s.busy = false)
    (h : acceptCommand w (respond .written s) = .next t) : Quiet s t ∨ Accepts w s t := by
  simp only [acceptCommand, respond_latch] at h
  by_cases hd : (s.latch.err && !acceptedInError w) = true
  · rw [if_pos hd] at h
    cases h
    exact .inl (.same s.busyLeft _ rfl)
  · rw [if_neg hd] at h
    have hcond : s.latch.err = false ∨ acceptedInError w = true := by
      cases he : s.latch.err
      · exact .inl rfl
      · exact .inr (by simpa [he] using hd)
    cases hi : decode w with
    | legal i =>
      rw [hi] at h
      obtain ⟨u, hu, rfl⟩ := onNext_eq_next.mp h
      exact .inr ⟨hb, hcond, .inl ⟨i, u, hi, hu, rfl⟩⟩
    | illegal why =>
      rw [hi] at h
      obtain ⟨u, hu, rfl⟩ := onNext_eq_next.mp h
      cases hu
      exact .inr ⟨hb, hcond, .inr ⟨why, hi, rfl⟩⟩

/-- Everything a bus access can do: a quiet effect, or an accepted command, which is a legal write to CMD. -/
theorem busAccess_cases {r : Request} {s t : State} (h : busAccess r s = .next t) :
    Quiet s t ∨ (r = ⟨true, 0x08#8, .word, r.wdata⟩ ∧ Accepts r.wdata s t) := by
  simp only [busAccess] at h
  split at h
  · cases h
    exact .inl (.same s.busyLeft _ rfl)
  · next hlegal =>
    split at h
    · cases h
      exact .inl (quiet_busyAccess r s)
    · next hbusy =>
      have hb : s.busy = false := by simpa using hbusy
      simp only [idleAccess] at h
      split at h
      · next reg hw hr =>
        cases reg
        case cmd =>
          have hoff : 0x08#8 = r.off := eq_of_beq (List.find?_some (p := fun reg => regOffset reg == r.off) hr)
          have hsize : r.size = .word := by
            cases hs : r.size <;> simp [Request.legal, hs] at hlegal ⊢
          refine (acceptCommand_cases hb h).imp id fun ha => ⟨?_, ha⟩
          obtain ⟨w, o, z, d⟩ := r
          subst hoff hsize
          cases w
          · cases hw
          · rfl
        case arg0 => cases h; exact .inl (.arg0 _ _ rfl)
        case cbits j => cases h; exact .inl (.cbits _ _ rfl)
        all_goals (cases h; exact .inl (.same s.busyLeft _ rfl))
      · cases h; exact .inl (.same s.busyLeft _ rfl)
      · cases h; exact .inl (quiet_read s _ _)
      · cases h; exact .inl (.same s.busyLeft _ rfl)

/-- Everything a step can do (R20, R67, R253, R270): nothing when no action is left; the reset of the block; a quiet access, after
which a host loop may have put its next accesses back; or an accepted command. -/
theorem step_cases {s t : State} (h : step s = .next t) :
    (s.host.pending = [] ∧ t = s) ∨
    (∃ rest, s.host.pending = .rst :: rest ∧ t = blockReset (s.setPending rest)) ∨
    (∃ a rest u as, s.host.pending = a :: rest ∧ Quiet (s.setPending rest) u ∧ (t = u ∨ t = u.setPending as)) ∨
    (∃ w rest, s.Next ⟨true, 0x08#8, .word, w⟩ rest ∧ Accepts w (s.setPending rest) t) := by
  simp only [step, hostStep] at h
  split at h
  · next hp =>
    cases h
    exact .inl ⟨hp, rfl⟩
  · next a rest hp =>
    refine .inr ?_
    have loop : ∀ (r : Reg) (f : State → State), (∀ u, ∃ as, f u = u ∨ f u = u.setPending as) → r ≠ .cmd →
        onNext f (busAccess (readRequest r) (s.setPending rest)) = .next t →
        ∃ u as, Quiet (s.setPending rest) u ∧ (t = u ∨ t = u.setPending as) := by
      intro r f hf _ h
      obtain ⟨u, hu, rfl⟩ := onNext_eq_next.mp h
      rcases busAccess_cases hu with hq | ⟨he, -⟩
      · obtain ⟨as, has⟩ := hf u
        exact ⟨u, as, hq, has⟩
      · simp [readRequest] at he
    have drain : ∀ out again u, ∃ as, drainAgain out again u = u ∨ drainAgain out again u = u.setPending as := by
      intro out again u
      simp only [drainAgain]
      split
      · exact ⟨[], .inl rfl⟩
      · exact ⟨_, .inr rfl⟩
    cases a with
    | access r =>
      rcases busAccess_cases h with hq | ⟨he, ha⟩
      · exact .inr (.inl ⟨_, rest, t, [], hp, hq, .inl rfl⟩)
      · exact .inr (.inr ⟨r.wdata, rest, by rw [State.Next, hp, ← he], ha⟩)
    | rst =>
      cases h
      exact .inl ⟨rest, hp, rfl⟩
    | poll =>
      have hpoll : ∀ u, ∃ as, pollAgain u = u ∨ pollAgain u = u.setPending as := by
        intro u
        simp only [pollAgain]
        split
        · exact ⟨_, .inr rfl⟩
        · exact ⟨[], .inl rfl⟩
      obtain ⟨u, as, hq, ht⟩ := loop .status pollAgain hpoll (by simp) h
      exact .inr (.inl ⟨_, rest, u, as, hp, hq, ht⟩)
    | drainEnc =>
      obtain ⟨u, as, hq, ht⟩ := loop .encLevel _ (drain _ _) (by simp) h
      exact .inr (.inl ⟨_, rest, u, as, hp, hq, ht⟩)
    | drainDec =>
      obtain ⟨u, as, hq, ht⟩ := loop .decLevel _ (drain _ _) (by simp) h
      exact .inr (.inl ⟨_, rest, u, as, hp, hq, ht⟩)

/-- A window offset is what its bus address names (R7, R66; log 5). -/
theorem windowOffset_address (off : BitVec 8) : windowOffset (Config.huffBase + off.toNat) = some off := by
  have hlt : Config.huffBase + off.toNat < Config.huffBase + 256 := Nat.add_lt_add_left off.isLt _
  simp [windowOffset, hlt]

end Sys2Proof.Machine
end

