-- ==== Sys2Proof/Laws/Views.lean ====
section
/-! SUPPORT. The register views as numbers (R22 to R40), and the address map on numerals (R21). -/

namespace Sys2Proof.Machine

/-- The eight flags of STATUS as a number (R25). -/
theorem statusBits_toNat : ∀ b7 b6 b5 b4 b3 b2 b1 b0 : Bool,
    (0#24 ++ BitVec.ofBool b7 ++ BitVec.ofBool b6 ++ BitVec.ofBool b5 ++ BitVec.ofBool b4 ++ BitVec.ofBool b3 ++
      BitVec.ofBool b2 ++ BitVec.ofBool b1 ++ BitVec.ofBool b0 : Word).toNat =
      b0.toNat + 2 * b1.toNat + 4 * b2.toNat + 8 * b3.toNat + 16 * b4.toNat + 32 * b5.toNat + 64 * b6.toNat +
        128 * b7.toNat := by
  decide +kernel

theorem statusWord_toNat (s : State) : s.statusWord.toNat =
    s.busy.toNat + 2 * s.latch.err.toNat + 4 * s.tree.valid.toNat + 8 * s.enc.isOpen.toNat + 16 * s.dec.isOpen.toNat +
      32 * s.dec.dead.toNat + 64 * (!s.enc.q.isEmpty).toNat + 128 * (!s.dec.q.isEmpty).toNat :=
  statusBits_toNat ..

theorem paramWord_toNat (s : State) : s.paramWord.toNat = s.fifoDepth % 65536 * 65536 + 0xFF08 := by
  unfold State.paramWord
  rw [BitVec.toNat_append, BitVec.toNat_append, ← Nat.shiftLeft_add_eq_or_of_lt (by decide),
    ← Nat.shiftLeft_add_eq_or_of_lt (by decide)]
  simp [Nat.shiftLeft_eq]
  omega

theorem countWord_toNat (n : Nat) : (countWord n).toNat = n % 512 := by
  unfold countWord
  rw [BitVec.toNat_append, ← Nat.shiftLeft_add_eq_or_of_lt (BitVec.isLt _)]
  simp [Nat.shiftLeft_eq]

theorem levelWord_toNat (q : List Word) : (levelWord q).toNat = q.length % 65536 := by
  unfold levelWord
  rw [BitVec.toNat_append, ← Nat.shiftLeft_add_eq_or_of_lt (BitVec.isLt _)]
  simp [Nat.shiftLeft_eq]

theorem encFillWord_toNat (s : State) : s.encFillWord.toNat = s.enc.fill % 32 := by
  unfold State.encFillWord
  rw [BitVec.toNat_append, ← Nat.shiftLeft_add_eq_or_of_lt (BitVec.isLt _)]
  simp [Nat.shiftLeft_eq]

theorem treeWord_toNat (s : State) (h : s.tree.valid = true) :
    s.treeWord.toNat = s.tree.n % 512 * 65536 + s.tree.root % 512 := by
  unfold State.treeWord
  rw [if_pos h, BitVec.toNat_append, BitVec.toNat_append, BitVec.toNat_append,
    ← Nat.shiftLeft_add_eq_or_of_lt (BitVec.isLt _), ← Nat.shiftLeft_add_eq_or_of_lt (by decide),
    ← Nat.shiftLeft_add_eq_or_of_lt (BitVec.isLt _)]
  simp [Nat.shiftLeft_eq]
  omega

/-- An offset is aligned exactly when its two low bits are 0 (R61). -/
theorem aligned_iff : ∀ off : BitVec 8, (off.extractLsb' 0 2 == 0#2) = decide (off.toNat % 4 = 0) := by decide +kernel

/-- Each register is the one at its offset (R21). -/
theorem regAt_regOffset : ∀ r ∈ regList, regAt (regOffset r) = some r := by decide +kernel

/-- Every register is in the list of the window. -/
theorem mem_regList (r : Reg) : r ∈ regList := by
  cases r with
  | cbits j => revert j; decide
  | _ => decide

end Sys2Proof.Machine
end

