-- ==== Sys2Proof/Tests/Slice0.lean ====
section
/-! SUPPORT. Small tests with expected values from the spec: well-formedness, the decoder on words written out from R81 and
R83, one command or one host action each from the vectors of 95_test_vectors.md, the assembly language; and for each statement
with hypotheses a witness that meets them. -/

namespace Sys2Proof.Tests

open Sys2Proof.Machine

/-! ### States -/

/-- The block after reset in a build with FIFO_DEPTH = 64, as the vectors take it. -/
def rig : State := { State.reset with fifoDepth := 64 }

/-- FT of vector F1, "abracadabra". -/
def ftF1 : FreqTable :=
  ⟨5, [(0, ⟨0x61#8, 5#32⟩), (1, ⟨0x62#8, 2#32⟩), (2, ⟨0x72#8, 2#32⟩), (3, ⟨0x63#8, 1#32⟩), (4, ⟨0x64#8, 1#32⟩)]⟩

/-- NODE of vector T3. -/
def treeT3 : TreeArena :=
  ⟨true, 9, 8, [(0, .leaf 5#40 0x61#8), (1, .leaf 2#40 0x62#8), (2, .leaf 2#40 0x72#8), (3, .leaf 1#40 0x63#8),
    (4, .leaf 1#40 0x64#8), (5, .internal 2#40 3 4), (6, .internal 4#40 1 2), (7, .internal 6#40 5 6),
    (8, .internal 11#40 0 7)]⟩

/-- CT of vector G3: a "0", b "110", r "111", c "100", d "101". -/
def ctG3 : CodeTable :=
  ⟨5, [(0, ⟨0x61#8, 1#8, 0#255⟩), (1, ⟨0x62#8, 3#8, 3#255⟩), (2, ⟨0x72#8, 3#8, 7#255⟩), (3, ⟨0x63#8, 3#8, 1#255⟩),
    (4, ⟨0x64#8, 3#8, 5#255⟩)]⟩

/-- The tables of "abracadabra", no session open. -/
def abra : State := { rig with ft := ftF1, tree := treeT3, ct := ctG3 }

/-- CT of vector G1: a "0", b "1". -/
def ctG1 : CodeTable := ⟨2, [(0, ⟨0x61#8, 1#8, 0#255⟩), (1, ⟨0x62#8, 1#8, 1#255⟩)]⟩

/-- CT of vector G14: x "10". -/
def ctG14 : CodeTable := ⟨1, [(0, ⟨0x78#8, 2#8, 1#255⟩)]⟩

/-- An encode session with these pending bits, this count and this queue. -/
def encoding (acc : Word) (fill : Nat) (nbits : BitVec 64) (q : List Word) (s : State) : State :=
  { s with enc := ⟨true, acc, fill, nbits, q⟩ }

/-- A decode session with this buffer and this queue. -/
def decoding (buf : BitVec 255) (len : Nat) (q : List Word) (s : State) : State :=
  { s with dec := ⟨true, buf, len, 0#32, q⟩ }

/-- The state with an operand in ARG0. -/
def withArg0 (v : Word) (s : State) : State := { s with arg0 := v }

/-- The state with a word in CBITS0. -/
def withCbits0 (v : Word) (s : State) : State := { s with cbits := s.cbits.set 0 v }

/-- The state with a latched fault. -/
def withFault (c : Cause) (info : Word) (s : State) : State := { s with latch := ⟨true, c, info⟩ }

/-- The state with BUSY = 1 for this many more legal accesses. -/
def withBusy (n : Nat) (s : State) : State := { s with busyLeft := n }

/-- The state of a next outcome. -/
def landed (s : State) : Host.Outcome State Fault Refusal → State
  | .next t => t
  | .fault _ => s
  | .refused _ => s

/-- The state after one command. -/
def after (i : Instr) (s : State) : State := landed s (exec i s)

/-- The state after one host action. -/
def acted (a : HostAction) (s : State) : State := landed s (step (s.setPending [a]))

/-- The codes of the entries in use. -/
def codes (t : CodeTable) : List (Byte × Bits) := (List.range t.n).map (fun i => ((t.entry i).sym, (t.entry i).code))

/-- A list of 0 and 1 as a bit sequence. -/
def bits (l : List Nat) : Bits := l.map (· == 1)

/-! ### Well-formedness (R85) -/

theorem test_wf_refuses_decWord_0 : (Instr.decWord 0#6).wf = false := by decide

theorem test_wf_refuses_decWord_33 : (Instr.decWord 33#6).wf = false := by decide

theorem test_wf_accepts_decWord_1_and_32 : (Instr.decWord 1#6).wf = true ∧ (Instr.decWord 32#6).wf = true := by decide

/-! ### Decoding: words from the formats R81 and the opcode map R83 -/

theorem test_decode_nop : decode 0b00000000_00000000_00000000_00000000#32 = .legal .nop := by decide

theorem test_decode_freqClear : decode 0b00010000_00000000_00000000_00000000#32 = .legal .freqClear := by decide

theorem test_decode_freqCount : decode 0b00010001_00000000_00000000_01100001#32 = .legal (.freqCount 0x61#8) := by decide

theorem test_decode_freqLoad : decode 0b00010010_00000000_00000000_01110010#32 = .legal (.freqLoad 0x72#8) := by decide

theorem test_decode_freqRead : decode 0b00010011_00000000_00000000_11111111#32 = .legal (.freqRead 255#8) := by decide

theorem test_decode_build : decode 0b00100000_00000000_00000000_00000000#32 = .legal .build := by decide

theorem test_decode_nodeRead : decode 0b00100001_00000000_00000001_11111110#32 = .legal (.nodeRead 510#9) := by decide

theorem test_decode_genCodes : decode 0b00110000_00000000_00000000_00000000#32 = .legal .genCodes := by decide

theorem test_decode_codeRead : decode 0b00110001_00000000_00000000_00000101#32 = .legal (.codeRead 5#8) := by decide

theorem test_decode_codeClear : decode 0b00110010_00000000_00000000_00000000#32 = .legal .codeClear := by decide

theorem test_decode_codeLoad :
    decode 0b00110011_00000000_00000010_01111000#32 = .legal (.codeLoad 0x78#8 2#8) := by decide

theorem test_decode_encStart : decode 0b01000000_00000000_00000000_00000000#32 = .legal .encStart := by decide

theorem test_decode_encSym : decode 0b01000001_00000000_00000000_01100001#32 = .legal (.encSym 0x61#8) := by decide

theorem test_decode_encFlush : decode 0b01000010_00000000_00000000_00000000#32 = .legal .encFlush := by decide

theorem test_decode_decStart : decode 0b01010000_00000000_00000000_00000000#32 = .legal .decStart := by decide

theorem test_decode_decWord : decode 0b01010001_00000000_00000000_00100000#32 = .legal (.decWord 32#6) := by decide

theorem test_decode_decChar : decode 0b01010010_00000000_00000000_00110000#32 = .legal (.decChar 0x30#8) := by decide

theorem test_decode_decEnd : decode 0b01010011_00000000_00000000_00000000#32 = .legal .decEnd := by decide

theorem test_decode_errClear : decode 0b01110000_00000000_00000000_00000000#32 = .legal .errClear := by decide

theorem test_decode_softReset : decode 0b01111111_00000000_00000000_00000000#32 = .legal .softReset := by decide

/-- Reserved opcodes at the edges of R84's ranges. -/
theorem test_decode_reserved_opcodes :
    ∀ op : Fin 15, decode (BitVec.ofNat 32 (2 ^ 24 *
      [0x01, 0x0F, 0x14, 0x1F, 0x22, 0x2F, 0x34, 0x3F, 0x43, 0x4F, 0x54, 0x6F, 0x71, 0x7E, 0xFF][op])) =
      .illegal .reservedOpcode := by decide

/-- One reserved bit of each format: Z (T14), B (F8), I, BL, N (R81, R85). -/
theorem test_decode_reserved_bits :
    decode 0x20000001#32 = .illegal .reservedBits ∧ decode 0x11010061#32 = .illegal .reservedBits ∧
    decode 0x21000200#32 = .illegal .reservedBits ∧ decode 0x33010278#32 = .illegal .reservedBits ∧
    decode 0x51000041#32 = .illegal .reservedBits := by decide

/-- D11: n = 0 and n = 33; and n = 63 (R85). -/
theorem test_decode_bad_bit_counts :
    decode 0x51000000#32 = .illegal .badBitCount ∧ decode 0x51000021#32 = .illegal .badBitCount ∧
    decode 0x5100003F#32 = .illegal .badBitCount := by decide

/-- No word is covered by two rows of R83: any two rows differ in a bit that both fix. -/
theorem test_opcode_rows_do_not_overlap :
    List.Pairwise (fun r r' => r.pattern &&& (r.mask &&& r'.mask) ≠ r'.pattern &&& (r.mask &&& r'.mask)) opcodeRows := by
  decide

theorem test_decodeTableWord : decodeTableWord 32 0x33000278 = some (.codeLoad 0x78#8 2#8) ∧
    decodeTableWord 32 0x51000000 = none := by decide

/-! ### Frequency front end -/

/-- R111. -/
theorem test_freqClear : (after .freqClear abra).ft.n = 0 ∧ (after .freqClear abra).tree.valid = true := by decide

/-- R112: a symbol that is present. -/
theorem test_freqCount : (after (.freqCount 0x72#8) abra).ft.entry 2 = ⟨0x72#8, 3#32⟩ ∧
    (after (.freqCount 0x72#8) abra).ft.n = 5 := by decide

/-- F4. -/
theorem test_freqCount_overflow :
    (after (.freqCount 0x61#8) { rig with ft := ⟨1, [(0, ⟨0x61#8, 0xFFFFFFFF#32⟩)]⟩ }).latch =
      ⟨true, .countOverflow, 0x61#32⟩ := by decide

/-- F3. -/
theorem test_freqLoad : (after (.freqLoad 0x72#8) (withArg0 9#32 abra)).ft.entry 2 = ⟨0x72#8, 9#32⟩ := by decide

/-- R113: a new entry, of count 0 (F7). -/
theorem test_freqLoad_appends : (after (.freqLoad 0x61#8) rig).ft = ⟨1, [(0, ⟨0x61#8, 0#32⟩)]⟩ := by decide

/-- F2. -/
theorem test_freqRead : (after (.freqRead 1#8) abra).res0 = 0x80000062#32 ∧ (after (.freqRead 1#8) abra).res1 = 2#32 := by
  decide

/-- F2: slot 5 is not in use. -/
theorem test_freqRead_unused : (after (.freqRead 5#8) { abra with res0 := 7#32, res1 := 7#32 }).res0 = 0#32 := by
  decide

/-! ### Tree builder -/

/-- T3. -/
theorem test_build : (after .build { rig with ft := ftF1 }).tree = treeT3 := by decide

/-- T12: an older tree stays. -/
theorem test_build_empty : (after .build { abra with ft := ⟨0, []⟩ }).latch = ⟨true, .emptyInput, 0#32⟩ ∧
    (after .build { abra with ft := ⟨0, []⟩ }).tree = treeT3 := by decide

/-- T10, idx 8. -/
theorem test_nodeRead :
    let t := after (.nodeRead 8#9) abra
    t.res0 = 0xE0000008#32 ∧ t.res1 = 11#32 ∧ t.res2 = 0#32 ∧ t.res3 = 0x00070000#32 := by decide

/-- T11: a weight above 32 bits. -/
theorem test_nodeRead_wide :
    (after (.nodeRead 2#9) { rig with tree := ⟨true, 3, 2, [(2, .internal 0x1FFFFFFFE#40 0 1)]⟩ }).res2 = 1#32 := by
  decide

/-! ### Code table -/

/-- G3. -/
theorem test_genCodes : codes (after .genCodes { abra with ct := ⟨0, []⟩ }).ct =
    [(0x61#8, bits [0]), (0x62#8, bits [1, 1, 0]), (0x72#8, bits [1, 1, 1]), (0x63#8, bits [1, 0, 0]),
     (0x64#8, bits [1, 0, 1])] := by decide

/-- G2: the empty path gets "0". -/
theorem test_genCodes_single :
    codes (after .genCodes { rig with tree := ⟨true, 1, 0, [(0, .leaf 3#40 0x61#8)]⟩ }).ct = [(0x61#8, bits [0])] := by
  decide

/-- G10, slot 2. -/
theorem test_codeRead : (after (.codeRead 2#8) abra).res0 = 0x80000372#32 ∧
    (after (.codeRead 2#8) abra).cbits[0] = 0xE0000000#32 := by decide

/-- G10, slot 5. -/
theorem test_codeRead_unused : (after (.codeRead 5#8) (withCbits0 7#32 abra)).cbits[0] = 0#32 := by decide

/-- R154. -/
theorem test_codeClear : (after .codeClear abra).ct.n = 0 := by decide

/-- G13. -/
theorem test_codeClear_busy : (after .codeClear (decoding 0#255 0 [] abra)).latch = ⟨true, .tableBusy, 0x32000000#32⟩ := by
  decide

/-- G14. -/
theorem test_codeLoad : (after (.codeLoad 0x78#8 2#8) (withCbits0 0x80000000#32 rig)).ct = ctG14 := by decide

/-- G16. -/
theorem test_codeLoad_duplicate :
    (after (.codeLoad 0x79#8 2#8) (withCbits0 0x80000000#32 { rig with ct := ctG14 })).latch =
      ⟨true, .duplicateCode, 0x7978#32⟩ := by decide

/-! ### Encoder -/

/-- R180, N17. -/
theorem test_encStart : (after .encStart (encoding 0x40000000#32 2 66#64 [1#32, 2#32] rig)).enc = ⟨true, 0#32, 0, 0#64, []⟩ := by
  decide

/-- N1, the second symbol. -/
theorem test_encSym : (after (.encSym 0x62#8) (encoding 0#32 1 1#64 [] { rig with ct := ctG1 })).enc =
    ⟨true, 0x40000000#32, 2, 2#64, []⟩ := by decide

/-- N12. -/
theorem test_encSym_unknown : (after (.encSym 0x7A#8) (encoding 0x60000000#32 4 4#64 [] abra)).latch =
    ⟨true, .unknownSymbol, 0x7A#32⟩ := by decide

/-- N2. -/
theorem test_encFlush : (after .encFlush (encoding 0x40000000#32 2 2#64 [] rig)).enc =
    ⟨false, 0#32, 0, 2#64, [0x40000000#32]⟩ := by decide

/-- N8: nothing is pushed when the pending word is empty. -/
theorem test_encFlush_aligned : (after .encFlush (encoding 0#32 0 32#64 [0xEFAC0E53#32] rig)).enc =
    ⟨false, 0#32, 0, 32#64, [0xEFAC0E53#32]⟩ := by decide

/-! ### Decoder -/

/-- R200. -/
theorem test_decStart : (after .decStart (decoding 3#255 2 [1#32] rig)).dec = ⟨true, 0#255, 0, 0#32, []⟩ := by decide

/-- D1. -/
theorem test_decWord :
    let t := after (.decWord 23#6) (decoding 0#255 0 [] (withArg0 0x6E8ADC00#32 abra))
    t.dec.q = [0x61#32, 0x62#32, 0x72#32, 0x61#32, 0x63#32, 0x61#32, 0x64#32, 0x61#32, 0x62#32, 0x72#32, 0x61#32] ∧
      t.dec.len = 0 ∧ t.dec.nsym = 11#32 := by decide +kernel

/-- D10. -/
theorem test_decWord_closed : (after (.decWord 1#6) rig).latch = ⟨true, .sequenceError, 0x51000001#32⟩ := by decide

/-- D4: the line feed is skipped. -/
theorem test_decChar_skips : after (.decChar 0x0A#8) (decoding 0#255 0 [] { rig with ct := ctG1 }) =
    decoding 0#255 0 [] { rig with ct := ctG1 } := by decide

/-- D8: "0" matches at once. -/
theorem test_decChar : (after (.decChar 0x30#8) (decoding 0#255 0 [] abra)).dec = ⟨true, 0#255, 0, 1#32, [0x61#32]⟩ := by
  decide

/-- D2. -/
theorem test_decEnd : (after .decEnd (decoding 0#255 0 [0x61#32] abra)).dec = ⟨false, 0#255, 0, 0#32, [0x61#32]⟩ := by
  decide

/-- D7. -/
theorem test_decEnd_dead : (after .decEnd (decoding 0#255 256 [] { rig with ct := ctG14 })).latch =
    ⟨true, .incompleteCode, 0x100#32⟩ := by decide

/-! ### Control -/

/-- R230. -/
theorem test_nop : after .nop abra = abra := by decide

/-- R231. -/
theorem test_errClear : after .errClear (withFault .noTree 0#32 abra) = abra := by decide

/-- R232, R52. -/
theorem test_softReset : after .softReset (withFault .noTree 0#32 abra) = rig := by decide

/-! ### The host interface -/

/-- R23 with FIFO_DEPTH = 64; D6: STATUS of a dead session is 0x30. -/
theorem test_reads : (acted (.access (readRequest .param)) rig).host.responses = [.read 0x0040FF08#32] ∧
    (acted (.access (readRequest .status)) (decoding 0#255 256 [] rig)).host.responses = [.read 0x30#32] ∧
    (acted (.access (readRequest .tree)) abra).host.responses = [.read 0x00090008#32] := by decide

/-- N15, N16: ENC_OUT pops, and returns 0 on an empty queue. -/
theorem test_read_out :
    (acted (.access (readRequest .encOut)) (encoding 0#32 0 64#64 [5#32, 6#32] rig)).enc.q = [6#32] ∧
    (acted (.access (readRequest .encOut)) rig).host.responses = [.read 0#32] := by decide

/-- R276: a write during BUSY is dropped and latched, a read of ENC_OUT pops nothing. -/
theorem test_busy :
    (acted (.access (writeRequest .arg0 7#32)) (withBusy 2 rig)).latch = ⟨true, .busyOverrun, 0x18#32⟩ ∧
    (acted (.access (writeRequest .arg0 7#32)) (withBusy 2 rig)).arg0 = 0#32 ∧
    (acted (.access (readRequest .encOut)) (withBusy 2 (encoding 0#32 0 32#64 [5#32] rig))).enc.q = [5#32] := by
  decide

/-- F8, and R61: an access at offset 0x02 is a bus error. -/
theorem test_illegal :
    (acted (.access (writeRequest .cmd 0x11010061#32)) rig).latch = ⟨true, .illegalCommand, 0x11010061#32⟩ ∧
    (acted (.access ⟨true, 0x02#8, .word, 7#32⟩) rig).host.responses = [.busError] := by decide

/-- R243: with ERR = 1 a command is dropped (F5), and ERR_CLEAR is accepted (F6). -/
theorem test_error_mode :
    (acted (.access (writeRequest .cmd 0x10000000#32)) (withFault .noTree 0#32 abra)).ft.n = 5 ∧
    (acted (.access (writeRequest .cmd 0x70000000#32)) (withFault .noTree 0#32 abra)).latch.err = false := by
  decide

/-- The step after withFetchWord runs the word, from a state that is busy and has a fault latched. -/
theorem test_withFetchWord :
    (landed abra (step ((withBusy 3 (withFault .noTree 0#32 abra)).withFetchWord 32 0x13000001))).res0 = 0x80000062#32 := by
  decide

/-- R62: the word of N3 on little-endian lanes. -/
theorem test_laneBytes : laneBytes 0x6E8ADC00#32 = [0x00#8, 0xDC#8, 0x8A#8, 0x6E#8] := by decide

/-! ### The assembly language (R87, R88) -/

theorem test_readLine_command : readLine (codesOf "CODE_LOAD 'x', 2   ; R155") =
    some [.command (.codeLoad 0x78#8 2#8)] := by decide

theorem test_readLine_code_set : readLine (codesOf "CODE_SET 'b', \"110\"") =
    some [.codeSet 0x62#8 [true, true, false]] := by decide

theorem test_readLine_dec_text : readLine (codesOf "DEC_TEXT \"0\\n1\"") =
    some [.decText [0x30#8, 0x0A#8, 0x31#8]] := by decide

theorem test_readLine_wr : readLine (codesOf "WR CBITS0, 0xC000_0000") = some [.wr (.cbits 0) 0xC0000000#32] := by
  decide

/-- A listing's line of 95_test_vectors.md; and after `=>` one number, no less and no more (log 15). -/
theorem test_readLine_rd : readLine (codesOf "RD TREE => 0x0009_0008   ; RD TREE") = some [.rd .tree] ∧
    readLine (codesOf "RD TREE") = some [.rd .tree] ∧ readLine (codesOf "RD TREE =>") = none ∧
    readLine (codesOf "RD TREE => x") = none ∧ readLine (codesOf "RD TREE => 1 2") = none := by decide +kernel

/-- A quoted character is one byte, in a wide field too; a code above 0xFF is none (log 15). -/
theorem test_readOperand_char : readOperand 32 (.char 0x61) = some 0x61#32 ∧ readOperand 32 (.char 0xE9) = some 0xE9#32 ∧
    readOperand 32 (.char 0x20AC) = none ∧ readText (.text [0x61, 0x20AC]) = none := by decide

/-- R231: after ERR_CLEAR a session that raised INCOMPLETE_CODE goes on; its buffer "11" is completed to "110" and DEC_END
closes it (R202 to R204; log 16). -/
theorem test_incomplete_session_continues :
    let s := withFault .incompleteCode 2#32 (decoding 3#255 2 [] abra)
    let t := after .decEnd (after (.decChar 0x30#8) (after .errClear s))
    t.dec = ⟨false, 0#255, 0, 1#32, [0x62#32]⟩ ∧ t.latch.err = false := by decide

/-- `_` groups digits inside a number (R8); elsewhere there is no number (log 15). -/
theorem test_readNumber_grouping : readNumber (codesOf "0x8000_0000") = some 0x80000000 ∧
    readNumber (codesOf "_") = none ∧ readNumber (codesOf "0x_") = none ∧ readNumber (codesOf "1_") = none := by decide

theorem test_code_set_actions : (Statement.codeSet 0x62#8 [true, true, false]).actions.head? =
    some (.access ⟨true, 0x80#8, .word, 0xC0000000#32⟩) := by decide

/-! ### Sample states that meet the invariants -/

theorem below_two {n : Nat} {P : Nat → Nat → Prop} (h : ∀ i, i < n → ∀ j, j < n → P i j) :
    ∀ i j, i < n → j < n → P i j := fun i j hi hj => h i hi j hj

theorem clean_above {n l : Nat} {v : BitVec n} (h : v >>> l = 0#n) : ∀ k, l ≤ k → v.getLsbD k = false := by
  intro k hk
  have := congrArg (fun w => w.getLsbD (k - l)) h
  simpa [hk] using this

/-- FT of "ab" (E2). -/
def ftAB : FreqTable := ⟨2, [(0, ⟨0x61#8, 1#32⟩), (1, ⟨0x62#8, 1#32⟩)]⟩

/-- NODE of vector T1. -/
def treeT1 : TreeArena := ⟨true, 3, 2, [(0, .leaf 1#40 0x61#8), (1, .leaf 1#40 0x62#8), (2, .internal 2#40 0 1)]⟩

/-- NODE of vector T2. -/
def treeT2 : TreeArena := ⟨true, 1, 0, [(0, .leaf 3#40 0x61#8)]⟩

/-- A table of 255 symbols, one place short of full. -/
def ft255 : FreqTable := ⟨255, (List.range' 0 255).map (fun i => (i, ⟨BitVec.ofNat 8 i, 1#32⟩))⟩

/-- Both sessions open: four pending bits and two words in ENC_Q; the candidate "1", a prefix of the one code, in DBUF. -/
def busyState : State :=
  { rig with
    ft := ftAB, tree := treeT1, ct := ctG14
    enc := ⟨true, 0x60000000#32, 4, 4#64, [5#32, 6#32]⟩, dec := ⟨true, 1#255, 1, 1#32, [0x78#32, 0x78#32]⟩ }

/-- The tables of "ab", no session open. -/
def ab : State := { rig with ft := ftAB, tree := treeT1, ct := ctG1 }

theorem read_range {α : Type} (blank : α) (f : Nat → α) (n a k : Nat) :
    Memory.read blank ((List.range' a n).map (fun i => (i, f i))) k = if a ≤ k ∧ k < a + n then f k else blank := by
  induction n generalizing a with
  | zero => rw [List.range'_zero, List.map_nil, Memory.read, if_neg (by omega)]
  | succ n ih =>
    simp only [List.range'_succ, List.map_cons, Memory.read, ih]
    by_cases h : k = a
    · simp [h]
    · simp only [h, if_false]
      congr 1
      apply propext
      omega

theorem ftAB_wf : ftAB.Wf := ⟨by decide, by decide, below_two (by decide)⟩

theorem ft255_wf : ft255.Wf := by
  refine ⟨by decide, by decide +kernel, ?_⟩
  intro i j hi hj h
  have hn : ft255.n = 255 := rfl
  have e : ∀ k, k < 255 → (ft255.entry k).sym = BitVec.ofNat 8 k := by
    intro k hk
    simp [FreqTable.entry, ft255, read_range, hk]
  rw [hn] at hi hj
  rw [e i hi, e j hj] at h
  have := congrArg BitVec.toNat h
  simp at this
  omega

theorem ft255_absent : ∀ i, i < ft255.n → (ft255.entry i).sym ≠ 0xFF#8 := by
  intro i hi h
  have hn : i < 255 := hi
  have e : (ft255.entry i).sym = BitVec.ofNat 8 i := by simp [FreqTable.entry, ft255, read_range, hn]
  rw [e] at h
  have := congrArg BitVec.toNat h
  simp at this
  omega

theorem treeT1_shape : treeT1.Shape 2 where
  leaves := by decide
  count := rfl
  root := rfl
  leafBelow := by decide
  internalAbove := by decide
  childBelow := by
    intro k c hk h
    have hn : k < 3 := hk
    interval_cases k <;> simp [nodeAt, treeT1, Memory.read, Node.hasChild] at h
    omega
  twoChildren := by
    intro k w a b hk h
    have hn : k < 3 := hk
    interval_cases k <;> simp [nodeAt, treeT1, Memory.read] at h
    omega
  oneParent := by
    intro c hc
    have hn : c < 2 := hc
    refine ⟨2, by decide, ?_, ?_⟩
    · simp only [nodeAt, treeT1, Memory.read, Node.hasChild]; simp; omega
    · intro q hq h
      have hn : q < 3 := hq
      interval_cases q <;> simp [nodeAt, treeT1, Memory.read, Node.hasChild] at h ⊢
  distinct := by
    intro i j w w' sym hi hj h h'
    interval_cases i <;> interval_cases j <;> simp [nodeAt, treeT1, Memory.read] at h h' ⊢
    · rw [← h.2] at h'; exact absurd h'.2 (by decide)
    · rw [← h.2] at h'; exact absurd h'.2 (by decide)

theorem treeT2_shape : treeT2.Shape 1 where
  leaves := by decide
  count := rfl
  root := rfl
  leafBelow := by decide
  internalAbove := by decide
  childBelow := by
    intro k c hk h
    have hn : k < 1 := hk
    interval_cases k; simp [nodeAt, treeT2, Memory.read, Node.hasChild] at h
  twoChildren := by
    intro k w a b hk h
    have hn : k < 1 := hk
    interval_cases k; simp [nodeAt, treeT2, Memory.read] at h
  oneParent := fun c hc => absurd hc (Nat.not_lt_zero c)
  distinct := by intro i j w w' sym hi hj _ _; omega

theorem treeT1_wf : treeT1.Wf := ⟨by decide, by decide, fun _ => ⟨2, treeT1_shape⟩⟩

theorem treeT2_wf : treeT2.Wf := ⟨by decide, by decide, fun _ => ⟨1, treeT2_shape⟩⟩

theorem ctG1_wf : ctG1.Wf := by
  refine ⟨by decide, by decide, by decide, ?_, below_two (by decide), below_two (by decide)⟩
  intro i k hi
  have hn : i < 2 := hi
  interval_cases i <;> exact clean_above (by decide) k

theorem ctG14_wf : ctG14.Wf := by
  refine ⟨by decide, by decide, by decide, ?_, below_two (by decide), below_two (by decide)⟩
  intro i k hi
  have hn : i < 1 := hi
  interval_cases i; exact clean_above (by decide) k

theorem rig_enc_wf : rig.enc.Wf 64 := ⟨by decide, by decide, by decide, by decide, by decide⟩

theorem busyState_inv : busyState.Inv where
  depth := by decide
  latch := ⟨by decide, by decide⟩
  ft := ftAB_wf
  tree := treeT1_wf
  ct := ctG14_wf
  enc := ⟨by decide, by decide, by decide, by decide, by decide⟩
  dec := ⟨by decide, clean_above (by decide), by decide, by simp [busyState], by decide, by decide⟩

/-- The invariant does not read the host's side. -/
theorem inv_setPending {s : State} (h : s.Inv) (l : List HostAction) : (s.setPending l).Inv :=
  ⟨h.depth, h.latch, h.ft, h.tree, h.ct, h.enc, h.dec⟩

/-- The state whose next host action is this write. -/
def toWrite (off : BitVec 8) (v : Word) (s : State) : State := s.setPending [.access ⟨true, off, .word, v⟩, .poll]

/-- The state whose next host action is a read at this offset. -/
def toRead (off : BitVec 8) (s : State) : State := s.setPending [.access ⟨false, off, .word, 0#32⟩, .poll]

/-! ### Witnesses: each meets all hypotheses of the statement it is named after, one state for each clause -/

theorem witness_DecodeOfEncodeIsTheCommand : (Instr.decWord 1#6).wf = true ∧ (Instr.decWord 32#6).wf = true ∧
    (Instr.nodeRead 511#9).wf = true := by decide

theorem witness_LegalWordsAreTheirOwnEncodings : decode 0x3300FFFF#32 = .legal (.codeLoad 0xFF#8 0xFF#8) := by decide

theorem witness_StepRunsTheAcceptedCommand :
    (∃ s : State, s.Next ⟨true, 0x08#8, .word, 0x41000061#32⟩ [.poll] ∧ s.busy = false ∧ s.latch.err = false ∧
      decode 0x41000061#32 = .legal (.encSym 0x61#8)) ∧
    (∃ s : State, s.Next ⟨true, 0x08#8, .word, 0x70000000#32⟩ [.poll] ∧ s.busy = false ∧ s.latch.err = true ∧
      decode 0x70000000#32 = .legal .errClear) ∧
    ∃ s : State, s.Next ⟨true, 0x08#8, .word, 0x7F000000#32⟩ [.poll] ∧ s.busy = false ∧ s.latch.err = true ∧
      decode 0x7F000000#32 = .legal .softReset :=
  ⟨⟨toWrite 0x08#8 0x41000061#32 busyState, rfl, rfl, rfl, by decide⟩,
   ⟨toWrite 0x08#8 0x70000000#32 (withFault .noTree 0#32 busyState), rfl, rfl, rfl, by decide⟩,
   ⟨toWrite 0x08#8 0x7F000000#32 (withFault .noTree 0#32 busyState), rfl, rfl, rfl, by decide⟩⟩

theorem witness_StepRaisesIllegalCommand :
    (∃ s : State, s.Next ⟨true, 0x08#8, .word, 0x20000001#32⟩ [.poll] ∧ s.busy = false ∧ s.latch.err = false ∧
      ∀ r ∈ opcodeRows, 0x20000001#32 &&& r.mask ≠ r.pattern) ∧
    (∃ s : State, s.Next ⟨true, 0x08#8, .word, 0x51000000#32⟩ [.poll] ∧ s.busy = false ∧ s.latch.err = false ∧
      0x51000000 / 2 ^ 24 = 0x51 ∧ 0x51000000 % 64 = 0) ∧
    ∃ s : State, s.Next ⟨true, 0x08#8, .word, 0x51000021#32⟩ [.poll] ∧ s.busy = false ∧ s.latch.err = false ∧
      0x51000021 / 2 ^ 24 = 0x51 ∧ 32 < 0x51000021 % 64 :=
  ⟨⟨toWrite 0x08#8 0x20000001#32 busyState, rfl, rfl, rfl, by decide⟩,
   ⟨toWrite 0x08#8 0x51000000#32 busyState, rfl, rfl, rfl, by decide, by decide⟩,
   ⟨toWrite 0x08#8 0x51000021#32 busyState, rfl, rfl, rfl, by decide, by decide⟩⟩

theorem witness_StepDropsCommandsWhileErr :
    ∃ s : State, s.Next ⟨true, 0x08#8, .word, 0x70000001#32⟩ [.poll] ∧ s.busy = false ∧ s.latch.err = true ∧
      0x70000001#32 ≠ 0x70000000#32 ∧ 0x70000001#32 ≠ 0x7F000000#32 :=
  ⟨toWrite 0x08#8 0x70000001#32 (withFault .noTree 0#32 busyState), rfl, rfl, rfl, by decide, by decide⟩

theorem witness_BusyWritesLatchOverrun (off : BitVec 8) (_ : off ∈ [0x08#8, 0x18#8, 0x80#8, 0x9C#8]) :
    (∃ s : State, s.Next ⟨true, off, .word, 7#32⟩ [.poll] ∧ s.busy = true ∧ s.latch.err = false) ∧
    ∃ s : State, s.Next ⟨true, off, .word, 7#32⟩ [.poll] ∧ s.busy = true ∧ s.latch.err = true :=
  ⟨⟨toWrite off 7#32 (withBusy 1 busyState), rfl, rfl, rfl⟩,
   ⟨toWrite off 7#32 (withBusy 1 (withFault .noTree 0#32 busyState)), rfl, rfl, rfl⟩⟩

theorem witness_BusyReadsHaveNoSideEffect (off : BitVec 8) (h : off ∈ [0x00#8, 0x04#8, 0x0C#8, 0x50#8, 0xFC#8]) :
    off.toNat % 4 = 0 ∧ ∃ s : State, s.Next ⟨false, off, .word, 0#32⟩ [.poll] ∧ s.busy = true := by
  refine ⟨?_, toRead off (withBusy 1 busyState), rfl, rfl⟩
  revert off; decide

theorem witness_IllegalAccessHasNoEffect :
    (∃ s : State, s.Next ⟨true, 0x18#8, .byte, 7#32⟩ [.poll] ∧ AccessSize.byte ≠ .word) ∧
    ∃ s : State, s.Next ⟨false, 0xFF#8, .word, 0#32⟩ [.poll] ∧ (0xFF#8).toNat % 4 ≠ 0 :=
  ⟨⟨busyState.setPending [.access ⟨true, 0x18#8, .byte, 7#32⟩, .poll], rfl, by decide⟩,
   ⟨toRead 0xFF#8 busyState, rfl, by decide⟩⟩

theorem witness_WritesElsewhereAreIgnored (off : BitVec 8) (h : off ∈ [0x00#8, 0x14#8, 0x1C#8, 0x7C#8, 0xA0#8, 0xFC#8]) :
    (off.toNat % 4 = 0 ∧ off ≠ 0x08#8 ∧ off ≠ 0x18#8 ∧ ¬ (0x80 ≤ off.toNat ∧ off.toNat ≤ 0x9C)) ∧
      ∃ s : State, s.Next ⟨true, off, .word, 7#32⟩ [.poll] := by
  refine ⟨?_, toWrite off 7#32 busyState, rfl⟩
  revert off; decide

theorem witness_OperandRegistersStoreTheWord :
    (∃ s : State, s.busy = false ∧ s.Next ⟨true, 0x18#8, .word, 7#32⟩ [.poll]) ∧
    (∃ s : State, s.busy = false ∧ s.Next ⟨true, BitVec.ofNat 8 (0x80 + 4 * 0), .word, 7#32⟩ [.poll]) ∧
    ∃ s : State, s.busy = false ∧ s.Next ⟨true, BitVec.ofNat 8 (0x80 + 4 * 7), .word, 7#32⟩ [.poll] :=
  ⟨⟨toWrite 0x18#8 7#32 busyState, rfl, rfl⟩, ⟨toWrite 0x80#8 7#32 busyState, rfl, rfl⟩,
   ⟨toWrite 0x9C#8 7#32 busyState, rfl, rfl⟩⟩

theorem witness_IdleReadsReturnTheRegisters (off : BitVec 8) (_ : off ∈ [0x00#8, 0x60#8, 0x80#8, 0x9C#8, 0x1C#8, 0x3C#8,
    0x64#8, 0x7C#8, 0xA0#8, 0xFC#8]) :
    ∃ s : State, s.Inv ∧ s.busy = false ∧ s.host.pending = .access ⟨false, off, .word, 0#32⟩ :: [.poll] :=
  ⟨toRead off busyState, inv_setPending busyState_inv _, rfl, rfl⟩

theorem witness_CauseReadsAsItsCode (c : Cause) :
    ∃ s : State, s.busy = false ∧ s.latch.cause = c ∧ s.host.pending = .access ⟨false, 0x10#8, .word, 0#32⟩ :: [.poll] :=
  ⟨toRead 0x10#8 (withFault c 0#32 busyState), rfl, rfl, rfl⟩

theorem witness_OutReadsPopTheOldestWord :
    (∃ s : State, s.busy = false ∧ s.Next ⟨false, 0x50#8, .word, 0#32⟩ [.poll] ∧ s.enc.q = []) ∧
    (∃ s : State, s.busy = false ∧ s.Next ⟨false, 0x50#8, .word, 0#32⟩ [.poll] ∧ s.enc.q = 5#32 :: [6#32]) ∧
    (∃ s : State, s.busy = false ∧ s.Next ⟨false, 0x58#8, .word, 0#32⟩ [.poll] ∧ s.dec.q = []) ∧
    ∃ s : State, s.busy = false ∧ s.Next ⟨false, 0x58#8, .word, 0#32⟩ [.poll] ∧ s.dec.q = 0x78#32 :: [0x78#32] :=
  ⟨⟨toRead 0x50#8 rig, rfl, rfl, rfl⟩, ⟨toRead 0x50#8 busyState, rfl, rfl, rfl⟩,
   ⟨toRead 0x58#8 rig, rfl, rfl, rfl⟩, ⟨toRead 0x58#8 busyState, rfl, rfl, rfl⟩⟩

theorem witness_PollEndsWithBusyClear :
    (∃ s : State, s.busyLeft = 0 ∧ s.host.pending = .poll :: [.drainEnc]) ∧
    ∃ s : State, s.busyLeft = 2 ∧ s.host.pending = .poll :: [.drainEnc] :=
  ⟨⟨busyState.setPending [.poll, .drainEnc], rfl, rfl⟩, ⟨(withBusy 2 busyState).setPending [.poll, .drainEnc], rfl, rfl⟩⟩

theorem witness_DrainReadsTheQueueInOrder :
    (∃ s : State, s.Inv ∧ s.busy = false ∧ s.enc.q.length = 2 ∧ s.host.pending = .drainEnc :: [.poll]) ∧
    ∃ s : State, s.Inv ∧ s.busy = false ∧ s.dec.q.length = 2 ∧ s.host.pending = .drainDec :: [.poll] :=
  ⟨⟨busyState.setPending [.drainEnc, .poll], inv_setPending busyState_inv _, rfl, rfl, rfl⟩,
   ⟨busyState.setPending [.drainDec, .poll], inv_setPending busyState_inv _, rfl, rfl, rfl⟩⟩

theorem witness_EveryStepGoesOn : ∃ s : State, s.host.pending = [] ∧ s.enc.isOpen = true := ⟨busyState, rfl, rfl⟩

theorem witness_FaultsArePrecise :
    Instr.genCodes ≠ .softReset ∧ ∃ s t : State, exec .genCodes s = .next t ∧ t.latch ≠ s.latch :=
  ⟨by decide, busyState, after .genCodes busyState, rfl, by decide⟩

theorem witness_FirstFaultIsKeptUntilCleared (w : Word) (_ : w ∈ [0x10000000#32, 0x70000000#32, 0x7F000000#32]) :
    ∃ s t : State, s.latch.err = true ∧ s.Next ⟨true, 0x08#8, .word, w⟩ [.poll] ∧ step s = .next t := by
  refine ⟨toWrite 0x08#8 w (withFault .noTree 0#32 busyState), ?_⟩
  revert w
  simp only [List.mem_cons, List.not_mem_nil, or_false, forall_eq_or_imp, forall_eq]
  exact ⟨⟨_, rfl, rfl, rfl⟩, ⟨_, rfl, rfl, rfl⟩, ⟨_, rfl, rfl, rfl⟩⟩

theorem witness_RstResetsTheBlock : ∃ s : State, s.busy = true ∧ s.host.pending = .rst :: [.poll] :=
  ⟨(withBusy 3 busyState).setPending [.rst, .poll], rfl, rfl⟩

theorem witness_ClearCommandsEmptyTheTables :
    (∃ s : State, s.enc.isOpen = false ∧ s.dec.isOpen = false ∧ 0 < s.ct.n) ∧
    (∃ s : State, s.enc.isOpen = true ∧ s.dec.isOpen = false) ∧ ∃ s : State, s.dec.isOpen = true ∧ s.enc.isOpen = false :=
  ⟨⟨ab, rfl, rfl, by decide⟩, ⟨encoding 0#32 0 0#64 [] ab, rfl, rfl⟩, ⟨decoding 0#255 0 [] ab, rfl, rfl⟩⟩

/-- Present with the largest count, with the count below it, and absent from a table one place short of full. -/
theorem witness_FreqCountCountsOneOccurrence :
    (∃ s : State, s.ft.Wf ∧ 0 < s.ft.n ∧ (s.ft.entry 0).sym = 0x61#8 ∧ (s.ft.entry 0).count = 0xFFFFFFFF#32) ∧
    (∃ s : State, s.ft.Wf ∧ 0 < s.ft.n ∧ (s.ft.entry 0).sym = 0x61#8 ∧ (s.ft.entry 0).count ≠ 0xFFFFFFFF#32 ∧
      (s.ft.entry 0).count = 0xFFFFFFFE#32) ∧
    ∃ s : State, s.ft.Wf ∧ s.ft.n = 255 ∧ ∀ i, i < s.ft.n → (s.ft.entry i).sym ≠ 0xFF#8 :=
  ⟨⟨{ rig with ft := ⟨1, [(0, ⟨0x61#8, 0xFFFFFFFF#32⟩)]⟩ },
      ⟨by decide, by decide, below_two (by decide)⟩, by decide, by decide, by decide⟩,
   ⟨{ rig with ft := ⟨1, [(0, ⟨0x61#8, 0xFFFFFFFE#32⟩)]⟩ },
      ⟨by decide, by decide, below_two (by decide)⟩, by decide, by decide, by decide, by decide⟩,
   ⟨{ rig with ft := ft255 }, ft255_wf, rfl, ft255_absent⟩⟩

theorem witness_FreqLoadSetsTheCount :
    (∃ s : State, s.ft.Wf ∧ 1 < s.ft.n ∧ (s.ft.entry 1).sym = 0x62#8) ∧
    (∃ s : State, s.ft.Wf ∧ s.ft.n = 0 ∧ ∀ i, i < s.ft.n → (s.ft.entry i).sym ≠ 0x61#8) ∧
    ∃ s : State, s.ft.Wf ∧ s.ft.n = 255 ∧ ∀ i, i < s.ft.n → (s.ft.entry i).sym ≠ 0xFF#8 :=
  ⟨⟨ab, ftAB_wf, by decide, by decide⟩,
   ⟨rig, ⟨by decide, by decide, below_two (by decide)⟩, rfl, by decide⟩,
   ⟨{ rig with ft := ft255 }, ft255_wf, rfl, ft255_absent⟩⟩

theorem witness_FreqReadReportsTheSlot : ∃ s : State, (1#8).toNat < s.ft.n ∧ s.ft.n ≤ (2#8).toNat := ⟨ab, by decide, by decide⟩

theorem witness_CountingASequenceIsExact : ([0x61#8, 0x62#8, 0x61#8] : List Byte).length < 2 ^ 32 := by decide

/-- No entry, one entry and two entries. -/
theorem witness_BuildMakesATreeOverTheEntries :
    (∃ s : State, s.ft.Wf ∧ s.tree.mem.wf Node.zero = true ∧ s.ft.n = 0 ∧ s.tree.valid = true) ∧
    (∃ s : State, s.ft.Wf ∧ s.tree.mem.wf Node.zero = true ∧ 0 < s.ft.n ∧ s.ft.n = 1) ∧
    ∃ s : State, s.ft.Wf ∧ s.tree.mem.wf Node.zero = true ∧ 0 < s.ft.n ∧ s.ft.n = 2 :=
  ⟨⟨{ ab with ft := ⟨0, []⟩ }, ⟨by decide, by decide, below_two (by decide)⟩, by decide, rfl, rfl⟩,
   ⟨{ rig with ft := ⟨1, [(0, ⟨0x61#8, 3#32⟩)]⟩ }, ⟨by decide, by decide, below_two (by decide)⟩, by decide, by decide, rfl⟩,
   ⟨ab, ftAB_wf, by decide, by decide, rfl⟩⟩

theorem witness_BuildMergesTheTwoLeastNodes :
    ∃ (s : State) (tr : TreeArena), s.ft.Wf ∧ 0 < s.ft.n ∧ exec .build s = .next { s with tree := tr } ∧
      s.ft.n ≤ 2 ∧ 2 < tr.n :=
  ⟨ab, (after .build ab).tree, ftAB_wf, by decide, rfl, by decide, by decide⟩

theorem witness_RootWeightIsTheSumOfCounts :
    ∃ (s : State) (tr : TreeArena), s.ft.Wf ∧ 0 < s.ft.n ∧ exec .build s = .next { s with tree := tr } :=
  ⟨ab, (after .build ab).tree, ftAB_wf, by decide, rfl⟩

theorem witness_BuildDependsOnTheEntriesInUse :
    ∃ (s s' : State) (tr tr' : TreeArena), 0 < s.ft.n ∧ s'.ft.n = s.ft.n ∧
      (∀ i, i < s.ft.n → s'.ft.entry i = s.ft.entry i) ∧ s.tree ≠ s'.tree ∧
      exec .build s = .next { s with tree := tr } ∧ exec .build s' = .next { s' with tree := tr' } :=
  ⟨ab, { ab with tree := treeT3, latch := Latch.clear }, (after .build ab).tree, (after .build { ab with tree := treeT3 }).tree,
   by decide, rfl, fun _ _ => rfl, by decide, rfl, rfl⟩

theorem witness_NodeReadReportsTheNode :
    (∃ s : State, s.tree.Wf ∧ s.tree.valid = true ∧ (0#9).toNat < s.tree.n ∧
      nodeAt s.tree.mem (0#9).toNat = .leaf 1#40 0x61#8) ∧
    (∃ s : State, s.tree.Wf ∧ s.tree.valid = true ∧ (2#9).toNat < s.tree.n ∧ (2#9).toNat = s.tree.root ∧
      nodeAt s.tree.mem (2#9).toNat = .internal 2#40 0 1) ∧
    (∃ s : State, s.tree.Wf ∧ s.tree.valid = false) ∧
    ∃ s : State, s.tree.Wf ∧ s.tree.n ≤ (3#9).toNat :=
  ⟨⟨ab, treeT1_wf, rfl, by decide, by decide⟩, ⟨ab, treeT1_wf, rfl, by decide, rfl, by decide⟩,
   ⟨rig, ⟨by decide, by decide, fun h => absurd h (by decide)⟩, rfl⟩, ⟨ab, treeT1_wf, by decide⟩⟩

theorem witness_TableCommandsAreRefusedInASession :
    (∃ s : State, s.enc.isOpen = true ∧ s.dec.isOpen = false) ∧ ∃ s : State, s.dec.isOpen = true ∧ s.enc.isOpen = false :=
  ⟨⟨encoding 0#32 0 0#64 [] ab, rfl, rfl⟩, ⟨decoding 0#255 0 [] ab, rfl, rfl⟩⟩

theorem witness_GenCodesAssignsThePaths :
    (∃ s : State, s.enc.isOpen = true ∧ s.dec.isOpen = false) ∧ (∃ s : State, s.dec.isOpen = true ∧ s.enc.isOpen = false) ∧
    (∃ s : State, s.enc.isOpen = false ∧ s.dec.isOpen = false ∧ s.tree.valid = false) ∧
    (∃ s : State, s.enc.isOpen = false ∧ s.dec.isOpen = false ∧ s.tree.valid = true ∧ s.tree.Shape 1) ∧
    ∃ s : State, s.enc.isOpen = false ∧ s.dec.isOpen = false ∧ s.tree.valid = true ∧ s.tree.Shape 2 :=
  ⟨⟨encoding 0#32 0 0#64 [] ab, rfl, rfl⟩, ⟨decoding 0#255 0 [] ab, rfl, rfl⟩, ⟨rig, rfl, rfl, rfl⟩,
   ⟨{ rig with tree := treeT2 }, rfl, rfl, rfl, treeT2_shape⟩, ⟨ab, rfl, rfl, rfl, treeT1_shape⟩⟩

theorem witness_GeneratedCodesArePrefixFree :
    ∃ (s : State) (ct : CodeTable), s.tree.Wf ∧ s.tree.valid = true ∧ s.ct.mem.wf CtEntry.zero = true ∧
      s.enc.isOpen = false ∧ s.dec.isOpen = false ∧ exec .genCodes s = .next { s with ct := ct } :=
  ⟨ab, (after .genCodes ab).ct, treeT1_wf, rfl, by decide, rfl, rfl, rfl⟩

theorem witness_GeneratedCodesAreComplete :
    ∃ (s : State) (ct : CodeTable) (bs : Bits), s.tree.Wf ∧ s.tree.valid = true ∧
      s.enc.isOpen = false ∧ s.dec.isOpen = false ∧ exec .genCodes s = .next { s with ct := ct } ∧ 2 ≤ ct.n ∧ 255 ≤ bs.length :=
  ⟨ab, (after .genCodes ab).ct, List.replicate 255 true, treeT1_wf, rfl, rfl, rfl, rfl, by decide, by rw [List.length_replicate]⟩

theorem witness_CodeReadReportsTheSlot : ∃ s : State, (1#8).toNat < s.ct.n ∧ s.ct.n ≤ (2#8).toNat := ⟨ab, by decide, by decide⟩

/-- A session open; len = 0; a code in use; the symbol's own slot; a new slot with the longest code. -/
theorem witness_CodeLoadSetsTheCode :
    (∃ s : State, s.ct.Wf ∧ s.enc.isOpen = true) ∧ (∃ s : State, s.ct.Wf ∧ s.dec.isOpen = true) ∧
    (∃ s : State, s.ct.Wf ∧ s.enc.isOpen = false ∧ s.dec.isOpen = false ∧ 0#8 = 0#8) ∧
    (∃ s : State, s.ct.Wf ∧ s.enc.isOpen = false ∧ s.dec.isOpen = false ∧ 0 < s.ct.n ∧
      (s.ct.entry 0).code = (List.range (2#8).toNat).map (fun k => (s.cbits[k / 32]?.getD 0#32).getLsbD (31 - k % 32)) ∧
      (s.ct.entry 0).sym ≠ 0x79#8) ∧
    (∃ s : State, s.ct.Wf ∧ s.enc.isOpen = false ∧ s.dec.isOpen = false ∧ s.ct.Holds 0 0x78#8 ∧
      ∀ j, j < s.ct.n →
        (s.ct.entry j).code = (List.range (1#8).toNat).map (fun k => (s.cbits[k / 32]?.getD 0#32).getLsbD (31 - k % 32)) →
        (s.ct.entry j).sym = 0x78#8) ∧
    ∃ s : State, s.ct.Wf ∧ s.enc.isOpen = false ∧ s.dec.isOpen = false ∧ (∀ i, ¬ s.ct.Holds i 0x79#8) ∧
      ∀ j, j < s.ct.n →
        (s.ct.entry j).code = (List.range (255#8).toNat).map (fun k => (s.cbits[k / 32]?.getD 0#32).getLsbD (31 - k % 32)) →
        (s.ct.entry j).sym = 0x79#8 := by
  have none : ∀ i, ¬ ctG14.Holds i 0x79#8 := by
    rintro i ⟨hi, h⟩
    have hn : i < 1 := hi
    interval_cases i
    exact absurd h (by decide)
  have long : ∀ j, j < ctG14.n → ¬ (ctG14.entry j).code =
      (List.range (255#8).toNat).map (fun k => (rig.cbits[k / 32]?.getD 0#32).getLsbD (31 - k % 32)) := by
    intro j hj h
    have hn : j < 1 := hj
    have := congrArg List.length h
    interval_cases j
    simp [CtEntry.code, bitsOf, CodeTable.entry, ctG14, Memory.read] at this
  exact ⟨⟨busyState, ctG14_wf, rfl⟩, ⟨busyState, ctG14_wf, rfl⟩, ⟨{ rig with ct := ctG14 }, ctG14_wf, rfl, rfl, rfl⟩,
    ⟨withCbits0 0x80000000#32 { rig with ct := ctG14 }, ctG14_wf, rfl, rfl, by decide, by decide, by decide⟩,
    ⟨{ rig with ct := ctG14 }, ctG14_wf, rfl, rfl, ⟨by decide, by decide⟩, by decide⟩,
    ⟨{ rig with ct := ctG14 }, ctG14_wf, rfl, rfl, none, fun j hj h => absurd h (long j hj)⟩⟩

theorem witness_CodeTableIsFixedInASession :
    ∃ s t : State, s.enc.isOpen = true ∧ s.Next ⟨true, 0x08#8, .word, 0x32000000#32⟩ [.poll] ∧ step s = .next t :=
  ⟨toWrite 0x08#8 0x32000000#32 busyState, _, rfl, rfl, rfl⟩

theorem witness_PackedWindowHoldsTheCode : (List.replicate 255 true : Bits).length ≤ 255 := by rw [List.length_replicate]

/-- No session; an unknown symbol; a full queue; and a queue one word short of full with the code that fills the pending word. -/
theorem witness_EncSymAppendsTheCode :
    (∃ s : State, s.ct.Wf ∧ s.enc.Wf s.fifoDepth ∧ s.enc.isOpen = false) ∧
    (∃ s : State, s.ct.Wf ∧ s.enc.Wf s.fifoDepth ∧ s.enc.isOpen = true ∧ ∀ i, ¬ s.ct.Holds i 0x7A#8) ∧
    (∃ s : State, s.ct.Wf ∧ s.enc.Wf s.fifoDepth ∧ s.enc.isOpen = true ∧ s.ct.Holds 0 0x61#8 ∧
      s.fifoDepth - s.enc.q.length < (s.enc.fill + (s.ct.entry 0).len.toNat) / 32) ∧
    ∃ s : State, s.ct.Wf ∧ s.enc.Wf s.fifoDepth ∧ s.enc.isOpen = true ∧ s.ct.Holds 1 0x62#8 ∧
      (s.enc.fill + (s.ct.entry 1).len.toNat) / 32 ≤ s.fifoDepth - s.enc.q.length ∧
      s.fifoDepth - s.enc.q.length = 1 ∧ s.enc.fill = 31 := by
  refine ⟨⟨ab, ctG1_wf, ⟨by decide, by decide, by decide, by decide, by decide⟩, rfl⟩,
    ⟨encoding 0#32 0 0#64 [] ab, ctG1_wf, ⟨by decide, by decide, by decide, by decide, by decide⟩, rfl, ?_⟩,
    ⟨encoding 0#32 31 2079#64 (List.replicate 64 0#32) ab, ctG1_wf, ⟨by decide, by decide, by decide, by decide, by decide⟩, rfl,
      ⟨by decide, by decide⟩, by decide⟩,
    ⟨encoding 0#32 31 2047#64 (List.replicate 63 0#32) ab, ctG1_wf, ⟨by decide, by decide, by decide, by decide, by decide⟩, rfl,
      ⟨by decide, by decide⟩, by decide, by decide, rfl⟩⟩
  rintro i ⟨hi, h⟩
  have hn : i < 2 := hi
  interval_cases i <;> exact absurd h (by decide)

theorem witness_EncFlushPushesThePartialWord :
    (∃ s : State, s.enc.Wf s.fifoDepth ∧ s.enc.isOpen = false) ∧
    (∃ s : State, s.enc.Wf s.fifoDepth ∧ s.enc.isOpen = true ∧ s.enc.fill = 0) ∧
    (∃ s : State, s.enc.Wf s.fifoDepth ∧ s.enc.isOpen = true ∧ 0 < s.enc.fill ∧ s.enc.q.length < s.fifoDepth) ∧
    ∃ s : State, s.enc.Wf s.fifoDepth ∧ s.enc.isOpen = true ∧ 0 < s.enc.fill ∧ s.enc.q.length = s.fifoDepth :=
  ⟨⟨ab, ⟨by decide, by decide, by decide, by decide, by decide⟩, rfl⟩,
   ⟨encoding 0#32 0 0#64 [] ab, ⟨by decide, by decide, by decide, by decide, by decide⟩, rfl, rfl⟩,
   ⟨encoding 0#32 31 2047#64 (List.replicate 63 0#32) ab, ⟨by decide, by decide, by decide, by decide, by decide⟩, rfl,
     by decide, by decide⟩,
   ⟨encoding 0#32 1 2049#64 (List.replicate 64 0#32) ab, ⟨by decide, by decide, by decide, by decide, by decide⟩, rfl,
     by decide, by decide⟩⟩

theorem witness_EncodingASequenceGivesItsCodes :
    ∃ (s : State) (S : List Byte), S.length = 2 ∧ s.ct.Wf ∧ (∀ c, c ∈ S → ∃ i, s.ct.Holds i c) ∧
      ((docEncode s.ct S).length + 31) / 32 ≤ s.fifoDepth := by
  refine ⟨ab, [0x61#8, 0x62#8], rfl, ctG1_wf, ?_, by decide⟩
  intro c hc
  simp only [List.mem_cons, List.not_mem_nil, or_false] at hc
  rcases hc with rfl | rfl
  · exact ⟨0, by decide, by decide⟩
  · exact ⟨1, by decide, by decide⟩

/-- The decoder with an empty buffer stands for the empty sequence. -/
theorem follows_nil (q : List Word) (s : State) : (decoding 0#255 0 q s).dec.Follows [] := ⟨rfl, fun _ => rfl⟩

theorem witness_DecWordFollowsTheDocument :
    (∃ s : State, s.dec.Follows [] ∧ s.dec.isOpen = false ∧ (1 ≤ (1#6).toNat ∧ (1#6).toNat ≤ 32)) ∧
    (∃ (s : State) (n : BitVec 6), s.dec.isOpen = true ∧ s.dec.Follows [] ∧ 1 ≤ n.toNat ∧ n.toNat ≤ 32 ∧
      (docDecode s.ct [] ((List.range n.toNat).map (fun j => s.arg0.getLsbD (31 - j)))).1.length ≤
        s.fifoDepth - s.dec.q.length) ∧
    ∃ (s : State) (n : BitVec 6), s.dec.isOpen = true ∧ s.dec.Follows [] ∧ 1 ≤ n.toNat ∧ n.toNat ≤ 32 ∧
      s.fifoDepth - s.dec.q.length <
        (docDecode s.ct [] ((List.range n.toNat).map (fun j => s.arg0.getLsbD (31 - j)))).1.length :=
  ⟨⟨ab, ⟨rfl, fun _ => rfl⟩, rfl, by decide, by decide⟩,
   ⟨decoding 0#255 0 (List.replicate 32 0x61#32) ab, 32#6, rfl, follows_nil _ _, by decide, by decide, by decide +kernel⟩,
   ⟨decoding 0#255 0 (List.replicate 64 0x61#32) ab, 1#6, rfl, follows_nil _ _, by decide, by decide, by decide⟩⟩

theorem witness_DecCharDecodesBitCharactersOnly :
    (∃ s : State, s.dec.Follows [] ∧ s.dec.isOpen = false) ∧
    (∃ (s : State) (c : Byte), s.dec.isOpen = true ∧ s.dec.Follows [] ∧ c ≠ 0x30#8 ∧ c ≠ 0x31#8) ∧
    (∃ s : State, s.dec.isOpen = true ∧ s.dec.Follows [] ∧
      (docDecode s.ct [] [true]).1.length ≤ s.fifoDepth - s.dec.q.length) ∧
    ∃ s : State, s.dec.isOpen = true ∧ s.dec.Follows [] ∧
      s.fifoDepth - s.dec.q.length < (docDecode s.ct [] [true]).1.length :=
  ⟨⟨ab, ⟨rfl, fun _ => rfl⟩, rfl⟩, ⟨decoding 0#255 0 [] ab, 0x2F#8, rfl, follows_nil _ _, by decide, by decide⟩,
   ⟨decoding 0#255 0 (List.replicate 63 0x61#32) ab, rfl, follows_nil _ _, by decide⟩,
   ⟨decoding 0#255 0 (List.replicate 64 0x61#32) ab, rfl, follows_nil _ _, by decide⟩⟩

theorem witness_DecEndAsksForAnEmptyBuffer :
    (∃ s : State, s.dec.isOpen = false) ∧ (∃ s : State, s.dec.isOpen = true ∧ s.dec.len = 0) ∧
    ∃ s : State, s.dec.isOpen = true ∧ s.dec.len ≠ 0 ∧ s.dec.len = 256 :=
  ⟨⟨ab, rfl⟩, ⟨decoding 0#255 0 [] ab, rfl, rfl⟩, ⟨decoding 0#255 256 [] ab, rfl, by decide, rfl⟩⟩

theorem witness_TextDecodesAsItsBitCharacters :
    ∃ (s : State) (text : List Byte), s.dec.isOpen = true ∧ s.dec.Follows [] ∧ 0x0A#8 ∈ text ∧
      (docDecode s.ct [] (textBits text)).1.length ≤ s.fifoDepth - s.dec.q.length :=
  ⟨decoding 0#255 0 [] ab, [0x30#8, 0x0A#8, 0x31#8], rfl, follows_nil _ _, by decide, by decide⟩

theorem witness_RoundTripRecoversTheSequence :
    ∃ (S : List Byte) (s : State), S ≠ [] ∧ S.length < 2 ^ 32 ∧ s.enc.isOpen = false ∧ s.dec.isOpen = false :=
  ⟨[0x61#8, 0x62#8], ab, by decide, by decide, rfl, rfl⟩

theorem witness_CommandsWriteOnlyTheirUnit : ∃ s t : State, exec (.encSym 0x78#8) s = .next t ∧ t.enc ≠ s.enc :=
  ⟨busyState, after (.encSym 0x78#8) busyState, rfl, by decide⟩

/-- An accepted ENC_SYM from a state that meets the whole invariant: the premises of the four invariant statements. -/
theorem witness_StepKeepsTheInvariant :
    ∃ s t : State, s.Inv ∧ s.ft.Wf ∧ s.tree.Wf ∧ step s = .next t ∧ t.enc ≠ s.enc :=
  ⟨toWrite 0x08#8 0x41000078#32 busyState, _, inv_setPending busyState_inv _, ftAB_wf, treeT1_wf, rfl, by decide⟩

theorem witness_StepKeepsTheSessionsAndTheLatch :
    ∃ s t : State, s.Inv ∧ step s = .next t ∧ t.latch ≠ s.latch :=
  ⟨toWrite 0x08#8 0x41000079#32 busyState, _, inv_setPending busyState_inv _, rfl, by decide⟩

theorem witness_StepKeepsTheTreeShape :
    ∃ s t : State, s.ft.Wf ∧ s.tree.Wf ∧ step s = .next t ∧ t.ft ≠ s.ft :=
  ⟨toWrite 0x08#8 0x11000079#32 busyState, _, ftAB_wf, treeT1_wf, rfl, by decide⟩

/-- The premises of the literal reading of R34 are met by a session about to be flushed. -/
theorem witness_EncFillIsNbitsMod32AtAllTimes :
    ∃ s t : State, s.Inv ∧ s.enc.fill = s.enc.nbits.toNat % 32 ∧ step s = .next t :=
  ⟨toWrite 0x08#8 0x42000000#32 busyState, _, inv_setPending busyState_inv _, by decide, rfl⟩

/-- A flush that ends the equation, and a symbol that keeps it. -/
theorem witness_EncFillIsNbitsMod32UntilAFlush :
    (∃ s t : State, s.enc.fill = s.enc.nbits.toNat % 32 ∧ step s = .next t ∧ t.enc.fill ≠ t.enc.nbits.toNat % 32) ∧
    ∃ s t : State, s.enc.fill = s.enc.nbits.toNat % 32 ∧ step s = .next t ∧ t.enc ≠ s.enc ∧
      t.enc.fill = t.enc.nbits.toNat % 32 :=
  ⟨⟨toWrite 0x08#8 0x42000000#32 busyState, _, by decide, rfl, by decide⟩,
   ⟨toWrite 0x08#8 0x41000078#32 busyState, _, by decide, rfl, by decide, by decide⟩⟩

/-- CT with one code of 255 bits, all 0: one ENC_SYM pushes seven words. -/
def longCode : State := { rig with ct := ⟨1, [(0, ⟨0x61#8, 255#8, 0#255⟩)]⟩ }

theorem exec_encFlush_after (s : State) : exec .encFlush s = .next (after .encFlush s) := by
  show execEncFlush s = .next (landed s (execEncFlush s))
  unfold execEncFlush fault
  split
  · rfl
  · split <;> rfl

/-- A session that pushes words and takes one of them before it ends. -/
theorem witness_EncodingADrainedSessionGivesItsCodes :
    ∃ (s s0 t u : State) (use : List EncodeUse) (ws : List Word), exec .encStart s = .next s0 ∧
      runEncode use s0 = some (ws, t) ∧ exec .encFlush t = .next u ∧ u.latch.err = false ∧ ws.length = 1 ∧ u.enc.q.length = 7 :=
  let s0 := after .encStart longCode
  let use : List EncodeUse := [.sym 0x61#8, .take]
  let r := (runEncode use s0).getD ([], s0)
  ⟨longCode, s0, r.2, after .encFlush r.2, use, r.1, rfl, by decide +kernel, exec_encFlush_after _, by decide +kernel, by decide +kernel,
    by decide +kernel⟩

theorem witness_RoundTripByCommandsRecoversTheSequence :
    ∃ (s : State) (S : List Byte), 32 ≤ s.fifoDepth ∧ s.enc.isOpen = false ∧ s.dec.isOpen = false ∧ s.latch.err = false ∧
      S ≠ [] ∧ S.length < 2 ^ 32 :=
  ⟨{ ab with fifoDepth := 32 }, [0x61#8, 0x62#8], by decide, rfl, rfl, rfl, by decide, by decide⟩

end Sys2Proof.Tests
end

section
/-! What each command can do, said once, and the induction over steps that the invariants use. -/

namespace Sys2Proof.Machine

/-- The commands that can end in a latched fault (R240). -/
def mayFault : Instr → Bool
  | .freqCount _ | .build | .genCodes | .codeClear | .codeLoad _ _ | .encSym _ | .encFlush | .decWord _ | .decChar _
  | .decEnd => true
  | .nop | .freqClear | .freqLoad _ | .freqRead _ | .nodeRead _ | .codeRead _ | .encStart | .decStart | .errClear
  | .softReset => false

/-- Everything a command can do from `s`: a fault that writes the latch only, or the effect of its rule under the guards of
that rule. -/
inductive Effect (s : State) : Instr → State → Prop where
  | raised {i : Instr} {c : Cause} (w : Word) : mayFault i = true → c ≠ .noFault → Effect s i (raise c w s)
  | nop : Effect s .nop s
  | freqClear : Effect s .freqClear { s with ft := { s.ft with n := 0 } }
  | freqCount {sym : Byte} {k : Nat} : s.ft.find sym = some k → (s.ft.entry k).count ≠ 0xFFFFFFFF#32 →
      Effect s (.freqCount sym)
        { s with ft := s.ft.setEntry k { s.ft.entry k with count := (s.ft.entry k).count + 1 } }
  | freqCountNew {sym : Byte} : s.ft.find sym = none →
      Effect s (.freqCount sym) { s with ft := s.ft.append ⟨sym, 1#32⟩ }
  | freqLoad {sym : Byte} {k : Nat} : s.ft.find sym = some k →
      Effect s (.freqLoad sym) { s with ft := s.ft.setEntry k { s.ft.entry k with count := s.arg0 } }
  | freqLoadNew {sym : Byte} : s.ft.find sym = none →
      Effect s (.freqLoad sym) { s with ft := s.ft.append ⟨sym, s.arg0⟩ }
  | freqRead {slot : Byte} (r0 r1 : Word) : Effect s (.freqRead slot) (setRes r0 r1 0#32 0#32 s)
  | build : s.ft.n ≠ 0 → Effect s .build { s with
      tree := { valid := true, n := (mergeAll s.ft s.tree.mem).next, root := (mergeAll s.ft s.tree.mem).live.headD 0,
                mem := (mergeAll s.ft s.tree.mem).mem } }
  | nodeRead {idx : BitVec 9} (r0 r1 r2 r3 : Word) : Effect s (.nodeRead idx) (setRes r0 r1 r2 r3 s)
  | genCodes : s.sessionOpen = false → s.tree.valid = true → Effect s .genCodes { s with
      ct := { n := (s.tree.n + 1) / 2, mem := walk s.tree.mem s.tree.n s.tree.root [] s.ct.mem } }
  | codeRead {slot : Byte} (r0 : Word) (window : Vector Word 8) :
      Effect s (.codeRead slot) (setRes r0 0#32 0#32 0#32 { s with cbits := window })
  | codeClear : s.sessionOpen = false → Effect s .codeClear { s with ct := { s.ct with n := 0 } }
  | codeLoad {sym len : Byte} {k : Nat} : s.sessionOpen = false → len ≠ 0#8 → s.ct.find sym = some k →
      (∀ j, s.ct.matchCode (codeBits s.cbits len.toNat) = some j → (s.ct.entry j).sym = sym) →
      Effect s (.codeLoad sym len)
        { s with ct := s.ct.setEntry k (CtEntry.ofCode sym (codeBits s.cbits len.toNat)) }
  | codeLoadNew {sym len : Byte} : s.sessionOpen = false → len ≠ 0#8 → s.ct.find sym = none →
      (∀ j, s.ct.matchCode (codeBits s.cbits len.toNat) = some j → (s.ct.entry j).sym = sym) →
      Effect s (.codeLoad sym len)
        { s with ct := { s.ct.setEntry s.ct.n (CtEntry.ofCode sym (codeBits s.cbits len.toNat)) with n := s.ct.n + 1 } }
  | encStart : Effect s .encStart { s with enc := ⟨true, 0#32, 0, 0#64, []⟩ }
  | encSym {sym : Byte} {k : Nat} : s.enc.isOpen = true → s.ct.find sym = some k →
      (s.enc.fill + (s.ct.entry k).len.toNat) / 32 ≤ s.free s.enc.q →
      Effect s (.encSym sym) { s with enc := putBits s.enc (s.ct.entry k).code }
  | encFlush : s.enc.isOpen = true → (0 < s.enc.fill → 1 ≤ s.free s.enc.q) → Effect s .encFlush { s with
      enc := ⟨false, 0#32, 0, s.enc.nbits, if 0 < s.enc.fill then s.enc.q ++ [s.enc.acc] else s.enc.q⟩ }
  | decStart : Effect s .decStart { s with dec := ⟨true, 0#255, 0, 0#32, []⟩ }
  | decWord {n : BitVec 6} (bs : Bits) : s.dec.isOpen = true → pushes s.ct s.dec bs ≤ s.free s.dec.q →
      Effect s (.decWord n) { s with dec := decodeBits s.ct s.dec bs }
  | decSkip {c : Byte} : s.dec.isOpen = true → charBit c = none → Effect s (.decChar c) s
  | decChar {c : Byte} (b : Bool) : s.dec.isOpen = true → charBit c = some b →
      pushes s.ct s.dec [b] ≤ s.free s.dec.q →
      Effect s (.decChar c) { s with dec := decodeBits s.ct s.dec [b] }
  | decEnd : s.dec.isOpen = true → s.dec.len = 0 → Effect s .decEnd { s with dec := { s.dec with isOpen := false } }
  | errClear : Effect s .errClear (clearLatch s)
  | softReset : Effect s .softReset (blockReset s)

/-- The outcome is a next state that the command's rule allows. -/
def Effective (i : Instr) (s : State) (o : Host.Outcome State Fault Refusal) : Prop := ∃ t, o = .next t ∧ Effect s i t

theorem Effective.of_effect {i : Instr} {s t : State} (h : Effect s i t) : Effective i s (.next t) := ⟨t, rfl, h⟩

theorem Effective.of_fault {i : Instr} {s : State} {c : Cause} {w : Word} (hi : mayFault i = true) (hc : c ≠ .noFault) :
    Effective i s (fault c w s) := ⟨_, rfl, .raised w hi hc⟩

theorem execFreqCount_effective (sym : Byte) (s : State) : Effective (.freqCount sym) s (execFreqCount sym s) := by
  unfold execFreqCount
  split
  · next k hk =>
    dsimp only
    split
    · exact .of_fault rfl (by decide)
    · next hc => exact .of_effect (.freqCount hk hc)
  · next hk => exact .of_effect (.freqCountNew hk)

theorem execFreqLoad_effective (sym : Byte) (s : State) : Effective (.freqLoad sym) s (execFreqLoad sym s) := by
  unfold execFreqLoad
  split
  · next k hk => exact .of_effect (.freqLoad hk)
  · next hk => exact .of_effect (.freqLoadNew hk)

theorem execFreqRead_effective (slot : Byte) (s : State) : Effective (.freqRead slot) s (execFreqRead slot s) := by
  unfold execFreqRead
  split <;> exact .of_effect (.freqRead _ _)

theorem execBuild_effective (s : State) : Effective .build s (execBuild s) := by
  unfold execBuild
  split
  · exact .of_fault rfl (by decide)
  · next hn => exact .of_effect (.build hn)

theorem execNodeRead_effective (idx : BitVec 9) (s : State) : Effective (.nodeRead idx) s (execNodeRead idx s) := by
  unfold execNodeRead
  split
  · dsimp only
    split <;> exact .of_effect (.nodeRead _ _ _ _)
  · exact .of_effect (.nodeRead _ _ _ _)

theorem execGenCodes_effective (s : State) : Effective .genCodes s (execGenCodes s) := by
  unfold execGenCodes
  split
  · exact .of_fault rfl (by decide)
  · next ho =>
    split
    · exact .of_fault rfl (by decide)
    · next hv => exact .of_effect (.genCodes (by simpa using ho) (by simpa using hv))

theorem execCodeRead_effective (slot : Byte) (s : State) : Effective (.codeRead slot) s (execCodeRead slot s) := by
  unfold execCodeRead
  split <;> exact .of_effect (.codeRead _ _)

theorem execCodeClear_effective (s : State) : Effective .codeClear s (execCodeClear s) := by
  unfold execCodeClear
  split
  · exact .of_fault rfl (by decide)
  · next ho => exact .of_effect (.codeClear (by simpa using ho))

theorem execCodeLoad_effective (sym len : Byte) (s : State) :
    Effective (.codeLoad sym len) s (execCodeLoad sym len s) := by
  unfold execCodeLoad
  split
  · exact .of_fault rfl (by decide)
  · next ho =>
    have ho : s.sessionOpen = false := by simpa using ho
    split
    · exact .of_fault rfl (by decide)
    · next hlen =>
      dsimp only
      split
      · next j hj =>
        split
        · next hsym =>
          have hown : ∀ j', s.ct.matchCode (codeBits s.cbits len.toNat) = some j' → (s.ct.entry j').sym = sym := by
            rw [hj]
            rintro j' ⟨⟩
            exact hsym
          split
          · next k hk => exact .of_effect (.codeLoad ho hlen hk hown)
          · next hk => exact .of_effect (.codeLoadNew ho hlen hk hown)
        · exact .of_fault rfl (by decide)
      · next hj =>
        have hown : ∀ j', s.ct.matchCode (codeBits s.cbits len.toNat) = some j' → (s.ct.entry j').sym = sym := by
          rw [hj]
          rintro j' ⟨⟩
        split
        · next k hk => exact .of_effect (.codeLoad ho hlen hk hown)
        · next hk => exact .of_effect (.codeLoadNew ho hlen hk hown)

theorem execEncSym_effective (sym : Byte) (s : State) : Effective (.encSym sym) s (execEncSym sym s) := by
  unfold execEncSym
  split
  · exact .of_fault rfl (by decide)
  · next ho =>
    split
    · exact .of_fault rfl (by decide)
    · next k hk =>
      dsimp only
      split
      · exact .of_fault rfl (by decide)
      · next hfit => exact .of_effect (.encSym (by simpa using ho) hk (Nat.le_of_not_lt hfit))

theorem execEncFlush_effective (s : State) : Effective .encFlush s (execEncFlush s) := by
  unfold execEncFlush
  split
  · exact .of_fault rfl (by decide)
  · next ho =>
    split
    · exact .of_fault rfl (by decide)
    · next hfit => exact .of_effect (.encFlush (by simpa using ho) (by simpa [Nat.one_le_iff_ne_zero] using hfit))

theorem decodeOrOverflow_effective {i : Instr} {bs : Bits} {w : Word} {s : State} (hi : mayFault i = true)
    (h : pushes s.ct s.dec bs ≤ s.free s.dec.q → Effect s i { s with dec := decodeBits s.ct s.dec bs }) :
    Effective i s (decodeOrOverflow bs w s) := by
  unfold decodeOrOverflow
  split
  · exact .of_fault hi (by decide)
  · next hfit => exact .of_effect (h (Nat.le_of_not_lt hfit))

theorem execDecWord_effective (n : BitVec 6) (s : State) : Effective (.decWord n) s (execDecWord n s) := by
  unfold execDecWord
  split
  · exact .of_fault rfl (by decide)
  · split
    · exact .of_fault rfl (by decide)
    · next ho => exact decodeOrOverflow_effective rfl (.decWord _ (by simpa using ho))

theorem execDecChar_effective (c : Byte) (s : State) : Effective (.decChar c) s (execDecChar c s) := by
  unfold execDecChar
  split
  · exact .of_fault rfl (by decide)
  · next ho =>
    split
    · next hc => exact .of_effect (.decSkip (by simpa using ho) hc)
    · next b hc => exact decodeOrOverflow_effective rfl (.decChar b (by simpa using ho) hc)

theorem execDecEnd_effective (s : State) : Effective .decEnd s (execDecEnd s) := by
  unfold execDecEnd
  split
  · exact .of_fault rfl (by decide)
  · next ho =>
    split
    · exact .of_fault rfl (by decide)
    · next hl => exact .of_effect (.decEnd (by simpa using ho) (by simpa using hl))

/-- Every command, from every state, answers a next state that its rule allows (R241). -/
theorem exec_effective (i : Instr) (s : State) : Effective i s (exec i s) := by
  cases i with
  | nop => exact .of_effect .nop
  | freqClear => exact .of_effect .freqClear
  | freqCount sym => exact execFreqCount_effective sym s
  | freqLoad sym => exact execFreqLoad_effective sym s
  | freqRead slot => exact execFreqRead_effective slot s
  | build => exact execBuild_effective s
  | nodeRead idx => exact execNodeRead_effective idx s
  | genCodes => exact execGenCodes_effective s
  | codeRead slot => exact execCodeRead_effective slot s
  | codeClear => exact execCodeClear_effective s
  | codeLoad sym len => exact execCodeLoad_effective sym len s
  | encStart => exact .of_effect .encStart
  | encSym sym => exact execEncSym_effective sym s
  | encFlush => exact execEncFlush_effective s
  | decStart => exact .of_effect .decStart
  | decWord n => exact execDecWord_effective n s
  | decChar c => exact execDecChar_effective c s
  | decEnd => exact execDecEnd_effective s
  | errClear => exact .of_effect .errClear
  | softReset => exact .of_effect .softReset

/-- What a command that answers `t` has done. -/
theorem exec_cases {i : Instr} {s t : State} (h : exec i s = .next t) : Effect s i t := by
  obtain ⟨u, hu, he⟩ := exec_effective i s
  rw [h] at hu
  cases hu
  exact he

/-! ### Invariants over steps -/

/-- A property of the block that no part of a step ends: the host's side and BUSY do not matter to it, and it is kept by quiet
accesses, by faults, by the reset of the block and by every command. -/
structure Kept (P : State → Prop) : Prop where
  host : ∀ (s : State) (b : Nat) (h : HostSide), P s → P { s with busyLeft := b, host := h }
  quiet : ∀ s t : State, P s → Quiet s t → P t
  raised : ∀ (s : State) (c : Cause) (w : Word), c ≠ .noFault → P s → P (raise c w s)
  reset : ∀ s : State, P s → P (blockReset s)
  effect : ∀ (i : Instr) (s t : State), P s → Effect s i t → P t

/-- Every step keeps a kept property (R20, R253). -/
theorem Kept.step {P : State → Prop} (hP : Kept P) {s t : State} (hs : P s) (h : Machine.step s = .next t) : P t := by
  have pending (u : State) (as : List HostAction) (hu : P u) : P (u.setPending as) := hP.host u u.busyLeft _ hu
  have respond (u : State) (r : Response) (hu : P u) : P (respond r u) := hP.host u u.busyLeft _ hu
  have busy (u : State) (hu : P u) : P (startBusy u) := hP.host u _ _ hu
  obtain ⟨-, rfl⟩ | ⟨rest, -, rfl⟩ | ⟨a, rest, u, as, -, hq, ht⟩ | ⟨w, rest, -, -, -, hw⟩ := step_cases h
  · exact hs
  · exact hP.reset _ (pending s rest hs)
  · have hu : P u := hP.quiet _ _ (pending s rest hs) hq
    obtain rfl | rfl := ht
    · exact hu
    · exact pending u as hu
  · have hr : P (Machine.respond .written (s.setPending rest)) := respond _ _ (pending s rest hs)
    obtain ⟨i, u, -, hu, rfl⟩ | ⟨-, -, rfl⟩ := hw
    · exact busy u (hP.effect i _ u hr (exec_cases hu))
    · exact busy _ (hP.raised _ _ _ (by decide) hr)

end Sys2Proof.Machine
end

section
/-! The frequency table's invariant: pairwise distinct symbols leave room for one that is missing (R43, R112). -/

namespace Sys2Proof.Machine

/-- Distinct bytes that leave one byte out are fewer than 256. -/
theorem lt_nMax_of_missing {n : Nat} {f : Nat → Byte} {c : Byte}
    (hinj : ∀ i j, i < n → j < n → f i = f j → i = j) (hmiss : ∀ i, i < n → f i ≠ c) : n < Config.nMax := by
  have himage : (Finset.range n).image (fun i => (f i).toNat) ⊆ (Finset.range 256).erase c.toNat := by
    intro b hb
    obtain ⟨i, hi, rfl⟩ := Finset.mem_image.mp hb
    rw [Finset.mem_erase, Finset.mem_range]
    exact ⟨fun h => hmiss i (Finset.mem_range.mp hi) (BitVec.eq_of_toNat_eq h), (f i).isLt⟩
  have hcard : ((Finset.range n).image (fun i => (f i).toNat)).card = n := by
    rw [Finset.card_image_of_injOn, Finset.card_range]
    intro i hi j hj h
    exact hinj i j (by simpa using hi) (by simpa using hj) (BitVec.eq_of_toNat_eq h)
  have hle := Finset.card_le_card himage
  rw [hcard, Finset.card_erase_of_mem (by simpa using c.isLt), Finset.card_range] at hle
  simp only [Config.nMax]
  omega

/-- One more value that is none of the first `n` keeps them pairwise distinct. -/
theorem distinct_push {β : Type} {n : Nat} {f g : Nat → β} (hinj : ∀ i j, i < n → j < n → f i = f j → i = j)
    (hold : ∀ i, i < n → g i = f i) (hnew : ∀ i, i < n → f i ≠ g n) :
    ∀ i j, i < n + 1 → j < n + 1 → g i = g j → i = j := by
  intro i j hi hj h
  rcases Nat.lt_succ_iff_lt_or_eq.mp hi with hi | rfl <;> rcases Nat.lt_succ_iff_lt_or_eq.mp hj with hj | rfl
  · exact hinj i j hi hj (by rw [← hold i hi, ← hold j hj, h])
  · exact absurd (by rw [← hold i hi, h]) (hnew i hi)
  · exact absurd (by rw [← hold j hj, h]) (hnew j hj)
  · rfl

theorem FreqTable.entry_append (t : FreqTable) (e : FtEntry) (j : Nat) :
    (t.append e).entry j = if j = t.n then e else t.entry j :=
  FreqTable.entry_setEntry t t.n j e

@[simp] theorem FreqTable.append_n (t : FreqTable) (e : FtEntry) : (t.append e).n = t.n + 1 := rfl

theorem FreqTable.Wf.clear {t : FreqTable} (h : t.Wf) : FreqTable.Wf { t with n := 0 } :=
  ⟨Nat.zero_le _, h.canonical, nofun⟩

/-- A symbol that the table does not hold finds a free slot (R112, R113). -/
theorem FreqTable.Wf.lt_of_find_none {t : FreqTable} (h : t.Wf) {sym : Byte} (hn : t.find sym = none) :
    t.n < Config.nMax :=
  lt_nMax_of_missing h.distinct (FreqTable.find_none.mp hn)

/-- A new count in the slot of its symbol. -/
theorem FreqTable.Wf.setCount {t : FreqTable} (h : t.Wf) (k : Nat) (c : BitVec 32) :
    (t.setEntry k { t.entry k with count := c }).Wf where
  bound := h.bound
  canonical := FreqTable.setEntry_wf h.canonical k _
  distinct := by
    have hsym (i : Nat) : ((t.setEntry k { t.entry k with count := c }).entry i).sym = (t.entry i).sym := by
      rw [FreqTable.entry_setEntry]
      split
      · next hi => rw [hi]
      · rfl
    intro i j hi hj hij
    exact h.distinct i j hi hj (by rw [← hsym i, ← hsym j, hij])

/-- A new entry for a symbol that the table does not hold. -/
theorem FreqTable.Wf.append {t : FreqTable} (h : t.Wf) {e : FtEntry} (hn : t.find e.sym = none) : (t.append e).Wf where
  bound := h.lt_of_find_none hn
  canonical := FreqTable.setEntry_wf h.canonical t.n e
  distinct := by
    refine distinct_push (f := fun i => (t.entry i).sym) h.distinct (fun i hi => ?_) fun i hi => ?_
    · rw [FreqTable.entry_append, if_neg (Nat.ne_of_lt hi)]
    · rw [FreqTable.entry_append, if_pos rfl]
      exact FreqTable.find_none.mp hn i hi

theorem reset_ft_wf : State.reset.ft.Wf := ⟨Nat.zero_le _, rfl, nofun⟩

/-- Every command keeps the frequency table's invariant (R43). -/
theorem Effect.ft_wf {i : Instr} {s t : State} (he : Effect s i t) (h : s.ft.Wf) : t.ft.Wf := by
  cases he with
  | freqClear => exact h.clear
  | freqCount hk hc => exact h.setCount _ _
  | freqCountNew hn => exact h.append hn
  | freqLoad hk => exact h.setCount _ _
  | freqLoadNew hn => exact h.append hn
  | softReset => exact reset_ft_wf
  | _ => exact h

end Sys2Proof.Machine
end

section
/-! The merge of BUILD leaves a tree (R44, R130, R134). -/

namespace Sys2Proof.Machine

@[simp] theorem not_hasChild_leaf (w : BitVec 40) (sym : Byte) (c : Nat) : ¬ (Node.leaf w sym).hasChild c := id

@[simp] theorem hasChild_internal {w : BitVec 40} {a b c : Nat} :
    (Node.internal w a b).hasChild c ↔ a = c ∨ b = c := .rfl

/-- The merge of the table's entries under way: the nodes below NEXT are a forest over the entries' leaves, LIVE lists its
roots, and every turn makes LIVE one shorter (R130). -/
structure MergeState.Forest (t : FreqTable) (g : MergeState) : Prop where
  leaf : ∀ k, k < t.n → nodeAt g.mem k = .leaf ((t.entry k).count.setWidth 40) (t.entry k).sym
  leavesFirst : t.n ≤ g.next
  internal : ∀ k, t.n ≤ k → k < g.next → (nodeAt g.mem k).isInternal = true
  childBelow : ∀ k c, k < g.next → (nodeAt g.mem k).hasChild c → c < k
  twoChildren : ∀ k w a b, k < g.next → nodeAt g.mem k = .internal w a b → a ≠ b
  oneParent : ∀ p q c, p < g.next → q < g.next → (nodeAt g.mem p).hasChild c → (nodeAt g.mem q).hasChild c → p = q
  live : ∀ j, j ∈ g.live ↔ LiveAt g.mem g.next j
  nodup : g.live.Nodup
  newest : ∃ k, g.next = k + 1 ∧ k ∈ g.live
  count : g.live.length + g.next = 2 * t.n

/-- The seeded leaves are a forest of single nodes (R130). -/
theorem seed_forest (t : FreqTable) (m : Memory Node) (hn : t.n ≠ 0) :
    MergeState.Forest t { mem := seedLeaves t m, live := List.range t.n, next := t.n } := by
  have hleaf (k : Nat) (hk : k < t.n) :
      nodeAt (seedLeaves t m) k = .leaf ((t.entry k).count.setWidth 40) (t.entry k).sym := by
    rw [nodeAt_seedLeaves, if_pos hk]
  have hnone (k c : Nat) (hk : k < t.n) : ¬ (nodeAt (seedLeaves t m) k).hasChild c := by
    rw [hleaf k hk]
    exact not_hasChild_leaf _ _ _
  exact {
    leaf := hleaf
    leavesFirst := Nat.le_refl _
    internal := fun k hk hk' => absurd hk' (Nat.not_lt.mpr hk)
    childBelow := fun k c hk h => absurd h (hnone k c hk)
    twoChildren := fun k w a b hk h => by rw [hleaf k hk] at h; cases h
    oneParent := fun p q c hp _ h => absurd h (hnone p c hp)
    live := fun j => by simpa [LiveAt] using fun _ p hp => hnone p j hp
    nodup := List.nodup_range
    newest := ⟨t.n - 1, by simp only; omega, List.mem_range.mpr (by omega)⟩
    count := by simp only [List.length_range]; omega }

/-- The parents once the node that joins `a` and `b` stands at NEXT. -/
theorem hasChild_setNode_next {m : Memory Node} {n p c a b : Nat} {w : BitVec 40} (hp : p < n + 1) :
    (nodeAt (setNode m n (.internal w a b)) p).hasChild c ↔
      (p < n ∧ (nodeAt m p).hasChild c) ∨ (p = n ∧ (a = c ∨ b = c)) := by
  rw [nodeAt_setNode]
  split
  · next hpn => simp [hpn]
  · next hpn => simp [hpn, show p < n by omega]

/-- Joining two nodes makes the new node live and them no longer. -/
theorem liveAt_setNode_next {m : Memory Node} {n a b : Nat} {w : BitVec 40} (ha : a < n) (hb : b < n)
    (hbelow : ∀ k c, k < n → (nodeAt m k).hasChild c → c < k) (j : Nat) :
    LiveAt (setNode m n (.internal w a b)) (n + 1) j ↔ j = n ∨ (j ≠ b ∧ j ≠ a ∧ LiveAt m n j) := by
  constructor
  · rintro ⟨hj, hfree⟩
    rcases Nat.lt_succ_iff_lt_or_eq.mp hj with hj | rfl
    · have hnew := hfree n (Nat.lt_succ_self n)
      rw [hasChild_setNode_next (Nat.lt_succ_self n)] at hnew
      refine .inr ⟨by rintro rfl; simp at hnew, by rintro rfl; simp at hnew, hj, fun p hp hpc => ?_⟩
      exact hfree p (Nat.lt_succ_of_lt hp) ((hasChild_setNode_next (Nat.lt_succ_of_lt hp)).mpr (.inl ⟨hp, hpc⟩))
    · exact .inl rfl
  · rintro (rfl | ⟨hjb, hja, hj, hfree⟩)
    · refine ⟨Nat.lt_succ_self _, fun p hp hpc => ?_⟩
      rcases (hasChild_setNode_next hp).mp hpc with ⟨hp, hpc⟩ | ⟨rfl, hab⟩
      · exact Nat.lt_asymm hp (hbelow p _ hp hpc)
      · omega
    · refine ⟨Nat.lt_succ_of_lt hj, fun p hp hpc => ?_⟩
      rcases (hasChild_setNode_next hp).mp hpc with ⟨hp, hpc⟩ | ⟨-, hab⟩
      · exact hfree p hp hpc
      · omega

/-- A turn of the loop keeps the forest: its two trees get a new common root (R130, R132). -/
theorem MergeState.Forest.mergeStep {t : FreqTable} {g g' : MergeState} (h : g.Forest t) (hg : mergeStep g = some g') :
    g'.Forest t := by
  obtain ⟨a, b, ha, hb, -, -, rfl⟩ := mergeStep_some hg
  have hba : b ≠ a := (h.nodup.mem_erase_iff.mp hb).1
  obtain ⟨halt, hafree⟩ := (h.live a).mp ha
  obtain ⟨hblt, hbfree⟩ := (h.live b).mp (List.mem_of_mem_erase hb)
  generalize (nodeAt g.mem a).weight + (nodeAt g.mem b).weight = w
  have hold (k : Nat) (hk : k ≠ g.next) : nodeAt (setNode g.mem g.next (.internal w a b)) k = nodeAt g.mem k := by
    rw [nodeAt_setNode, if_neg hk]
  have hnew : nodeAt (setNode g.mem g.next (.internal w a b)) g.next = .internal w a b := by
    rw [nodeAt_setNode, if_pos rfl]
  -- `a` and `b` are live, so no node before the new one has them as children
  have hfresh (p c : Nat) (hp : p < g.next) (hpc : (nodeAt g.mem p).hasChild c) : ¬ (a = c ∨ b = c) := by
    rintro (rfl | rfl)
    · exact hafree p hp hpc
    · exact hbfree p hp hpc
  refine {
    leaf := fun k hk => by rw [hold k (Nat.ne_of_lt (Nat.lt_of_lt_of_le hk h.leavesFirst)), h.leaf k hk]
    leavesFirst := Nat.le_succ_of_le h.leavesFirst
    internal := fun k hk hk' => ?_
    childBelow := fun k c hk hc => ?_
    twoChildren := fun k v x y hk hxy => ?_
    oneParent := fun p q c hp hq hpc hqc => ?_
    live := fun j => ?_
    nodup := ?_
    newest := ⟨g.next, rfl, List.mem_cons_self⟩
    count := ?_ }
  · rcases Nat.lt_succ_iff_lt_or_eq.mp hk' with hk' | rfl
    · rw [hold k (Nat.ne_of_lt hk')]
      exact h.internal k hk hk'
    · rw [hnew]
      rfl
  · rcases (hasChild_setNode_next hk).mp hc with ⟨hk, hc⟩ | ⟨rfl, rfl | rfl⟩
    · exact h.childBelow k c hk hc
    · exact halt
    · exact hblt
  · rcases Nat.lt_succ_iff_lt_or_eq.mp hk with hk | rfl
    · rw [hold k (Nat.ne_of_lt hk)] at hxy
      exact h.twoChildren k v x y hk hxy
    · rw [hnew] at hxy
      cases hxy
      exact hba.symm
  · rcases (hasChild_setNode_next hp).mp hpc with ⟨hp, hpold⟩ | ⟨rfl, hpnew⟩ <;>
      rcases (hasChild_setNode_next hq).mp hqc with ⟨hq, hqold⟩ | ⟨rfl, hqnew⟩
    · exact h.oneParent p q c hp hq hpold hqold
    · exact absurd hqnew (hfresh p c hp hpold)
    · exact absurd hpnew (hfresh q c hq hqold)
    · rfl
  · rw [liveAt_setNode_next halt hblt h.childBelow, List.mem_cons, (h.nodup.erase a).mem_erase_iff, h.nodup.mem_erase_iff,
      h.live j]
  · refine List.nodup_cons.mpr ⟨fun hmem => ?_, (h.nodup.erase a).erase b⟩
    exact absurd ((h.live _).mp (List.mem_of_mem_erase (List.mem_of_mem_erase hmem))).1 (Nat.lt_irrefl _)
  · have hlena := List.length_erase_of_mem ha
    have hlenb := List.length_erase_of_mem hb
    have hposb := List.length_pos_of_mem hb
    have := h.count
    simp only [List.length_cons]
    omega

/-- The loop keeps the forest, and with enough turns fewer than two nodes are left live. -/
theorem MergeState.Forest.mergeLoop {t : FreqTable} (turns : Nat) {g : MergeState} (h : g.Forest t) :
    (mergeLoop turns g).Forest t ∧ (g.live.length ≤ turns + 1 → (Machine.mergeLoop turns g).live.length < 2) := by
  induction turns generalizing g with
  | zero => exact ⟨h, fun hl => by simpa [Machine.mergeLoop] using Nat.lt_succ_of_le hl⟩
  | succ n ih =>
    simp only [Machine.mergeLoop]
    split
    · next hnone => exact ⟨h, fun _ => mergeStep_none.mp hnone⟩
    · next g' hg =>
      have h' := h.mergeStep hg
      obtain ⟨hforest, hend⟩ := ih h'
      refine ⟨hforest, fun hl => hend ?_⟩
      obtain ⟨a, b, -, -, -, -, rfl⟩ := mergeStep_some hg
      have h1 := h.count
      have h2 := h'.count
      simp only at h2 ⊢
      omega

/-- The merge of `n` entries ends with one live node, the newest of `2n - 1` (R134). -/
theorem mergeAll_forest (t : FreqTable) (m : Memory Node) (hn : t.n ≠ 0) :
    (mergeAll t m).Forest t ∧ ∃ k, (mergeAll t m).next = k + 1 ∧ (mergeAll t m).live = [k] := by
  obtain ⟨hforest, hend⟩ : (mergeAll t m).Forest t ∧ (mergeAll t m).live.length < 2 := by
    obtain ⟨hforest, hend⟩ := (seed_forest t m hn).mergeLoop t.n
    exact ⟨hforest, hend (by simp)⟩
  refine ⟨hforest, ?_⟩
  obtain ⟨k, hk, hmem⟩ := hforest.newest
  have hlen := List.length_pos_of_mem hmem
  obtain ⟨r, hr⟩ := List.length_eq_one_iff.mp (by omega : (mergeAll t m).live.length = 1)
  rw [hr, List.mem_singleton] at hmem
  exact ⟨k, hk, by rw [hmem, hr]⟩

/-- BUILD's arena is a tree over the entries of the table (R44, R133, R134). -/
theorem mergeAll_shape {t : FreqTable} (ht : t.Wf) (m : Memory Node) (hn : t.n ≠ 0) :
    TreeArena.Shape ⟨true, (mergeAll t m).next, (mergeAll t m).live.headD 0, (mergeAll t m).mem⟩ t.n := by
  obtain ⟨h, k, hnext, hlive⟩ := mergeAll_forest t m hn
  have hcount := h.count
  rw [hlive, List.length_singleton] at hcount
  exact {
    leaves := ⟨Nat.one_le_iff_ne_zero.mpr hn, ht.bound⟩
    count := by simp only; omega
    root := by simp [hlive, hnext]
    leafBelow := fun j hj => by simp only [h.leaf j hj, Node.isInternal]
    internalAbove := h.internal
    childBelow := h.childBelow
    twoChildren := h.twoChildren
    oneParent := fun c hc => by
      simp only [hlive, List.headD_cons] at hc
      have hdead : ¬ LiveAt (mergeAll t m).mem (mergeAll t m).next c := by
        rw [← h.live c, hlive, List.mem_singleton]
        omega
      simp only [LiveAt, not_and, not_forall, not_not] at hdead
      obtain ⟨p, hp, hpc⟩ := hdead (by omega)
      exact ⟨p, hp, hpc, fun q hq hqc => h.oneParent q p c hq hp hqc hpc⟩
    distinct := fun i j w w' sym hi hj hw hw' => by
      rw [h.leaf i hi] at hw
      rw [h.leaf j hj] at hw'
      cases hw
      exact ht.distinct i j hi hj (by injection hw' with _ hs; exact hs.symm) }

/-- BUILD leaves a well-formed tree arena (R44). -/
theorem mergeAll_wf {t : FreqTable} (ht : t.Wf) {m : Memory Node} (hm : m.wf Node.zero = true) (hn : t.n ≠ 0) :
    TreeArena.Wf ⟨true, (mergeAll t m).next, (mergeAll t m).live.headD 0, (mergeAll t m).mem⟩ where
  canonical := mergeLoop_wf t.n (seedLeaves_wf t hm)
  absent := nofun
  present := fun _ => ⟨t.n, mergeAll_shape ht m hn⟩

theorem reset_tree_wf : State.reset.tree.Wf := ⟨rfl, fun _ => ⟨rfl, rfl⟩, nofun⟩

/-- Every command keeps the tree arena's invariant (R44). -/
theorem Effect.tree_wf {i : Instr} {s t : State} (he : Effect s i t) (hft : s.ft.Wf) (h : s.tree.Wf) : t.tree.Wf := by
  cases he with
  | build hn => exact mergeAll_wf hft h.canonical hn
  | softReset => exact reset_tree_wf
  | _ => exact h

/-- A quiet access changes neither FT nor NODE. -/
theorem Quiet.tables {s t : State} (h : Quiet s t) : t.ft = s.ft ∧ t.tree = s.tree ∧ t.ct = s.ct := by
  cases h <;> exact ⟨rfl, rfl, rfl⟩

/-- No part of a step ends the invariants of FT and of the tree. -/
theorem kept_ft_tree : Kept fun s => s.ft.Wf ∧ s.tree.Wf where
  host := fun _ _ _ h => h
  quiet := fun s t h hq => by
    obtain ⟨hft, htree, -⟩ := hq.tables
    rwa [hft, htree]
  raised := fun _ _ _ _ h => h
  reset := fun _ _ => ⟨reset_ft_wf, reset_tree_wf⟩
  effect := fun _ _ _ ⟨hft, htree⟩ he => ⟨he.ft_wf hft, he.tree_wf hft htree⟩

end Sys2Proof.Machine
end

section
/-! Paths in the tree, and the code table that GEN_CODES walks out of it (R44, R150, R151). -/

namespace Sys2Proof.Machine

@[simp] theorem follow_nil (m : Memory Node) (k : Nat) : follow m k [] = some k := rfl

theorem follow_leaf {m : Memory Node} {k : Nat} {w : BitVec 40} {sym : Byte} (h : nodeAt m k = .leaf w sym) (b : Bool)
    (p : Bits) : follow m k (b :: p) = none := by
  simp [follow, h]

theorem follow_internal {m : Memory Node} {k l r : Nat} {w : BitVec 40} (h : nodeAt m k = .internal w l r) (b : Bool)
    (p : Bits) : follow m k (b :: p) = follow m (if b then r else l) p := by
  simp [follow, h]

/-- The last edge of a path leads from an internal node to one of its children. -/
theorem follow_concat {m : Memory Node} {k c : Nat} {p : Bits} {b : Bool} (h : follow m k (p ++ [b]) = some c) :
    ∃ j w l r, follow m k p = some j ∧ nodeAt m j = .internal w l r ∧ (if b then r else l) = c := by
  induction p generalizing k with
  | nil =>
    cases hk : nodeAt m k with
    | leaf w sym => rw [List.nil_append, follow_leaf hk] at h; cases h
    | internal w l r =>
      rw [List.nil_append, follow_internal hk, follow_nil, Option.some_inj] at h
      exact ⟨k, w, l, r, rfl, hk, h⟩
  | cons d p ih =>
    cases hk : nodeAt m k with
    | leaf w sym => rw [List.cons_append, follow_leaf hk] at h; cases h
    | internal w l r =>
      rw [List.cons_append, follow_internal hk] at h
      rw [follow_internal hk]
      exact ih h

theorem follow_concat_child {m : Memory Node} {k j l r : Nat} {p : Bits} {w : BitVec 40} (h : follow m k p = some j)
    (hj : nodeAt m j = .internal w l r) (b : Bool) : follow m k (p ++ [b]) = some (if b then r else l) := by
  induction p generalizing k with
  | nil =>
    cases h
    rw [List.nil_append, follow_internal hj, follow_nil]
  | cons d p ih =>
    cases hk : nodeAt m k with
    | leaf w sym => rw [follow_leaf hk] at h; cases h
    | internal w l r =>
      rw [follow_internal hk] at h
      rw [List.cons_append, follow_internal hk]
      exact ih h

theorem Node.hasChild_side {w : BitVec 40} {l r : Nat} (b : Bool) :
    (Node.internal w l r).hasChild (if b then r else l) := by
  cases b <;> simp

theorem Node.exists_side {nd : Node} {c : Nat} (h : nd.hasChild c) :
    ∃ (b : Bool) (w : BitVec 40) (l r : Nat), nd = .internal w l r ∧ (if b then r else l) = c := by
  cases nd with
  | leaf w sym => exact absurd h (not_hasChild_leaf w sym c)
  | internal w l r =>
    rcases h with rfl | rfl
    · exact ⟨false, w, l, r, rfl, rfl⟩
    · exact ⟨true, w, l, r, rfl, rfl⟩

theorem side_injective {l r : Nat} (h : l ≠ r) {b b' : Bool} (hb : (if b then r else l) = if b' then r else l) :
    b = b' := by
  cases b <;> cases b' <;> simp [h, h.symm] at hb ⊢

section
variable {t : TreeArena} {n : Nat}

theorem TreeArena.Shape.root_lt (h : t.Shape n) : t.root < t.n := by
  have := h.root
  omega

/-- Each edge of a path leads to a smaller index. -/
theorem TreeArena.Shape.follow_add_length_le (h : t.Shape n) {p : Bits} {k j : Nat} (hk : k < t.n)
    (hp : follow t.mem k p = some j) : j + p.length ≤ k := by
  induction p generalizing k with
  | nil => cases hp; exact Nat.le_refl _
  | cons b p ih =>
    cases hnd : nodeAt t.mem k with
    | leaf w sym => rw [follow_leaf hnd] at hp; cases hp
    | internal w l r =>
      rw [follow_internal hnd] at hp
      have hlt := h.childBelow k (if b then r else l) hk (hnd ▸ Node.hasChild_side b)
      have := ih (Nat.lt_trans hlt hk) hp
      rw [List.length_cons]
      omega

theorem TreeArena.Shape.follow_le_root (h : t.Shape n) {p : Bits} {j : Nat} (hp : follow t.mem t.root p = some j) :
    j + p.length ≤ t.root :=
  h.follow_add_length_le h.root_lt hp

/-- A path of one or more edges ends below the root. -/
theorem TreeArena.Shape.follow_concat_lt_root (h : t.Shape n) {p : Bits} {b : Bool} {j : Nat}
    (hp : follow t.mem t.root (p ++ [b]) = some j) : j < t.root := by
  have := h.follow_le_root hp
  rw [List.length_append, List.length_singleton] at this
  omega

/-- There is one path from the root to a node (R44). -/
theorem TreeArena.Shape.follow_unique (h : t.Shape n) {p q : Bits} {j : Nat} (hp : follow t.mem t.root p = some j)
    (hq : follow t.mem t.root q = some j) : p = q := by
  induction p using List.reverseRecOn generalizing j q with
  | nil =>
    cases hp
    rcases List.eq_nil_or_concat' q with rfl | ⟨q, b, rfl⟩
    · rfl
    · exact absurd (h.follow_concat_lt_root hq) (Nat.lt_irrefl _)
  | append_singleton p b ih =>
    rcases List.eq_nil_or_concat' q with rfl | ⟨q, b', rfl⟩
    · cases hq
      exact absurd (h.follow_concat_lt_root hp) (Nat.lt_irrefl _)
    · have hroot := h.follow_concat_lt_root hp
      obtain ⟨i, w, l, r, hi, hnode, hside⟩ := follow_concat hp
      obtain ⟨i', w', l', r', hi', hnode', hside'⟩ := follow_concat hq
      have hilt : i < t.n := by have := h.follow_le_root hi; have := h.root_lt; omega
      have hilt' : i' < t.n := by have := h.follow_le_root hi'; have := h.root_lt; omega
      obtain ⟨parent, -, -, honly⟩ := h.oneParent j hroot
      have hii : i = i' := by
        rw [honly i hilt (by rw [hnode, ← hside]; exact Node.hasChild_side b),
          honly i' hilt' (by rw [hnode', ← hside']; exact Node.hasChild_side b')]
      subst hii
      rw [hnode] at hnode'
      cases hnode'
      have hne := h.twoChildren i w l r hilt hnode
      have hbb : b = b' := side_injective hne (by rw [hside, hside'])
      rw [ih hi hi', hbb]

/-- Every node has a path from the root (R44). -/
theorem TreeArena.Shape.exists_path (h : t.Shape n) {j : Nat} (hj : j ≤ t.root) :
    ∃ p, follow t.mem t.root p = some j := by
  induction hd : t.root - j using Nat.strongRecOn generalizing j with
  | ind d ih =>
    rcases Nat.eq_or_lt_of_le hj with rfl | hlt
    · exact ⟨[], rfl⟩
    · obtain ⟨i, hi, hchild, -⟩ := h.oneParent j hlt
      have hji := h.childBelow i j hi hchild
      have hroot := h.root
      obtain ⟨p, hp⟩ := ih (t.root - i) (by omega) (by omega) rfl
      obtain ⟨b, w, l, r, hnode, rfl⟩ := Node.exists_side hchild
      exact ⟨p ++ [b], follow_concat_child hp hnode b⟩

/-- A path has at most as many edges as there are internal nodes, so at most 255 (R44, R152). -/
theorem TreeArena.Shape.path_length_lt (h : t.Shape n) {p : Bits} {j : Nat} (hp : follow t.mem t.root p = some j) :
    p.length < n := by
  obtain ⟨hpos, -⟩ := h.leaves
  rcases List.eq_nil_or_concat' p with rfl | ⟨q, b, rfl⟩
  · exact hpos
  · obtain ⟨i, w, l, r, hi, hnode, -⟩ := follow_concat hp
    have hle := h.follow_le_root hi
    have hin : n ≤ i := by
      by_contra hlt
      have := h.leafBelow i (Nat.lt_of_not_le hlt)
      rw [hnode] at this
      cases this
    have := h.root
    have := h.count
    rw [List.length_append, List.length_singleton]
    omega

theorem TreeArena.Shape.leaf_of_lt (h : t.Shape n) {k : Nat} (hk : k < n) : ∃ w sym, nodeAt t.mem k = .leaf w sym := by
  have := h.leafBelow k hk
  cases hnode : nodeAt t.mem k with
  | leaf w sym => exact ⟨w, sym, rfl⟩
  | internal w l r => rw [hnode] at this; cases this

end

theorem read_setCode (m : Memory CtEntry) (i j : Nat) (e : CtEntry) :
    Memory.read CtEntry.zero (setCode m i e) j = if j = i then e else Memory.read CtEntry.zero m j :=
  Memory.read_write m i j e

/-- The walk writes only slots of leaves that it reaches (R150). -/
theorem read_walk_unreached {nodes : Memory Node} {depth k j : Nat} {p : Bits} {codes : Memory CtEntry}
    (h : ∀ q, follow nodes k q = some j → (nodeAt nodes j).isInternal = true) :
    Memory.read CtEntry.zero (walk nodes depth k p codes) j = Memory.read CtEntry.zero codes j := by
  induction depth generalizing k p codes with
  | zero => rfl
  | succ d ih =>
    simp only [walk]
    split
    · next w sym hk =>
      rw [read_setCode, if_neg]
      rintro rfl
      have := h [] rfl
      rw [hk] at this
      cases this
    · next w l r hk =>
      rw [ih fun q hq => h (true :: q) (by rw [follow_internal hk]; exact hq),
        ih fun q hq => h (false :: q) (by rw [follow_internal hk]; exact hq)]

/-- The walk gives a leaf that it reaches by one path only the code of that path (R150, R151). -/
theorem read_walk_leaf {nodes : Memory Node} {depth k j : Nat} {p q : Bits} {codes : Memory CtEntry} {w : BitVec 40}
    {sym : Byte} (hleaf : nodeAt nodes j = .leaf w sym) (hq : follow nodes k q = some j) (hdepth : q.length < depth)
    (honly : ∀ q', follow nodes k q' = some j → q' = q) :
    Memory.read CtEntry.zero (walk nodes depth k p codes) j = CtEntry.ofCode sym (leafCode (p ++ q)) := by
  induction depth generalizing k p q codes with
  | zero => exact absurd hdepth (Nat.not_lt_zero _)
  | succ d ih =>
    simp only [walk]
    split
    · next w' sym' hk =>
      cases q with
      | cons b q => rw [follow_leaf hk] at hq; cases hq
      | nil =>
        cases hq
        rw [hleaf] at hk
        cases hk
        rw [read_setCode, if_pos rfl, List.append_nil]
    · next w' l r hk =>
      have below (b : Bool) (q' : Bits) : follow nodes k (b :: q') = follow nodes (if b then r else l) q' :=
        follow_internal hk b q'
      cases q with
      | nil =>
        cases hq
        rw [hleaf] at hk
        cases hk
      | cons b q =>
        rw [below] at hq
        have hd : q.length < d := Nat.lt_of_succ_lt_succ hdepth
        have honly' (q' : Bits) (hq' : follow nodes (if b then r else l) q' = some j) : q' = q :=
          List.tail_eq_of_cons_eq (honly (b :: q') (by rw [below]; exact hq'))
        cases b with
        | true => rw [ih (k := r) hq hd honly', List.append_assoc, List.singleton_append]
        | false =>
          rw [read_walk_unreached fun q' hq' => ?_, ih (k := l) hq hd honly', List.append_assoc, List.singleton_append]
          have := honly (true :: q') (by rw [below]; exact hq')
          cases this

/-- The table that GEN_CODES makes of a tree, over what CT held. -/
def generatedCodes (t : TreeArena) (codes : Memory CtEntry) : CodeTable :=
  { n := (t.n + 1) / 2, mem := walk t.mem t.n t.root [] codes }

theorem TreeArena.Shape.generatedCodes_n {t : TreeArena} {n : Nat} (h : t.Shape n) (codes : Memory CtEntry) :
    (generatedCodes t codes).n = n := by
  have := h.count
  simp only [generatedCodes]
  omega

/-- GEN_CODES gives the symbol of each leaf its path, in the slot of the leaf's index (R150, R151). -/
theorem TreeArena.Shape.generatedCodes_entry {t : TreeArena} {n : Nat} (h : t.Shape n) (codes : Memory CtEntry) {k : Nat}
    (hk : k < n) : ∃ p w sym, follow t.mem t.root p = some k ∧ nodeAt t.mem k = .leaf w sym ∧
      (generatedCodes t codes).entry k = CtEntry.ofCode sym (leafCode p) := by
  obtain ⟨w, sym, hleaf⟩ := h.leaf_of_lt hk
  obtain ⟨p, hp⟩ := h.exists_path (j := k) (by have := h.root; have := h.count; omega)
  have hdepth : p.length < t.n := by have := h.path_length_lt hp; have := h.count; omega
  exact ⟨p, w, sym, hp, hleaf, read_walk_leaf hleaf hp hdepth fun q hq => h.follow_unique hq hp⟩

/-- The slots from the number of leaves on keep what they held. -/
theorem TreeArena.Shape.generatedCodes_entry_unused {t : TreeArena} {n : Nat} (h : t.Shape n) (codes : Memory CtEntry)
    {k : Nat} (hk : n ≤ k) : (generatedCodes t codes).entry k = Memory.read CtEntry.zero codes k := by
  refine read_walk_unreached fun q hq => h.internalAbove k hk ?_
  have := h.follow_le_root hq
  have := h.root_lt
  omega

theorem leafCode_of_ne_nil {p : Bits} (h : p ≠ []) : leafCode p = p := by
  simp [leafCode, h]

theorem leafCode_length_pos (p : Bits) : 0 < (leafCode p).length := by
  cases p <;> simp [leafCode]

theorem leafCode_length_le {p : Bits} (h : p.length ≤ 255) : (leafCode p).length ≤ 255 := by
  cases p with
  | nil => simp [leafCode]
  | cons b p => exact h

theorem CtEntry.ofCode_len_ne_zero {sym : Byte} {p : Bits} (hpos : 0 < p.length) (h : p.length ≤ 255) :
    (CtEntry.ofCode sym p).len ≠ 0#8 := by
  intro hz
  have := CtEntry.ofCode_len (sym := sym) h
  rw [hz] at this
  exact hpos.ne this

/-- An entry made of a code has no bit beyond the code. -/
theorem CtEntry.ofCode_clean {sym : Byte} {p : Bits} (h : p.length ≤ 255) {k : Nat}
    (hk : (CtEntry.ofCode sym p).len.toNat ≤ k) : (CtEntry.ofCode sym p).bits.getLsbD k = false := by
  rw [CtEntry.ofCode_len h] at hk
  by_cases hk' : k < 255
  · simp only [CtEntry.ofCode, getLsbD_storeBits p k hk']
    exact List.getD_eq_default _ _ hk
  · exact BitVec.getLsbD_of_ge _ _ (Nat.le_of_not_lt hk')

/-- The generated table meets R45's invariant: its codes are the paths of different leaves (R152). -/
theorem TreeArena.Shape.generatedCodes_wf {t : TreeArena} {n : Nat} (h : t.Shape n) {codes : Memory CtEntry}
    (hcodes : codes.wf CtEntry.zero = true) : (generatedCodes t codes).Wf := by
  have hn := h.generatedCodes_n codes
  obtain ⟨-, hmax⟩ := h.leaves
  simp only [Config.nMax] at hmax
  have hshort {p : Bits} {k : Nat} (hp : follow t.mem t.root p = some k) : (leafCode p).length ≤ 255 :=
    leafCode_length_le (by have := h.path_length_lt hp; omega)
  refine {
    bound := by rw [hn]; exact hmax
    canonical := walk_wf _ _ _ _ hcodes
    nonempty := fun i hi => ?_
    clean := fun i k hi hk => ?_
    distinct := fun i j hi hj hij => ?_
    codes := fun i j hi hj hij => ?_ } <;>
  rw [hn] at hi <;>
  obtain ⟨p, w, sym, hp, hleaf, hentry⟩ := h.generatedCodes_entry codes hi
  · rw [hentry]
    exact CtEntry.ofCode_len_ne_zero (leafCode_length_pos p) (hshort hp)
  · rw [hentry] at hk ⊢
    exact CtEntry.ofCode_clean (hshort hp) hk
  · rw [hn] at hj
    obtain ⟨p', w', sym', -, hleaf', hentry'⟩ := h.generatedCodes_entry codes hj
    rw [hentry, hentry', CtEntry.ofCode_sym, CtEntry.ofCode_sym] at hij
    subst hij
    exact h.distinct i j w w' sym hi hj hleaf hleaf'
  · rw [hn] at hj
    obtain ⟨p', w', sym', hp', -, hentry'⟩ := h.generatedCodes_entry codes hj
    rw [hentry, hentry', CtEntry.ofCode_code (hshort hp), CtEntry.ofCode_code (hshort hp')] at hij
    by_cases hone : n = 1
    · omega
    · -- with two leaves or more the root is no leaf, so no leaf has the empty path
      have hpath {q : Bits} {k : Nat} (hk : k < n) (hq : follow t.mem t.root q = some k) : q ≠ [] := by
        rintro rfl
        cases hq
        have := h.root
        have := h.count
        omega
      rw [leafCode_of_ne_nil (hpath hi hp), leafCode_of_ne_nil (hpath hj hp')] at hij
      rw [hij, hp'] at hp
      cases hp
      rfl

theorem CodeTable.Wf.clear {t : CodeTable} (h : t.Wf) : CodeTable.Wf { t with n := 0 } :=
  ⟨Nat.zero_le _, h.canonical, nofun, nofun, nofun, nofun⟩

/-- A proper entry stored at a slot, when no other slot has its symbol or its code, in place or at the table's end. -/
theorem CodeTable.Wf.store {t : CodeTable} (h : t.Wf) {n k : Nat} {e : CtEntry} (hn : n ≤ Config.nMax)
    (hold : ∀ i, i < n → i ≠ k → i < t.n) (hlen : e.len ≠ 0#8)
    (hclean : ∀ j, e.len.toNat ≤ j → e.bits.getLsbD j = false)
    (hsym : ∀ i, i < n → i ≠ k → (t.entry i).sym ≠ e.sym) (hcode : ∀ i, i < n → i ≠ k → (t.entry i).code ≠ e.code) :
    CodeTable.Wf { t.setEntry k e with n := n } := by
  have hentry (i : Nat) : CodeTable.entry { t.setEntry k e with n := n } i = if i = k then e else t.entry i :=
    CodeTable.entry_setEntry t k i e
  refine {
    bound := hn
    canonical := setCode_wf h.canonical k e
    nonempty := fun i hi => ?_
    clean := fun i j hi hj => ?_
    distinct := fun i j hi hj hij => ?_
    codes := fun i j hi hj hij => ?_ }
  · rw [hentry]
    split
    · exact hlen
    · next hik => exact h.nonempty i (hold i hi hik)
  · rw [hentry] at hj ⊢
    split at hj <;> rename_i hik
    · rw [if_pos hik]
      exact hclean j hj
    · rw [if_neg hik]
      exact h.clean i j (hold i hi hik) hj
  · rw [hentry, hentry] at hij
    split at hij <;> rename_i hik <;> split at hij <;> rename_i hjk
    · rw [hik, hjk]
    · exact absurd hij.symm (hsym j hj hjk)
    · exact absurd hij (hsym i hi hik)
    · exact h.distinct i j (hold i hi hik) (hold j hj hjk) hij
  · rw [hentry, hentry] at hij
    split at hij <;> rename_i hik <;> split at hij <;> rename_i hjk
    · rw [hik, hjk]
    · exact absurd hij.symm (hcode j hj hjk)
    · exact absurd hij (hcode i hi hik)
    · exact h.codes i j (hold i hi hik) (hold j hj hjk) hij

theorem reset_ct_wf : State.reset.ct.Wf := ⟨Nat.zero_le _, rfl, nofun, nofun, nofun, nofun⟩

end Sys2Proof.Machine
end

section
/-! The encoder, the decoder and the latch, and the invariant of the whole state (R26, R27, R46 to R48, R72). -/

namespace Sys2Proof.Machine

/-- Appending a sequence appends its bits to the bitstream, in whole words and a clean rest (R181). -/
theorem putBits_effect {e : Encoder} (h : e.Clean) (p : Bits) :
    (putBits e p).stream = e.stream ++ p ∧ (putBits e p).Clean ∧ (putBits e p).isOpen = e.isOpen ∧
      (putBits e p).fill = (e.fill + p.length) % 32 ∧ (putBits e p).nbits = e.nbits + BitVec.ofNat 64 p.length ∧
      e.q <+: (putBits e p).q ∧ (putBits e p).q.length = e.q.length + (e.fill + p.length) / 32 := by
  induction p generalizing e with
  | nil =>
    obtain ⟨hf, -⟩ := id h
    refine ⟨by simp [putBits], h, rfl, ?_, by simp [putBits], List.prefix_rfl, ?_⟩
    · simp only [putBits, List.foldl_nil, List.length_nil]; omega
    · simp only [putBits, List.foldl_nil, List.length_nil]; omega
  | cons b p ih =>
    obtain ⟨hstream, hclean, hopen, hfill, hnbits, hpre, hlen⟩ := putBit_effect h b
    obtain ⟨hstream', hclean', hopen', hfill', hnbits', hpre', hlen'⟩ := ih hclean
    have hcons : putBits e (b :: p) = putBits (putBit e b) p := rfl
    rw [hcons]
    refine ⟨?_, hclean', hopen'.trans hopen, ?_, ?_, hpre.trans hpre', ?_⟩
    · rw [hstream', hstream, List.append_assoc, List.singleton_append]
    · rw [hfill', hfill, List.length_cons]; omega
    · rw [hnbits', hnbits, List.length_cons, BitVec.add_assoc, Nat.add_comm p.length 1, BitVec.ofNat_add]; rfl
    · rw [hlen', hlen, hfill, List.length_cons]; omega

/-- ENC_FILL = ENC_NBITS mod 32 (R34). -/
def Encoder.Counted (e : Encoder) : Prop := e.fill = e.nbits.toNat % 32

/-- PutBit keeps ENC_FILL = ENC_NBITS mod 32, whatever the accumulator holds (R34, R181). -/
theorem Encoder.Counted.putBit {e : Encoder} (h : e.Counted) (b : Bool) : (putBit e b).Counted := by
  have hn : (e.nbits + 1#64).toNat % 32 = (e.nbits.toNat + 1) % 32 := by
    rw [BitVec.toNat_add]
    simp only [BitVec.toNat_ofNat]
    omega
  simp only [Encoder.Counted] at h
  simp only [Machine.putBit]
  split <;> simp only [Encoder.Counted] <;> refine Eq.trans ?_ hn.symm <;> omega

theorem Encoder.Counted.putBits {e : Encoder} (h : e.Counted) (p : Bits) : (putBits e p).Counted := by
  induction p generalizing e with
  | nil => exact h
  | cons b p ih => exact ih (h.putBit b)

theorem Encoder.Wf.toClean {depth : Nat} {e : Encoder} (h : e.Wf depth) : e.Clean := ⟨h.fill, h.clean⟩

theorem Encoder.wf_fresh (depth : Nat) (isOpen : Bool) : Encoder.Wf depth ⟨isOpen, 0#32, 0, 0#64, []⟩ :=
  ⟨Nat.zero_le _, fun _ _ => BitVec.getLsbD_zero, Nat.zero_le _, fun _ => rfl, fun _ => ⟨rfl, rfl⟩⟩

/-- ENC_SYM keeps the encoder's invariant when the completed words fit the queue (R182). -/
theorem Encoder.Wf.putBits {depth : Nat} {e : Encoder} (h : e.Wf depth) (hopen : e.isOpen = true) {p : Bits}
    (hfit : (e.fill + p.length) / 32 ≤ depth - e.q.length) : (putBits e p).Wf depth := by
  obtain ⟨-, ⟨hfill, hclean⟩, hopen', -, -, -, hlen⟩ := putBits_effect h.toClean p
  have hq := h.queue
  have hcount : e.Counted := h.count hopen
  exact ⟨hfill, hclean, by rw [hlen]; omega, fun _ => hcount.putBits p, fun hc => by rw [hopen', hopen] at hc; cases hc⟩

/-- ENC_FLUSH leaves nothing pending and, when the partial word fits, keeps the queue within its depth (R183). -/
theorem Encoder.Wf.flush {depth : Nat} {e : Encoder} (h : e.Wf depth) (hfit : 0 < e.fill → 1 ≤ depth - e.q.length) :
    Encoder.Wf depth ⟨false, 0#32, 0, e.nbits, if 0 < e.fill then e.q ++ [e.acc] else e.q⟩ := by
  refine ⟨Nat.zero_le _, fun _ _ => BitVec.getLsbD_zero, ?_, nofun, fun _ => ⟨rfl, rfl⟩⟩
  simp only
  split
  · next hpos =>
    have := hfit hpos
    rw [List.length_append, List.length_singleton]
    omega
  · exact h.queue

theorem Encoder.Wf.pop {depth : Nat} {e : Encoder} (h : e.Wf depth) : Encoder.Wf depth { e with q := e.q.tail } :=
  ⟨h.fill, h.clean, by have := h.queue; rw [List.length_tail]; omega, h.count, h.closed⟩

/-- Every command keeps the encoder's invariant (R46, R72). -/
theorem Effect.enc_wf {i : Instr} {s t : State} (he : Effect s i t) (h : s.enc.Wf s.fifoDepth) :
    t.enc.Wf t.fifoDepth := by
  cases he with
  | encStart => exact Encoder.wf_fresh _ _
  | encSym hopen hk hfit => exact h.putBits hopen (by rwa [CtEntry.code_length])
  | encFlush hopen hfit => exact h.flush hfit
  | softReset => exact Encoder.wf_fresh _ _
  | _ => exact h

/-- What DecodeBit can do: nothing on a dead buffer, emit a symbol, or keep the bit in a buffer that matches no code (R201). -/
theorem decodeBit_cases (t : CodeTable) (d : Decoder) (b : Bool) :
    decodeBit t d b = d ∨
    (d.len ≠ Config.dlenDead ∧ ((∃ i, decodeBit t d b = (d.accumulate b).emit (t.entry i).sym) ∨
      (decodeBit t d b = d.accumulate b ∧
        ((d.accumulate b).len ≤ Config.maxCodeLen → t.matchCode (d.accumulate b).candidate = none)))) := by
  simp only [decodeBit]
  split
  · exact .inl rfl
  · next hdead =>
    refine .inr ⟨by simpa [Decoder.dead] using hdead, ?_⟩
    split
    · split
      · next i _ => exact .inl ⟨i, rfl⟩
      · next hmatch => exact .inr ⟨rfl, fun _ => hmatch⟩
    · next hlong => exact .inr ⟨rfl, fun hle => absurd hle hlong⟩

theorem decodeBits_queue (t : CodeTable) (d : Decoder) (bs : Bits) : d.q <+: (decodeBits t d bs).q := by
  induction bs generalizing d with
  | nil => exact List.prefix_rfl
  | cons b bs ih => exact (decodeBit_queue t d b).trans (ih _)

theorem decodeBit_isOpen (t : CodeTable) (d : Decoder) (b : Bool) : (decodeBit t d b).isOpen = d.isOpen := by
  obtain h | ⟨-, ⟨i, h⟩ | ⟨h, -⟩⟩ := decodeBit_cases t d b <;> rw [h] <;> rfl

theorem decodeBits_isOpen (t : CodeTable) (d : Decoder) (bs : Bits) : (decodeBits t d bs).isOpen = d.isOpen := by
  induction bs generalizing d with
  | nil => rfl
  | cons b bs ih => exact (ih _).trans (decodeBit_isOpen t d b)

/-- A buffer with no bit beyond its length stays so when a bit is appended (R47, R201). -/
theorem Decoder.accumulate_clean {d : Decoder} (h : ∀ k, d.len ≤ k → d.buf.getLsbD k = false) (b : Bool) {k : Nat}
    (hk : d.len + 1 ≤ k) : (d.accumulate b).buf.getLsbD k = false := by
  simp only [Decoder.accumulate]
  split
  · by_cases hk' : k < 255
    · rw [getLsbD_setBit _ _ _ _ hk', if_neg (by omega)]
      exact h k (by omega)
    · exact BitVec.getLsbD_of_ge _ _ (Nat.le_of_not_lt hk')
  · exact h k (by omega)

section
variable {depth : Nat} {t : CodeTable} {d : Decoder}

theorem Decoder.wf_fresh (depth : Nat) (t : CodeTable) (isOpen : Bool) : Decoder.Wf depth t ⟨isOpen, 0#255, 0, 0#32, []⟩ :=
  ⟨Nat.zero_le _, fun _ _ => BitVec.getLsbD_zero, Nat.zero_le _, nofun, fun _ => rfl, fun h => absurd rfl h⟩

/-- One bit decoded in an open session keeps the decoder's invariant when the queue stays within its depth (R201). -/
theorem Decoder.Wf.decodeBit (h : d.Wf depth t) (hopen : d.isOpen = true) (b : Bool)
    (hq : (decodeBit t d b).q.length ≤ depth) : (decodeBit t d b).Wf depth t := by
  have hopen' := (decodeBit_isOpen t d b).trans hopen
  have hlen := h.len
  obtain hd | ⟨hdead, ⟨i, hd⟩ | ⟨hd, hmatch⟩⟩ := decodeBit_cases t d b
  · rwa [hd]
  · rw [hd] at hq hopen' ⊢
    refine ⟨Nat.zero_le _, fun _ _ => BitVec.getLsbD_zero, hq, fun w hw => ?_, fun _ => rfl, fun hz => absurd rfl hz⟩
    rcases List.mem_append.mp hw with hw | hw
    · exact h.symbols w hw
    · rw [List.mem_singleton.mp hw, BitVec.toNat_setWidth]
      exact Nat.lt_of_le_of_lt (Nat.mod_le _ _) (BitVec.isLt _)
  · rw [hd] at hq hopen' ⊢
    refine ⟨?_, fun k hk => Decoder.accumulate_clean h.clean b hk, hq, h.symbols,
      fun hc => (by rw [hopen'] at hc; cases hc), fun _ => hmatch⟩
    simp only [Decoder.accumulate, Config.dlenDead] at hlen hdead ⊢
    omega

theorem Decoder.Wf.decodeBits (h : d.Wf depth t) (hopen : d.isOpen = true) {bs : Bits}
    (hq : (decodeBits t d bs).q.length ≤ depth) : (decodeBits t d bs).Wf depth t := by
  induction bs generalizing d with
  | nil => exact h
  | cons b bs ih =>
    have hle := (decodeBits_queue t (Machine.decodeBit t d b) bs).length_le
    exact ih (h.decodeBit hopen b (Nat.le_trans hle hq)) ((decodeBit_isOpen t d b).trans hopen) hq

/-- A run of bits whose symbols fit the free places keeps the queue within its depth (R202). -/
theorem Decoder.Wf.decodeBits_of_fit (h : d.Wf depth t) (hopen : d.isOpen = true) {bs : Bits}
    (hfit : pushes t d bs ≤ depth - d.q.length) : (Machine.decodeBits t d bs).Wf depth t := by
  refine h.decodeBits hopen ?_
  have := h.queue
  simp only [pushes] at hfit
  omega

theorem Decoder.Wf.close (h : d.Wf depth t) (hlen : d.len = 0) : Decoder.Wf depth t { d with isOpen := false } :=
  ⟨h.len, h.clean, h.queue, h.symbols, fun _ => hlen, h.unmatched⟩

theorem Decoder.Wf.pop (h : d.Wf depth t) : Decoder.Wf depth t { d with q := d.q.tail } :=
  ⟨h.len, h.clean, by have := h.queue; rw [List.length_tail]; omega, fun w hw => h.symbols w (List.mem_of_mem_tail hw),
    h.closed, h.unmatched⟩

/-- Outside a session the buffer is empty, so the code table does not matter (R69, R204). -/
theorem Decoder.Wf.of_closed (h : d.Wf depth t) (hopen : d.isOpen = false) (t' : CodeTable) : d.Wf depth t' :=
  ⟨h.len, h.clean, h.queue, h.symbols, h.closed, fun hne => absurd (h.closed hopen) hne⟩

end

theorem sessionOpen_eq_false {s : State} : s.sessionOpen = false ↔ s.enc.isOpen = false ∧ s.dec.isOpen = false := by
  simp [State.sessionOpen]

/-- Every command keeps the decoder's invariant; those that write CT are refused in a session (R47, R69, R72, R156). -/
theorem Effect.dec_wf {i : Instr} {s t : State} (he : Effect s i t) (h : s.dec.Wf s.fifoDepth s.ct) :
    t.dec.Wf t.fifoDepth t.ct := by
  cases he with
  | genCodes hno _ => exact h.of_closed (sessionOpen_eq_false.mp hno).2 _
  | codeClear hno => exact h.of_closed (sessionOpen_eq_false.mp hno).2 _
  | codeLoad hno _ _ _ => exact h.of_closed (sessionOpen_eq_false.mp hno).2 _
  | codeLoadNew hno _ _ _ => exact h.of_closed (sessionOpen_eq_false.mp hno).2 _
  | decStart => exact Decoder.wf_fresh _ _ _
  | decWord bs hopen hfit => exact h.decodeBits_of_fit hopen hfit
  | decChar b hopen _ hfit => exact h.decodeBits_of_fit hopen hfit
  | decEnd _ hlen => exact h.close hlen
  | softReset => exact Decoder.wf_fresh _ _ _
  | _ => exact h

theorem ofCode_codeBits_len (sym len : Byte) (cbits : Vector Word 8) :
    (CtEntry.ofCode sym (codeBits cbits len.toNat)).len = len := by
  simp [CtEntry.ofCode]

/-- Every command keeps the code table's invariant: a generated table is one of path codes, and CODE_LOAD refuses a code that
another symbol has (R45, R155). -/
theorem Effect.ct_wf {i : Instr} {s t : State} (he : Effect s i t) (htree : s.tree.Wf) (h : s.ct.Wf) : t.ct.Wf := by
  have hshort (len : Byte) : (codeBits s.cbits len.toNat).length ≤ 255 := by
    have := len.isLt
    rw [codeBits_length]
    omega
  have hown {sym len : Byte}
      (hm : ∀ j, s.ct.matchCode (codeBits s.cbits len.toNat) = some j → (s.ct.entry j).sym = sym) (i : Nat)
      (hi : i < s.ct.n) (hsym : (s.ct.entry i).sym ≠ sym) :
      (s.ct.entry i).code ≠ (CtEntry.ofCode sym (codeBits s.cbits len.toNat)).code := by
    rw [CtEntry.ofCode_code (hshort len)]
    exact fun hcode => hsym (hm i (CodeTable.matchCode_of_distinct hi hcode h.codes))
  cases he with
  | genCodes _ hvalid =>
    obtain ⟨l, hshape⟩ := htree.present hvalid
    exact hshape.generatedCodes_wf h.canonical
  | codeClear _ => exact h.clear
  | @codeLoad sym len k _ hlen hfind hm =>
    obtain ⟨hk, hksym⟩ := CodeTable.find_some hfind
    have hother (i : Nat) (hi : i < s.ct.n) (hik : i ≠ k) : (s.ct.entry i).sym ≠ sym :=
      fun hs => hik (h.distinct i k hi hk (hs.trans hksym.symm))
    exact h.store h.bound (fun _ hi _ => hi) (by rwa [ofCode_codeBits_len])
      (fun _ hj => CtEntry.ofCode_clean (hshort len) hj) hother fun i hi hik => hown hm i hi (hother i hi hik)
  | @codeLoadNew sym len _ hlen hfind hm =>
    have hmiss := CodeTable.find_none.mp hfind
    have hold (i : Nat) (hi : i < s.ct.n + 1) (hin : i ≠ s.ct.n) : i < s.ct.n := by omega
    exact h.store (lt_nMax_of_missing h.distinct hmiss) hold (by rwa [ofCode_codeBits_len])
      (fun _ hj => CtEntry.ofCode_clean (hshort len) hj) (fun i hi hin => hmiss i (hold i hi hin))
      fun i hi hin => hown hm i (hold i hi hin) (hmiss i (hold i hi hin))
  | softReset => exact reset_ct_wf
  | _ => exact h

theorem Latch.wf_clear : Latch.clear.Wf := ⟨fun _ => ⟨rfl, rfl⟩, nofun⟩

theorem Latch.wf_raised {c : Cause} (hc : c ≠ .noFault) (w : Word) : Latch.Wf ⟨true, c, w⟩ := ⟨nofun, fun _ => hc⟩

/-- Every command keeps the latch's invariant (R48). -/
theorem Effect.latch_wf {i : Instr} {s t : State} (he : Effect s i t) (h : s.latch.Wf) : t.latch.Wf := by
  cases he with
  | raised w _ hc => exact Latch.wf_raised hc w
  | errClear => exact Latch.wf_clear
  | softReset => exact Latch.wf_clear
  | _ => exact h

/-- No command changes FIFO_DEPTH (R7, R23). -/
theorem Effect.fifoDepth {i : Instr} {s t : State} (he : Effect s i t) : t.fifoDepth = s.fifoDepth := by
  cases he <;> rfl

/-- The block's reset meets the invariant in a build of any admitted depth (R52). -/
theorem inv_blockReset {s : State} (h : 32 ≤ s.fifoDepth ∧ s.fifoDepth ≤ 65535) : (blockReset s).Inv :=
  ⟨h, Latch.wf_clear, reset_ft_wf, reset_tree_wf, reset_ct_wf, Encoder.wf_fresh _ _, Decoder.wf_fresh _ _ _⟩

/-- A quiet access keeps the invariant: it pops a queue, stores an operand or latches BUSY_OVERRUN. -/
theorem Quiet.inv {s t : State} (hq : Quiet s t) (h : s.Inv) : t.Inv := by
  cases hq with
  | encPop => exact ⟨h.depth, h.latch, h.ft, h.tree, h.ct, h.enc.pop, h.dec⟩
  | decPop => exact ⟨h.depth, h.latch, h.ft, h.tree, h.ct, h.enc, h.dec.pop⟩
  | overrun => exact ⟨h.depth, Latch.wf_raised (by decide) _, h.ft, h.tree, h.ct, h.enc, h.dec⟩
  | _ => exact ⟨h.depth, h.latch, h.ft, h.tree, h.ct, h.enc, h.dec⟩

/-- Every command keeps the whole invariant, unit by unit. -/
theorem Effect.inv {i : Instr} {s t : State} (he : Effect s i t) (h : s.Inv) : t.Inv :=
  ⟨by rw [he.fifoDepth]; exact h.depth, he.latch_wf h.latch, he.ft_wf h.ft, he.tree_wf h.ft h.tree,
    he.ct_wf h.tree h.ct, he.enc_wf h.enc, he.dec_wf h.dec⟩

/-- No part of a step ends the whole invariant. -/
theorem kept_inv : Kept State.Inv where
  host := fun _ _ _ h => ⟨h.depth, h.latch, h.ft, h.tree, h.ct, h.enc, h.dec⟩
  quiet := fun _ _ h hq => hq.inv h
  raised := fun _ _ w hc h => ⟨h.depth, Latch.wf_raised hc w, h.ft, h.tree, h.ct, h.enc, h.dec⟩
  reset := fun _ h => inv_blockReset h.depth
  effect := fun _ _ _ h he => he.inv h

theorem Config.fifoDepth_bounds : 32 ≤ Config.fifoDepth ∧ Config.fifoDepth ≤ 65535 := by
  have := Config.fifoExtra.isLt
  simp only [Config.fifoDepth]
  omega

end Sys2Proof.Machine
end

section
/-! One access of the host, register by register (R21 to R42, R61 to R64, R243, R276). -/

namespace Sys2Proof.Machine

/-! ### The address map -/

theorem regOffset_of_regAt {off : BitVec 8} {r : Reg} (h : regAt off = some r) : regOffset r = off :=
  eq_of_beq (List.find?_some (p := fun reg => regOffset reg == off) h)

@[simp] theorem regAt_offset (r : Reg) : regAt (regOffset r) = some r := regAt_regOffset r (mem_regList r)

theorem regOffset_aligned (r : Reg) : (regOffset r).toNat % 4 = 0 := by
  have key : ∀ r ∈ regList, (regOffset r).toNat % 4 = 0 := by decide
  exact key r (mem_regList r)

theorem cbits_offset (j : Fin 8) : regOffset (.cbits j) = BitVec.ofNat 8 (0x80 + 4 * j.val) := by
  revert j
  decide

/-- The reserved offsets hold no register (R42). -/
theorem regAt_reserved {off : BitVec 8}
    (h : off = 0x1C#8 ∨ off = 0x3C#8 ∨ (0x64 ≤ off.toNat ∧ off.toNat ≤ 0x7C) ∨ 0xA0 ≤ off.toNat) : regAt off = none := by
  have key : ∀ r ∈ regList, ¬ (regOffset r = 0x1C#8 ∨ regOffset r = 0x3C#8 ∨
      (0x64 ≤ (regOffset r).toNat ∧ (regOffset r).toNat ≤ 0x7C) ∨ 0xA0 ≤ (regOffset r).toNat) := by decide
  rw [Option.eq_none_iff_forall_ne_some]
  intro r hr
  rw [← regOffset_of_regAt hr] at h
  exact key r (mem_regList r) h

/-- The registers that a host can write stand at CMD, at ARG0 and in the CBITS window (R63). -/
theorem offset_of_busyGuarded {r : Reg} (h : busyGuarded r = true) :
    regOffset r = 0x08#8 ∨ regOffset r = 0x18#8 ∨ (0x80 ≤ (regOffset r).toNat ∧ (regOffset r).toNat ≤ 0x9C) := by
  have key : ∀ r ∈ regList, busyGuarded r = true →
      regOffset r = 0x08#8 ∨ regOffset r = 0x18#8 ∨ (0x80 ≤ (regOffset r).toNat ∧ (regOffset r).toNat ≤ 0x9C) := by decide
  exact key r (mem_regList r) h

/-! ### A step that makes one legal access -/

section
variable {s : State} {write : Bool} {off : BitVec 8} {v : Word} {rest : List HostAction}

theorem step_access {t : Request} (h : s.Next t rest) : step s = busAccess t (s.setPending rest) := by
  simp only [State.Next] at h
  simp only [step, hostStep, h, runAction]

theorem legal_of_aligned (h : off.toNat % 4 = 0) : Request.legal ⟨write, off, .word, v⟩ = true := by
  simp [Request.legal, aligned_iff, h]

theorem step_idle (h : s.Next ⟨write, off, .word, v⟩ rest) (hoff : off.toNat % 4 = 0) (hb : s.busy = false) :
    step s = idleAccess ⟨write, off, .word, v⟩ (s.setPending rest) := by
  simp [step_access h, busAccess, legal_of_aligned hoff, hb]

theorem step_busy (h : s.Next ⟨write, off, .word, v⟩ rest) (hoff : off.toNat % 4 = 0) (hb : s.busy = true) :
    step s = .next (busyAccess ⟨write, off, .word, v⟩ (s.setPending rest)) := by
  simp [step_access h, busAccess, legal_of_aligned hoff, hb]

/-- A write to a register with BUSY = 0. -/
theorem step_writeReg {r : Reg} (h : s.Next ⟨true, regOffset r, .word, v⟩ rest) (hb : s.busy = false) :
    step s = writeReg v (respond .written (s.setPending rest)) r := by
  simp [step_idle h (regOffset_aligned r) hb, idleAccess]

@[simp] theorem readValue_setPending (as : List HostAction) (s : State) (r : Reg) :
    readValue (s.setPending as) r = readValue s r := by
  cases r <;> rfl

/-- A read of a register with BUSY = 0. -/
theorem step_readReg {r : Reg} (h : s.Next ⟨false, regOffset r, .word, v⟩ rest) (hb : s.busy = false) :
    step s = .next (respond (.read (readValue s r)) (readEffect (s.setPending rest) r)) := by
  simp [step_idle h (regOffset_aligned r) hb, idleAccess]

end

/-! ### Writes -/

theorem writeReg_of_unguarded {r : Reg} (h : busyGuarded r = false) (v : Word) (s : State) : writeReg v s r = .next s := by
  cases r with
  | cmd => cases h
  | arg0 => cases h
  | cbits j => cases h
  | _ => rfl

theorem idleWrite_of_unguarded {off : BitVec 8} (h : ∀ r, regAt off = some r → busyGuarded r = false) (v : Word) (s : State) :
    idleAccess ⟨true, off, .word, v⟩ s = .next (respond .written s) := by
  cases hr : regAt off with
  | none => simp [idleAccess, hr]
  | some r => simp [idleAccess, hr, writeReg_of_unguarded (h r hr)]

theorem busyWrite_of_unguarded {off : BitVec 8} (h : ∀ r, regAt off = some r → busyGuarded r = false) (s : State) :
    busyWrite off s = respond .written s := by
  simp only [busyWrite]
  split
  · next r hr => rw [h r hr]; rfl
  · rfl

/-! ### Reads -/

/-- A register whose read has no side effect gives its value. -/
theorem readGives_register {s : State} (hb : s.busy = false) (r : Reg) (hr : ∀ u, readEffect u r = u) :
    ReadGives s (regOffset r) (readValue s r) := by
  intro v rest h
  rw [step_readReg h hb, hr]

theorem readGives_toNat {s : State} (hb : s.busy = false) (r : Reg) (hr : ∀ u, readEffect u r = u) {n : Nat}
    (hn : (readValue s r).toNat = n) : ReadGives s (regOffset r) (BitVec.ofNat 32 n) := by
  have := readGives_register hb r hr
  rwa [← hn, BitVec.ofNat_toNat, BitVec.setWidth_eq]

theorem readGives_reserved {s : State} (hb : s.busy = false) {off : BitVec 8} (hoff : off.toNat % 4 = 0)
    (hnone : regAt off = none) : ReadGives s off 0#32 := by
  intro v rest h
  rw [step_idle h hoff hb]
  simp [idleAccess, hnone]

theorem not_isEmpty_eq (q : List Word) : (!q.isEmpty) = decide (q ≠ []) := by
  cases q <;> rfl

/-- TREE as a number: NODE_N and ROOT, both 0 without a tree (R32). -/
theorem treeWord_toNat_of_wf {s : State} (h : s.tree.Wf) : s.treeWord.toNat = s.tree.n * 65536 + s.tree.root := by
  cases hv : s.tree.valid with
  | true =>
    obtain ⟨l, hshape⟩ := h.present hv
    obtain ⟨-, hmax⟩ := hshape.leaves
    have hn := hshape.count
    have hroot := hshape.root
    simp only [Config.nMax] at hmax
    rw [treeWord_toNat s hv, Nat.mod_eq_of_lt (by omega), Nat.mod_eq_of_lt (by omega)]
  | false =>
    obtain ⟨hn, hroot⟩ := h.absent hv
    simp [State.treeWord, hv, hn, hroot]

theorem readEffect_encOut_nil {s : State} (h : s.enc.q = []) : readEffect s .encOut = s := by
  simp only [readEffect, h, List.tail_nil]
  rw [← h]

theorem readEffect_decOut_nil {s : State} (h : s.dec.q = []) : readEffect s .decOut = s := by
  simp only [readEffect, h, List.tail_nil]
  rw [← h]

/-- Code bit `k` of a packed window is the bit it was packed from (R41). -/
theorem codeBit_packWindow (f : Nat → Bool) {k : Nat} (hk : k < 256) : codeBit (packWindow f) k = f k := by
  have hj : k / 32 < 8 := by omega
  simp only [codeBit, packWindow, Vector.getElem?_ofFn, hj, dif_pos, Option.getD_some]
  rw [packedBit_packWord _ _ (Nat.mod_lt k (by decide)), Nat.div_add_mod]

end Sys2Proof.Machine
end

section
/-! Which words decode to which commands (R80, R81, R83). -/

namespace Sys2Proof

/-- The word shows the command's opcode and operand field (R80). -/
def ShowsFields (w : Word) (i : Instr) : Prop := w.extractLsb' 24 8 = i.opcode ∧ w.extractLsb' 0 24 = i.operandField

theorem ShowsFields.encode_eq {w : Word} {i : Instr} (h : ShowsFields w i) : encode i = w := by
  obtain ⟨hop, hfield⟩ := h
  rw [encode, ← hop, ← hfield]
  refine BitVec.eq_of_getLsbD_eq fun k hk => ?_
  rw [BitVec.getLsbD_append, BitVec.getLsbD_extractLsb', BitVec.getLsbD_extractLsb']
  split
  · next h => simp [h]
  · next h => simp [show k - 24 < 8 by omega, show 24 + (k - 24) = k by omega]

/-- Bits 23:0 of a word whose bits from `n` to 23 are 0 are its low `n` bits. -/
theorem operandField_eq {w : Word} {m n : Nat} (hmn : m + n = 24) (h : w.extractLsb' n m = 0#m) :
    w.extractLsb' 0 24 = (0#m ++ w.extractLsb' 0 n).cast hmn := by
  refine BitVec.eq_of_getLsbD_eq fun k hk => ?_
  rw [BitVec.getLsbD_cast, BitVec.getLsbD_append, BitVec.getLsbD_extractLsb', BitVec.getLsbD_extractLsb']
  split
  · next hkn => simp [hk, hkn]
  · next hkn =>
    have := congrArg (fun v => v.getLsbD (k - n)) h
    simp only [BitVec.getLsbD_extractLsb', BitVec.getLsbD_zero, show k - n < m by omega, decide_true, Bool.true_and,
      show n + (k - n) = k by omega] at this ⊢
    simp [this]

section
variable {w : Word} {j : Instr}

theorem ifReservedZero_legal {zero : Bool} {i : Instr} (h : ifReservedZero zero i = .legal j) : zero = true ∧ i = j := by
  cases zero with
  | true => exact ⟨rfl, by simpa [ifReservedZero] using h⟩
  | false => cases h

theorem opcode_eq {op : Byte} (hop : (w.extractLsb' 24 8).toNat = op.toNat) : w.extractLsb' 24 8 = op :=
  BitVec.eq_of_toNat_eq hop

theorem formatZ_fields {i : Instr} (h : formatZ w i = .legal j) (hop : (w.extractLsb' 24 8).toNat = i.opcode.toNat)
    (hi : i.operandField = 0#24) : ShowsFields w j := by
  obtain ⟨hz, rfl⟩ := ifReservedZero_legal h
  exact ⟨opcode_eq hop, by rw [hi]; exact eq_of_beq hz⟩

theorem formatB_fields {f : Byte → Instr} (h : formatB w f = .legal j)
    (hop : ∀ b, (w.extractLsb' 24 8).toNat = (f b).opcode.toNat) (hf : ∀ b, (f b).operandField = 0#16 ++ b) :
    ShowsFields w j := by
  obtain ⟨hz, rfl⟩ := ifReservedZero_legal h
  exact ⟨opcode_eq (hop _), by rw [hf]; exact operandField_eq rfl (eq_of_beq hz)⟩

theorem formatI_fields {f : BitVec 9 → Instr} (h : formatI w f = .legal j)
    (hop : ∀ b, (w.extractLsb' 24 8).toNat = (f b).opcode.toNat) (hf : ∀ b, (f b).operandField = 0#15 ++ b) :
    ShowsFields w j := by
  obtain ⟨hz, rfl⟩ := ifReservedZero_legal h
  exact ⟨opcode_eq (hop _), by rw [hf]; exact operandField_eq rfl (eq_of_beq hz)⟩

theorem formatBL_fields {f : Byte → Byte → Instr} (h : formatBL w f = .legal j)
    (hop : ∀ b l, (w.extractLsb' 24 8).toNat = (f b l).opcode.toNat) (hf : ∀ b l, (f b l).operandField = 0#8 ++ l ++ b) :
    ShowsFields w j := by
  obtain ⟨hz, rfl⟩ := ifReservedZero_legal h
  refine ⟨opcode_eq (hop _ _), ?_⟩
  have hlow : (w.extractLsb' 0 16 : BitVec 16) = w.extractLsb' 8 8 ++ w.extractLsb' 0 8 := by
    refine BitVec.eq_of_getLsbD_eq fun k hk => ?_
    rw [BitVec.getLsbD_append, BitVec.getLsbD_extractLsb', BitVec.getLsbD_extractLsb', BitVec.getLsbD_extractLsb']
    split
    · next hk8 => simp [hk, hk8]
    · next hk8 => simp [hk, show k - 8 < 8 by omega, show 8 + (k - 8) = k by omega]
  have hfield := operandField_eq (w := w) (m := 8) (n := 16) rfl (eq_of_beq hz)
  rw [hf, hfield, hlow, BitVec.append_assoc]

theorem formatN_fields {f : BitVec 6 → Instr} (h : formatN w f = .legal j)
    (hop : ∀ b, (w.extractLsb' 24 8).toNat = (f b).opcode.toNat) (hf : ∀ b, (f b).operandField = 0#18 ++ b) :
    ShowsFields w j := by
  simp only [formatN] at h
  split at h
  · next hz =>
    split at h
    · cases h
      exact ⟨opcode_eq (hop _), by rw [hf]; exact operandField_eq rfl (eq_of_beq hz)⟩
    · cases h
  · cases h

/-- A word that decodes to a command shows its opcode and its operands, format by format (R80, R81). -/
theorem decode_showsFields (h : decode w = .legal j) : ShowsFields w j := by
  simp only [decode] at h
  split at h <;> rename_i hop
  · exact formatZ_fields h hop rfl
  · exact formatZ_fields h hop rfl
  · exact formatB_fields h (fun _ => hop) (fun _ => rfl)
  · exact formatB_fields h (fun _ => hop) (fun _ => rfl)
  · exact formatB_fields h (fun _ => hop) (fun _ => rfl)
  · exact formatZ_fields h hop rfl
  · exact formatI_fields h (fun _ => hop) (fun _ => rfl)
  · exact formatZ_fields h hop rfl
  · exact formatB_fields h (fun _ => hop) (fun _ => rfl)
  · exact formatZ_fields h hop rfl
  · exact formatBL_fields h (fun _ _ => hop) (fun _ _ => rfl)
  · exact formatZ_fields h hop rfl
  · exact formatB_fields h (fun _ => hop) (fun _ => rfl)
  · exact formatZ_fields h hop rfl
  · exact formatZ_fields h hop rfl
  · exact formatN_fields h (fun _ => hop) (fun _ => rfl)
  · exact formatB_fields h (fun _ => hop) (fun _ => rfl)
  · exact formatZ_fields h hop rfl
  · exact formatZ_fields h hop rfl
  · exact formatZ_fields h hop rfl
  · cases h

/-- A word that decodes to a command is the command's word (R80, R86). -/
theorem encode_of_decode (h : decode w = .legal j) : encode j = w := (decode_showsFields h).encode_eq

end

end Sys2Proof
end

section
/-! Totality of a step, FIFO_DEPTH, and ENC_FILL beside ENC_NBITS (R23, R34, R241, R253). -/

namespace Sys2Proof.Machine

/-- The outcome is a next state. -/
def GoesOn (o : Host.Outcome State Fault Refusal) : Prop := ∃ t, o = .next t

theorem GoesOn.next (t : State) : GoesOn (.next t) := ⟨t, rfl⟩

theorem GoesOn.onNext {o : Host.Outcome State Fault Refusal} (h : GoesOn o) (f : State → State) : GoesOn (onNext f o) := by
  obtain ⟨t, rfl⟩ := h
  exact ⟨f t, rfl⟩

theorem exec_goesOn (i : Instr) (s : State) : GoesOn (exec i s) := by
  obtain ⟨t, ht, -⟩ := exec_effective i s
  exact ⟨t, ht⟩

theorem acceptCommand_goesOn (w : Word) (s : State) : GoesOn (acceptCommand w s) := by
  simp only [acceptCommand]
  split
  · exact .next s
  · split
    · exact (exec_goesOn _ s).onNext startBusy
    · exact (GoesOn.next _).onNext startBusy

theorem writeReg_goesOn (v : Word) (s : State) (r : Reg) : GoesOn (writeReg v s r) := by
  cases r with
  | cmd => exact acceptCommand_goesOn v s
  | _ => exact .next _

theorem busAccess_goesOn (t : Request) (s : State) : GoesOn (busAccess t s) := by
  simp only [busAccess]
  split
  · exact .next _
  · split
    · exact .next _
    · simp only [idleAccess]
      split
      · exact writeReg_goesOn _ _ _
      all_goals exact .next _

theorem runAction_goesOn (a : HostAction) (s : State) : GoesOn (runAction a s) := by
  cases a with
  | access t => exact busAccess_goesOn t s
  | rst => exact .next _
  | poll => exact (busAccess_goesOn _ s).onNext _
  | drainEnc => exact (busAccess_goesOn _ s).onNext _
  | drainDec => exact (busAccess_goesOn _ s).onNext _

theorem step_of_none_pending {s : State} (h : s.host.pending = []) : step s = .next s := by
  simp only [step, hostStep, h]

theorem step_goesOn (s : State) : GoesOn (step s) := by
  simp only [step, hostStep]
  split
  · exact .next s
  · exact runAction_goesOn _ _

theorem Quiet.fifoDepth {s t : State} (h : Quiet s t) : t.fifoDepth = s.fifoDepth := by
  cases h <;> rfl

/-- No part of a step changes FIFO_DEPTH (R7, R23). -/
theorem kept_fifoDepth (d : Nat) : Kept fun s => s.fifoDepth = d where
  host := fun _ _ _ h => h
  quiet := fun _ _ h hq => hq.fifoDepth.trans h
  raised := fun _ _ _ _ h => h
  reset := fun _ h => h
  effect := fun _ _ _ h he => he.fifoDepth.trans h

/-- A quiet access pops a queue at most: the pending bits and the count stay. -/
theorem Quiet.enc_counted {s t : State} (hq : Quiet s t) (h : s.enc.Counted) : t.enc.Counted := by
  cases hq <;> exact h

/-- Every command keeps ENC_FILL = ENC_NBITS mod 32 but a flush with bits pending (R34, R180 to R183). -/
theorem Effect.enc_counted {i : Instr} {s t : State} (he : Effect s i t) (h : s.enc.Counted) :
    t.enc.Counted ∨ (i = .encFlush ∧ s.enc.isOpen = true ∧ 0 < s.enc.fill) := by
  cases he with
  | encStart => exact .inl rfl
  | encSym => exact .inl (h.putBits _)
  | encFlush hopen _ =>
    rcases Nat.eq_zero_or_pos s.enc.fill with hzero | hpos
    · rw [Encoder.Counted, hzero] at h
      exact .inl h
    · exact .inr ⟨rfl, hopen, hpos⟩
  | softReset => exact .inl rfl
  | _ => exact .inl h

/-- A session with one bit pending, FIFO_DEPTH = 64, whose host flushes it next. -/
def aboutToFlush : State :=
  { State.reset with
    fifoDepth := 64
    enc := ⟨true, 0x80000000#32, 1, 1#64, []⟩
    host := ⟨[.access ⟨true, 0x08#8, .word, 0x42000000#32⟩], [], 0⟩ }

theorem aboutToFlush_inv : aboutToFlush.Inv where
  depth := by decide
  latch := Latch.wf_clear
  ft := reset_ft_wf
  tree := reset_tree_wf
  ct := reset_ct_wf
  enc := ⟨by decide, by decide, by decide, by decide, by decide⟩
  dec := Decoder.wf_fresh _ _ _

end Sys2Proof.Machine
end

section
/-! The statements about the state, its registers and its invariants (10_state.md), settled. -/

namespace Sys2Proof.Machine

/-- Settles O54: FT's invariant gives BUILD distinct symbols and at most 256 leaves, over which its merge makes a tree. -/
theorem stepKeepsTheTreeShape : Obligations.StepKeepsTheTreeShape :=
  fun _ _ hft htree hstep => kept_ft_tree.step ⟨hft, htree⟩ hstep

/-- Settles O55: each unit's invariant is kept by every command, quiet access and reset. -/
theorem stepKeepsTheInvariant : Obligations.StepKeepsTheInvariant := fun _ _ h hstep => kept_inv.step h hstep

/-- Settles O11: at such an offset stands a register that no write reaches, or none. -/
theorem writesElsewhereAreIgnored : Obligations.WritesElsewhereAreIgnored := by
  intro s off v rest hnext hoff hcmd harg hwin
  have hfree (r : Reg) (hr : regAt off = some r) : busyGuarded r = false := by
    rw [← regOffset_of_regAt hr] at hcmd harg hwin
    by_contra hg
    rcases offset_of_busyGuarded (by simpa using hg) with h | h | h
    · exact hcmd h
    · exact harg h
    · exact hwin h
  cases hb : s.busy with
  | true =>
    rw [step_busy hnext hoff hb]
    simp only [busyAccess, if_true, busyWrite_of_unguarded hfree]
    rfl
  | false =>
    have hleft : s.busyLeft - 1 = s.busyLeft := by rw [busy_eq_false.mp hb]
    rw [step_idle hnext hoff hb, hleft, idleWrite_of_unguarded hfree]
    rfl

/-- Settles O12, at the offsets of ARG0 and of each window register. -/
theorem operandRegistersStoreTheWord : Obligations.OperandRegistersStoreTheWord := by
  intro s v rest hb
  refine ⟨fun h => step_writeReg (r := .arg0) h hb, fun j h => ?_⟩
  rw [← cbits_offset] at h
  refine ⟨s.cbits.set j v, step_writeReg h hb, fun k => ?_⟩
  simp only [Fin.getElem_fin, Vector.getElem_set, Fin.ext_iff, eq_comm]

/-- Settles O13: each register's value as a number, its fields within their widths by the invariant. -/
theorem idleReadsReturnTheRegisters : Obligations.IdleReadsReturnTheRegisters := by
  intro s h hb
  have hdepth := h.depth.2
  have hft := h.ft.bound
  have hct := h.ct.bound
  have hfill := h.enc.fill
  have henc := h.enc.queue
  have hdec := h.dec.queue
  have hlen := h.dec.len
  simp only [Config.nMax, Config.dlenDead] at hft hct hlen
  refine ⟨readGives_register hb .id fun _ => rfl, readGives_toNat hb .param (fun _ => rfl) ?param,
    readGives_register hb .cmd fun _ => rfl, readGives_toNat hb .status (fun _ => rfl) ?status,
    readGives_register hb .info fun _ => rfl, readGives_register hb .arg0 fun _ => rfl,
    readGives_register hb .res0 fun _ => rfl, readGives_register hb .res1 fun _ => rfl,
    readGives_register hb .res2 fun _ => rfl, readGives_register hb .res3 fun _ => rfl,
    readGives_toNat hb .ftN (fun _ => rfl) ?ftN, readGives_toNat hb .ctN (fun _ => rfl) ?ctN,
    readGives_toNat hb .tree (fun _ => rfl) (treeWord_toNat_of_wf h.tree),
    readGives_toNat hb .encNbitsLo (fun _ => rfl) ?lo, readGives_toNat hb .encNbitsHi (fun _ => rfl) ?hi,
    readGives_toNat hb .encFill (fun _ => rfl) ?fill, readGives_toNat hb .encLevel (fun _ => rfl) ?encLevel,
    readGives_toNat hb .decLevel (fun _ => rfl) ?decLevel, readGives_toNat hb .decBuflen (fun _ => rfl) ?buflen,
    readGives_register hb .decNsym fun _ => rfl, fun j => ?window,
    fun off hoff hres => readGives_reserved hb hoff (regAt_reserved hres)⟩
  case param => exact (paramWord_toNat s).trans (by rw [Nat.mod_eq_of_lt (by omega)])
  case status =>
    refine (statusWord_toNat s).trans ?_
    rw [hb, not_isEmpty_eq, not_isEmpty_eq, Bool.toNat_false, Nat.zero_add]
    rfl
  case ftN => exact (countWord_toNat _).trans (Nat.mod_eq_of_lt (by omega))
  case ctN => exact (countWord_toNat _).trans (Nat.mod_eq_of_lt (by omega))
  case lo => simp [readValue]
  case hi =>
    have := s.enc.nbits.isLt
    rw [readValue, BitVec.extractLsb'_toNat, Nat.shiftRight_eq_div_pow, Nat.mod_eq_of_lt (by omega)]
  case fill => exact (encFillWord_toNat s).trans (Nat.mod_eq_of_lt (by omega))
  case encLevel => exact (levelWord_toNat _).trans (Nat.mod_eq_of_lt (by omega))
  case decLevel => exact (levelWord_toNat _).trans (Nat.mod_eq_of_lt (by omega))
  case buflen => exact (countWord_toNat _).trans (Nat.mod_eq_of_lt (by omega))
  case window =>
    rw [← cbits_offset]
    exact readGives_register hb (.cbits j) fun _ => rfl

/-- Settles O15: head and tail of the queue, 0 and no change on an empty one. -/
theorem outReadsPopTheOldestWord : Obligations.OutReadsPopTheOldestWord := by
  intro s v rest hb
  refine ⟨fun hnext => ?_, fun hnext => ?_⟩
  · have hstep := step_readReg (r := .encOut) hnext hb
    refine ⟨fun hq => ?_, fun w q hq => ?_⟩
    · rw [hstep, readEffect_encOut_nil (s := s.setPending rest) hq, readValue, hq, List.headD_nil]
    · rw [hstep]
      simp only [readEffect, readValue, setPending_enc, hq, List.headD_cons, List.tail_cons]
      rfl
  · have hstep := step_readReg (r := .decOut) hnext hb
    refine ⟨fun hq => ?_, fun w q hq => ?_⟩
    · rw [hstep, readEffect_decOut_nil (s := s.setPending rest) hq, readValue, hq, List.headD_nil]
    · rw [hstep]
      simp only [readEffect, readValue, setPending_dec, hq, List.headD_cons, List.tail_cons]
      rfl

/-- Settles O18: every command and every access answers a next state. -/
theorem everyStepGoesOn : Obligations.EveryStepGoesOn := by
  intro s
  obtain ⟨t, ht⟩ := step_goesOn s
  refine ⟨t, ht, (kept_fifoDepth s.fifoDepth).step rfl ht, fun hp => ?_⟩
  rw [step_of_none_pending hp] at ht
  cases ht
  rfl

/-- Settles O41, bit by bit. -/
theorem packedWindowHoldsTheCode : Obligations.PackedWindowHoldsTheCode := by
  intro code hlen
  refine List.ext_getElem (codeBits_length _ _) fun k _ hk => ?_
  simp only [codeBits, List.getElem_map, List.getElem_range]
  rw [codeBit_packWindow _ (by omega), List.getD_eq_getElem _ _ hk]

/-- Settles O51: what `Effect` gives each command, read as a frame. -/
theorem commandsWriteOnlyTheirUnit : Obligations.CommandsWriteOnlyTheirUnit := by
  intro i s t h
  cases exec_cases h with
  | raised w hi hc =>
    cases i with
    | nop | softReset | freqRead _ | nodeRead _ | codeRead _ => cases hi
    | _ => rfl
  | softReset => exact ⟨rfl, rfl⟩
  | _ => rfl

/-- Settles O53, as a part of the whole invariant. -/
theorem stepKeepsTheSessionsAndTheLatch : Obligations.StepKeepsTheSessionsAndTheLatch := fun _ t h hstep =>
  have ht : t.Inv := kept_inv.step h hstep
  ⟨ht.latch, ht.enc, ht.dec⟩

/-- Refutes O56: ENC_FLUSH pushes the pending bit, so ENC_FILL is 0 after it, and ENC_NBITS stays 1 (R183, log 9). -/
theorem not_encFillIsNbitsMod32AtAllTimes : ¬ Obligations.EncFillIsNbitsMod32AtAllTimes := by
  intro h
  have hafter := h aboutToFlush _ aboutToFlush_inv rfl rfl
  exact absurd hafter (by decide)

/-- Settles O57: the only effect that ends the equation is ENC_FLUSH's, and only its own word, accepted with ERR = 0, has it. -/
theorem encFillIsNbitsMod32UntilAFlush : Obligations.EncFillIsNbitsMod32UntilAFlush := by
  intro s t hcount hstep
  have h : s.enc.Counted := hcount
  obtain ⟨-, rfl⟩ | ⟨rest, -, rfl⟩ | ⟨a, rest, u, as, -, hq, ht⟩ | ⟨w, rest, hnext, hb, herr, hw⟩ := step_cases hstep
  · exact .inl h
  · exact .inl rfl
  · have hu : u.enc.Counted := hq.enc_counted h
    rcases ht with rfl | rfl <;> exact .inl hu
  · obtain ⟨i, u, hdec, hu, rfl⟩ | ⟨-, -, rfl⟩ := hw
    · rcases (exec_cases hu).enc_counted h with hu | ⟨rfl, hopen, hpos⟩
      · exact .inl hu
      · obtain rfl : 0x42000000#32 = w := encode_of_decode hdec
        exact .inr ⟨hopen, hpos, hb, herr.resolve_right (by decide), rest, hnext⟩
    · exact .inl h

/-- Settles O5: CMD's write is the acceptance of R243, and a legal word that is not dropped runs. -/
theorem stepRunsTheAcceptedCommand : Obligations.StepRunsTheAcceptedCommand := by
  intro s w rest i hnext hb hcond hdec
  have haccepted : (s.latch.err && !acceptedInError w) = false := by
    rcases hcond with h | rfl | rfl
    · rw [h]; rfl
    · simp [acceptedInError]
    · simp [acceptedInError]
  rw [step_writeReg (r := .cmd) hnext hb]
  simp [writeReg, acceptCommand, haccepted, hdec]

/-- Settles O14: CAUSE shows the code in its low byte. -/
theorem causeReadsAsItsCode : Obligations.CauseReadsAsItsCode := by
  intro c code hmem s hb hc
  have hcode : s.causeWord = code := by
    rw [State.causeWord, hc]
    simp only [List.mem_cons, List.not_mem_nil, or_false, Prod.mk.injEq] at hmem
    rcases hmem with ⟨rfl, rfl⟩ | ⟨rfl, rfl⟩ | ⟨rfl, rfl⟩ | ⟨rfl, rfl⟩ | ⟨rfl, rfl⟩ | ⟨rfl, rfl⟩ | ⟨rfl, rfl⟩ |
      ⟨rfl, rfl⟩ | ⟨rfl, rfl⟩ | ⟨rfl, rfl⟩ | ⟨rfl, rfl⟩ | ⟨rfl, rfl⟩ | ⟨rfl, rfl⟩ <;> rfl
  rw [← hcode]
  exact readGives_register hb .cause fun _ => rfl

/-- Settles O23: the table of R52 row by row, and PARAM within its 16 bits of FIFO_DEPTH. -/
theorem resetLeavesTheValuesOfTheTable : Obligations.ResetLeavesTheValuesOfTheTable := by
  have hdepth := Config.fifoDepth_bounds.2
  have hparam : State.reset.paramWord.toNat = Config.fifoDepth * 65536 + 0xFF08 :=
    (paramWord_toNat State.reset).trans (by
      rw [show State.reset.fifoDepth = Config.fifoDepth from rfl, Nat.mod_eq_of_lt (by omega)])
  exact ⟨rfl, rfl, rfl, rfl, rfl, rfl, rfl, by decide, rfl, fun _ => rfl, rfl, rfl, rfl, fun _ => rfl, rfl, fun _ => rfl,
    rfl, rfl, rfl, hparam⟩

/-- Settles O52: reset is the block's reset in a build of admitted depth. -/
theorem resetMeetsTheInvariant : Obligations.ResetMeetsTheInvariant :=
  inv_blockReset (s := State.reset) Config.fifoDepth_bounds

end Sys2Proof.Machine
end

section
/-! The memory rules of the bus and of the tables (R61, R69), settled. -/

namespace Sys2Proof.Machine

theorem legal_eq_false_iff {t : Request} : t.legal = false ↔ t.size ≠ .word ∨ t.off.toNat % 4 ≠ 0 := by
  rw [Request.legal, aligned_iff, Bool.and_eq_false_iff, beq_eq_false_iff_ne, decide_eq_false_iff_not]

/-- In a session the commands that write CT are refused, so only SOFT_RESET changes it (R69, R232). -/
theorem Effect.ct_fixed {i : Instr} {s t : State} (he : Effect s i t) (hopen : s.sessionOpen = true) :
    t.ct = s.ct ∨ i = .softReset := by
  cases he with
  | genCodes hclosed | codeClear hclosed | codeLoad hclosed | codeLoadNew hclosed =>
    rw [hopen] at hclosed
    cases hclosed
  | softReset => exact .inr rfl
  | _ => exact .inl rfl

/-- Settles O40: a quiet access and a fault leave CT, and the one command that changes it in a session is SOFT_RESET, written
to CMD with BUSY = 0. -/
theorem codeTableIsFixedInASession : Obligations.CodeTableIsFixedInASession := by
  intro s t hopen hstep
  have hopen : s.sessionOpen = true := (Bool.or_eq_true _ _).mpr hopen
  obtain ⟨-, rfl⟩ | ⟨rest, hrst, -⟩ | ⟨a, rest, u, as, -, hq, ht⟩ | ⟨w, rest, hnext, hb, -, hw⟩ := step_cases hstep
  · exact .inl rfl
  · exact .inr ⟨rest, .inl hrst⟩
  · obtain ⟨-, -, hct⟩ := hq.tables
    rcases ht with rfl | rfl <;> exact .inl hct
  · obtain ⟨i, u, hdec, hu, rfl⟩ | ⟨-, -, rfl⟩ := hw
    · rcases (exec_cases hu).ct_fixed hopen with hct | rfl
      · exact .inl hct
      · obtain rfl : 0x7F000000#32 = w := encode_of_decode hdec
        exact .inr ⟨rest, .inr ⟨hb, hnext⟩⟩
    · exact .inl rfl

/-- Settles O10: such an access is not legal, and the bus answers it before it looks at BUSY or at a register. -/
theorem illegalAccessHasNoEffect : Obligations.IllegalAccessHasNoEffect := by
  intro s t rest hnext hill
  rw [step_access hnext, busAccess, legal_eq_false_iff.mpr hill]
  rfl

end Sys2Proof.Machine
end

section
/-! Decode and encode agree, and the match and mask table says which words are legal (R80 to R86). -/

namespace Sys2Proof

/-! ### Fields of a word -/

section
variable {w : Word} {j : Instr}

/-- A field of `m + n` bits is two fields side by side. -/
theorem extractLsb'_eq_append_iff {l m n k : Nat} {w : BitVec l} {a : BitVec m} {b : BitVec n} :
    w.extractLsb' k (m + n) = a ++ b ↔ w.extractLsb' (k + n) m = a ∧ w.extractLsb' k n = b := by
  rw [← BitVec.extractLsb'_append_extractLsb'_eq_extractLsb' rfl]
  constructor
  · intro h
    have hhigh := congrArg (BitVec.extractLsb' n m) h
    have hlow := congrArg (BitVec.extractLsb' 0 n) h
    simp only [BitVec.extractLsb'_append_eq_left, BitVec.extractLsb'_append_eq_right] at hhigh hlow
    exact ⟨hhigh, hlow⟩
  · rintro ⟨rfl, rfl⟩
    rfl

/-- The operand field of format B. -/
theorem fieldB_iff {b : Byte} :
    w.extractLsb' 0 24 = 0#16 ++ b ↔ w.extractLsb' 8 16 = 0#16 ∧ w.extractLsb' 0 8 = b :=
  extractLsb'_eq_append_iff (m := 16) (n := 8) (k := 0)

/-- The operand field of format I. -/
theorem fieldI_iff {idx : BitVec 9} :
    w.extractLsb' 0 24 = 0#15 ++ idx ↔ w.extractLsb' 9 15 = 0#15 ∧ w.extractLsb' 0 9 = idx :=
  extractLsb'_eq_append_iff (m := 15) (n := 9) (k := 0)

/-- The operand field of format N. -/
theorem fieldN_iff {n : BitVec 6} :
    w.extractLsb' 0 24 = 0#18 ++ n ↔ w.extractLsb' 6 18 = 0#18 ∧ w.extractLsb' 0 6 = n :=
  extractLsb'_eq_append_iff (m := 18) (n := 6) (k := 0)

/-- The operand field of format BL. -/
theorem fieldBL_iff {sym len : Byte} : w.extractLsb' 0 24 = 0#8 ++ len ++ sym ↔
    w.extractLsb' 16 8 = 0#8 ∧ w.extractLsb' 8 8 = len ∧ w.extractLsb' 0 8 = sym := by
  have houter : w.extractLsb' 0 24 = 0#8 ++ len ++ sym ↔ w.extractLsb' 8 16 = 0#8 ++ len ∧ w.extractLsb' 0 8 = sym :=
    extractLsb'_eq_append_iff (m := 16) (n := 8) (k := 0)
  have hinner : w.extractLsb' 8 16 = 0#8 ++ len ↔ w.extractLsb' 16 8 = 0#8 ∧ w.extractLsb' 8 8 = len :=
    extractLsb'_eq_append_iff (m := 8) (n := 8) (k := 8)
  rw [houter, hinner, and_assoc]

/-! ### Decoding a command's word -/

theorem formatZ_legal (i : Instr) (h : w.extractLsb' 0 24 = 0#24) : formatZ w i = .legal i := by
  simp [formatZ, ifReservedZero, h]

theorem formatB_legal (f : Byte → Instr) {b : Byte} (h : w.extractLsb' 0 24 = 0#16 ++ b) : formatB w f = .legal (f b) := by
  obtain ⟨hz, hb⟩ := fieldB_iff.mp h
  simp [formatB, ifReservedZero, hz, hb]

theorem formatI_legal (f : BitVec 9 → Instr) {idx : BitVec 9} (h : w.extractLsb' 0 24 = 0#15 ++ idx) :
    formatI w f = .legal (f idx) := by
  obtain ⟨hz, hidx⟩ := fieldI_iff.mp h
  simp [formatI, ifReservedZero, hz, hidx]

theorem formatBL_legal (f : Byte → Byte → Instr) {sym len : Byte} (h : w.extractLsb' 0 24 = 0#8 ++ len ++ sym) :
    formatBL w f = .legal (f sym len) := by
  obtain ⟨hz, hlen, hsym⟩ := fieldBL_iff.mp h
  simp [formatBL, ifReservedZero, hz, hlen, hsym]

theorem formatN_legal (f : BitVec 6 → Instr) {n : BitVec 6} (h : w.extractLsb' 0 24 = 0#18 ++ n)
    (hn : legalBitCount n = true) : formatN w f = .legal (f n) := by
  obtain ⟨hz, hn'⟩ := fieldN_iff.mp h
  simp [formatN, hz, hn', hn]

/-- The opcode and operands of a well-formed command are all that the decoder asks for, format by format (R81, R83). -/
theorem ShowsFields.decode_eq {i : Instr} (h : ShowsFields w i) (hwf : i.wf = true) : decode w = .legal i := by
  obtain ⟨hop, hfield⟩ := h
  rw [decode, hop]
  cases i with
  | nop => exact formatZ_legal .nop hfield
  | freqClear => exact formatZ_legal .freqClear hfield
  | freqCount sym => exact formatB_legal .freqCount hfield
  | freqLoad sym => exact formatB_legal .freqLoad hfield
  | freqRead slot => exact formatB_legal .freqRead hfield
  | build => exact formatZ_legal .build hfield
  | nodeRead idx => exact formatI_legal .nodeRead hfield
  | genCodes => exact formatZ_legal .genCodes hfield
  | codeRead slot => exact formatB_legal .codeRead hfield
  | codeClear => exact formatZ_legal .codeClear hfield
  | codeLoad sym len => exact formatBL_legal .codeLoad hfield
  | encStart => exact formatZ_legal .encStart hfield
  | encSym sym => exact formatB_legal .encSym hfield
  | encFlush => exact formatZ_legal .encFlush hfield
  | decStart => exact formatZ_legal .decStart hfield
  | decWord n => exact formatN_legal .decWord hfield hwf
  | decChar c => exact formatB_legal .decChar hfield
  | decEnd => exact formatZ_legal .decEnd hfield
  | errClear => exact formatZ_legal .errClear hfield
  | softReset => exact formatZ_legal .softReset hfield

/-- The word of a command shows its fields (R80). -/
theorem showsFields_encode (i : Instr) : ShowsFields (encode i) i := Laws.Fields.of_append _ _

/-! ### Legal words are those of well-formed commands -/

theorem legalBitCount_of_formatN {f : BitVec 6 → Instr} (h : formatN w f = .legal j) :
    legalBitCount (w.extractLsb' 0 6) = true := by
  simp only [formatN] at h
  split at h
  · split at h
    · assumption
    · cases h
  · cases h

/-- The decoder answers no command but a well-formed one: DEC_WORD's `n` is checked (R85). -/
theorem wf_of_decode (h : decode w = .legal j) : j.wf = true := by
  cases j with
  | decWord n =>
    obtain ⟨hop, hfield⟩ := decode_showsFields h
    obtain ⟨-, rfl⟩ := fieldN_iff.mp hfield
    rw [decode, hop] at h
    exact legalBitCount_of_formatN (f := .decWord) h
  | _ => rfl

/-- What the decoder accepts, and as which command (R80, R81, R83, R85). -/
theorem decode_eq_legal_iff : decode w = .legal j ↔ ShowsFields w j ∧ j.wf = true :=
  ⟨fun h => ⟨decode_showsFields h, wf_of_decode h⟩, fun ⟨h, hwf⟩ => h.decode_eq hwf⟩

/-! ### The match and mask table -/

/-- A word is its two fields side by side. -/
theorem eq_append_iff {m n : Nat} {w : BitVec (m + n)} {a : BitVec m} {b : BitVec n} :
    w = a ++ b ↔ w.extractLsb' n m = a ∧ w.extractLsb' 0 n = b := by
  have h := extractLsb'_eq_append_iff (w := w) (k := 0) (a := a) (b := b)
  rwa [BitVec.extractLsb'_eq_self, Nat.zero_add] at h

/-- A row that fixes the opcode and the `m` zeros below it covers the words that show them (R83). -/
theorem and_mask_eq_iff {m n : Nat} {w mask pattern : BitVec (8 + m + n)} {op : Byte}
    (hmask : mask = BitVec.allOnes (8 + m) ++ 0#n) (hpattern : pattern = op ++ 0#m ++ 0#n) :
    w &&& mask = pattern ↔ w.extractLsb' (n + m) 8 = op ∧ w.extractLsb' n m = 0#m := by
  have hw : w = w.extractLsb' n (8 + m) ++ w.extractLsb' 0 n := eq_append_iff.mpr ⟨rfl, rfl⟩
  have hcut : w &&& mask = w.extractLsb' n (8 + m) ++ 0#n := by
    conv_lhs => rw [hw, hmask, BitVec.and_append, BitVec.and_allOnes, BitVec.and_zero]
  rw [hcut, hpattern, BitVec.append_left_inj, extractLsb'_eq_append_iff]

section
variable {pattern : Word}

theorem rowZ_iff (i : Instr) (hpattern : pattern = i.opcode ++ 0#24) (hfield : i.operandField = 0#24) :
    w &&& 0xFFFFFFFF#32 = pattern ↔ ShowsFields w i := by
  rw [ShowsFields, hfield, ← eq_append_iff (m := 8) (n := 24), hpattern, show 0xFFFFFFFF#32 = BitVec.allOnes 32 from rfl,
    BitVec.and_allOnes]

theorem rowB_iff (op : Byte) (f : Byte → Instr) (hpattern : pattern = op ++ 0#16 ++ 0#8)
    (hf : ∀ b, (f b).opcode = op ∧ (f b).operandField = 0#16 ++ b) :
    w &&& 0xFFFFFF00#32 = pattern ↔ ∃ b, ShowsFields w (f b) := by
  refine (and_mask_eq_iff (m := 16) (n := 8) rfl hpattern).trans ?_
  simp [ShowsFields, hf, fieldB_iff]

theorem row_nodeRead_iff : w &&& 0xFFFFFE00#32 = 0x21000000#32 ↔ ∃ idx, ShowsFields w (.nodeRead idx) := by
  refine (and_mask_eq_iff (m := 15) (n := 9) (op := 0x21#8) rfl rfl).trans ?_
  simp [ShowsFields, Instr.opcode, Instr.operandField, fieldI_iff]

theorem row_codeLoad_iff : w &&& 0xFFFF0000#32 = 0x33000000#32 ↔ ∃ sym len, ShowsFields w (.codeLoad sym len) := by
  refine (and_mask_eq_iff (m := 8) (n := 16) (op := 0x33#8) rfl rfl).trans ?_
  simp [ShowsFields, Instr.opcode, Instr.operandField, fieldBL_iff]

theorem row_decWord_iff : w &&& 0xFFFFFFC0#32 = 0x51000000#32 ↔ ∃ n, ShowsFields w (.decWord n) := by
  refine (and_mask_eq_iff (m := 18) (n := 6) (op := 0x51#8) rfl rfl).trans ?_
  simp [ShowsFields, Instr.opcode, Instr.operandField, fieldN_iff]

end

/-- A command is one of the constructors, in the order of the table (R83). -/
theorem exists_instr_iff {P : Instr → Prop} : (∃ i, P i) ↔
    P .nop ∨ P .freqClear ∨ (∃ sym, P (.freqCount sym)) ∨ (∃ sym, P (.freqLoad sym)) ∨ (∃ slot, P (.freqRead slot)) ∨
    P .build ∨ (∃ idx, P (.nodeRead idx)) ∨ P .genCodes ∨ (∃ slot, P (.codeRead slot)) ∨ P .codeClear ∨
    (∃ sym len, P (.codeLoad sym len)) ∨ P .encStart ∨ (∃ sym, P (.encSym sym)) ∨ P .encFlush ∨ P .decStart ∨
    (∃ n, P (.decWord n)) ∨ (∃ c, P (.decChar c)) ∨ P .decEnd ∨ P .errClear ∨ P .softReset := by
  constructor
  · rintro ⟨i, hi⟩
    cases i <;> grind
  · rintro (h | h | ⟨_, h⟩ | ⟨_, h⟩ | ⟨_, h⟩ | h | ⟨_, h⟩ | h | ⟨_, h⟩ | h | ⟨_, _, h⟩ | h | ⟨_, h⟩ | h | h | ⟨_, h⟩ |
      ⟨_, h⟩ | h | h | h) <;> exact ⟨_, h⟩

/-- Row by row, the table's words are those that show some command's opcode and operands (R81, R83). -/
theorem opcodeRows_cover_iff : (∃ r ∈ opcodeRows, w &&& r.mask = r.pattern) ↔ ∃ i, ShowsFields w i := by
  rw [exists_instr_iff]
  simp only [opcodeRows, List.mem_cons, List.not_mem_nil, or_false, exists_eq_or_imp, exists_eq_left]
  exact or_congr (rowZ_iff .nop rfl rfl) <| or_congr (rowZ_iff .freqClear rfl rfl) <|
    or_congr (rowB_iff 0x11#8 .freqCount rfl fun _ => ⟨rfl, rfl⟩) <|
    or_congr (rowB_iff 0x12#8 .freqLoad rfl fun _ => ⟨rfl, rfl⟩) <|
    or_congr (rowB_iff 0x13#8 .freqRead rfl fun _ => ⟨rfl, rfl⟩) <|
    or_congr (rowZ_iff .build rfl rfl) <| or_congr row_nodeRead_iff <|
    or_congr (rowZ_iff .genCodes rfl rfl) <| or_congr (rowB_iff 0x31#8 .codeRead rfl fun _ => ⟨rfl, rfl⟩) <|
    or_congr (rowZ_iff .codeClear rfl rfl) <| or_congr row_codeLoad_iff <|
    or_congr (rowZ_iff .encStart rfl rfl) <| or_congr (rowB_iff 0x41#8 .encSym rfl fun _ => ⟨rfl, rfl⟩) <|
    or_congr (rowZ_iff .encFlush rfl rfl) <| or_congr (rowZ_iff .decStart rfl rfl) <|
    or_congr row_decWord_iff <| or_congr (rowB_iff 0x52#8 .decChar rfl fun _ => ⟨rfl, rfl⟩) <|
    or_congr (rowZ_iff .decEnd rfl rfl) <| or_congr (rowZ_iff .errClear rfl rfl) (rowZ_iff .softReset rfl rfl)

theorem ShowsFields.opcode_toNat (h : ShowsFields w j) : w.toNat / 2 ^ 24 = j.opcode.toNat := by
  obtain ⟨hop, -⟩ := h
  have hlt := w.isLt
  rw [← hop, BitVec.extractLsb'_toNat, Nat.shiftRight_eq_div_pow, Nat.mod_eq_of_lt (by omega)]

/-- Among the words of the table, those of well-formed commands are the ones whose `n`, if they are DEC_WORD's, is 1 to 32 (R85). -/
theorem ShowsFields.wf_iff (h : ShowsFields w j) :
    j.wf = true ↔ (w.toNat / 2 ^ 24 = 0x51 → 1 ≤ w.toNat % 64 ∧ w.toNat % 64 ≤ 32) := by
  rw [h.opcode_toNat]
  cases j with
  | decWord n =>
    obtain ⟨-, hfield⟩ := h
    obtain ⟨-, rfl⟩ := fieldN_iff.mp hfield
    simp [Instr.wf, legalBitCount, Instr.opcode]
  | _ => simp [Instr.wf, Instr.opcode]

end

end Sys2Proof
end

section
/-! The loops of the host assembly, POLL, DRAIN_ENC and DRAIN_DEC, run to their ends (R72, R87, R88, R277). -/

namespace Sys2Proof.Machine

theorem run_of_step {s t : State} (h : step s = .next t) (k : Nat) : core.run (k + 1) s = core.run k t := by
  have hstep : core.step s = .next t := h
  simp only [Host.Core.run, hstep]

theorem step_of_pending {s : State} {a : HostAction} {rest : List HostAction} (h : s.host.pending = a :: rest) :
    step s = runAction a (s.setPending rest) := by
  simp only [step, hostStep, h]

theorem run_zero (s : State) : core.run 0 s = .next s := rfl

/-- A register read with BUSY = 0. -/
theorem busAccess_read {s : State} (hb : s.busy = false) (r : Reg) :
    busAccess (readRequest r) s = .next (respond (.read (readValue s r)) (readEffect s r)) := by
  simp [busAccess, readRequest, legal_of_aligned (regOffset_aligned r), hb, idleAccess]

/-- A read of STATUS while BUSY = 1 is exact, and counts toward the end of BUSY (R49, R276). -/
theorem busAccess_status_busy {s : State} (hb : s.busy = true) :
    busAccess (readRequest .status) s = .next (tickBusy (respond (.read s.statusWord) s)) := by
  simp [busAccess, readRequest, legal_of_aligned (regOffset_aligned _), hb, busyAccess, busyReadAccess]

@[simp] theorem lastRead_respond (v : Word) (s : State) : (respond (.read v) s).lastRead = v := rfl

@[simp] theorem lastRead_tickBusy (s : State) : (tickBusy s).lastRead = s.lastRead := rfl

/-! ### POLL -/

theorem statusWord_bit_zero (s : State) : s.statusWord.getLsbD 0 = s.busy := by
  rw [State.statusWord, BitVec.getLsbD_append]
  simp

section
variable {s : State} {rest : List HostAction}

theorem step_poll (h : s.host.pending = .poll :: rest) :
    step s = onNext pollAgain (busAccess (readRequest .status) (s.setPending rest)) :=
  step_of_pending h

/-- POLL reads STATUS once more while BUSY = 1. -/
theorem step_poll_busy (h : s.host.pending = .poll :: rest) (hb : s.busy = true) :
    step s = .next (tickBusy (respond (.read s.statusWord) s)) := by
  have hbit : (s.setPending rest).statusWord.getLsbD 0 = true := (statusWord_bit_zero s).trans hb
  have hself : s.setPending (.poll :: rest) = s := by
    rw [← h]
    rfl
  rw [step_poll h, busAccess_status_busy (s := s.setPending rest) hb, onNext_next, pollAgain, lastRead_tickBusy,
    lastRead_respond, if_pos hbit]
  conv_rhs => rw [← hself]
  rfl

/-- POLL ends with the read that finds BUSY = 0. -/
theorem step_poll_idle (h : s.host.pending = .poll :: rest) (hb : s.busy = false) :
    step s = .next (respond (.read s.statusWord) (s.setPending rest)) := by
  have hbit : ¬ (readValue s .status).getLsbD 0 = true := by
    rw [readValue, statusWord_bit_zero, hb]
    decide
  rw [step_poll h, busAccess_read (s := s.setPending rest) hb, readValue_setPending, onNext_next, pollAgain,
    lastRead_respond, if_neg hbit]
  rfl

end

/-! ### DRAIN -/

/-- The loop action reads a level register and, while it is not 0, takes the oldest word of the queue from an output register:
`withQ q h` is the state with the queue `q` and the host's side `h` (R88). -/
structure DrainsBy (action : HostAction) (level out : Reg) (withQ : List Word → HostSide → State) : Prop where
  run : ∀ u, runAction action u = onNext (drainAgain out action) (busAccess (readRequest level) u)
  idle : ∀ q h, (withQ q h).busy = false
  host : ∀ q h, (withQ q h).host = h
  hostSide : ∀ q h h', { withQ q h with host := h' } = withQ q h'
  readLevel : ∀ q h, readValue (withQ q h) level = levelWord q
  keeps : ∀ u, readEffect u level = u
  readOut : ∀ q h, readValue (withQ q h) out = q.headD 0#32
  pops : ∀ q h, readEffect (withQ q h) out = withQ q.tail h

/-- A queue's level as a word, for a queue within FIFO_DEPTH (R7, R72). -/
theorem levelWord_eq {q : List Word} (h : q.length ≤ 65535) : levelWord q = BitVec.ofNat 32 q.length := by
  refine BitVec.eq_of_toNat_eq ?_
  rw [levelWord_toNat, BitVec.toNat_ofNat]
  omega

section
variable {action : HostAction} {level out : Reg} {withQ : List Word → HostSide → State} (hd : DrainsBy action level out withQ)
include hd

theorem DrainsBy.respond (q : List Word) (h : HostSide) (r : Response) :
    respond r (withQ q h) = withQ q { h with responses := r :: h.responses } := by
  rw [Machine.respond, hd.host, hd.hostSide]

theorem DrainsBy.setPending (q : List Word) (h : HostSide) (as : List HostAction) :
    (withQ q h).setPending as = withQ q { h with pending := as } := by
  rw [State.setPending, hd.host, hd.hostSide]

/-- The loop's read of the level, before it looks at the value. -/
theorem DrainsBy.step_level (q : List Word) (rest : List HostAction) (rs : List Response) (d : Nat) :
    step (withQ q ⟨action :: rest, rs, d⟩) =
      .next (drainAgain out action (Machine.respond (.read (levelWord q)) (withQ q ⟨rest, rs, d⟩))) := by
  rw [step_of_pending (by rw [hd.host]), hd.run, hd.setPending, busAccess_read (hd.idle _ _), hd.readLevel, hd.keeps,
    onNext_next]

/-- The loop ends with the read that finds the queue empty. -/
theorem DrainsBy.step_empty (rest : List HostAction) (rs : List Response) (d : Nat) :
    step (withQ [] ⟨action :: rest, rs, d⟩) = .next (withQ [] ⟨rest, .read 0#32 :: rs, d⟩) := by
  have hlevel : levelWord [] = 0#32 := rfl
  rw [hd.step_level, drainAgain, lastRead_respond, if_pos hlevel, hd.respond, hlevel]

/-- With a word in the queue the loop goes on to the output register. -/
theorem DrainsBy.step_word {w : Word} {q : List Word} (hq : (w :: q).length ≤ 65535) (rest : List HostAction)
    (rs : List Response) (d : Nat) :
    step (withQ (w :: q) ⟨action :: rest, rs, d⟩) =
      .next (withQ (w :: q) ⟨.access (readRequest out) :: action :: rest,
        .read (BitVec.ofNat 32 (q.length + 1)) :: rs, d⟩) := by
  have hne : levelWord (w :: q) ≠ 0#32 := by
    intro h
    have := congrArg BitVec.toNat h
    rw [levelWord_toNat] at this
    simp only [List.length_cons, BitVec.toNat_ofNat] at this hq
    omega
  rw [hd.step_level, drainAgain, lastRead_respond, if_neg hne, hd.respond, State.withPending, hd.setPending, hd.host,
    levelWord_eq hq]
  rfl

/-- The read of the output register takes the oldest word. -/
theorem DrainsBy.step_out (w : Word) (q : List Word) (rest : List HostAction) (rs : List Response) (d : Nat) :
    step (withQ (w :: q) ⟨.access (readRequest out) :: rest, rs, d⟩) = .next (withQ q ⟨rest, .read w :: rs, d⟩) := by
  rw [step_of_pending (by rw [hd.host]), hd.setPending, runAction, busAccess_read (hd.idle _ _), hd.readOut, hd.pops,
    List.headD_cons, List.tail_cons, hd.respond]

/-- The loop empties the queue, oldest word first (R72, R88). -/
theorem DrainsBy.run_drain {q : List Word} (hq : q.length ≤ 65535) (rest : List HostAction) (rs : List Response) (d : Nat) :
    core.run (2 * q.length + 1) (withQ q ⟨action :: rest, rs, d⟩) =
      .next (withQ [] ⟨rest, (drainReads q).reverse ++ rs, d⟩) := by
  induction q generalizing rs with
  | nil => exact run_of_step (hd.step_empty rest rs d) 0
  | cons w q ih =>
    have hq' : q.length ≤ 65535 := by
      simp only [List.length_cons] at hq
      omega
    calc core.run (2 * q.length + 1 + 1 + 1) (withQ (w :: q) ⟨action :: rest, rs, d⟩)
      _ = core.run (2 * q.length + 1) (withQ q ⟨action :: rest, .read w :: .read (BitVec.ofNat 32 (q.length + 1)) :: rs, d⟩) := by
        rw [run_of_step (hd.step_word hq rest rs d), run_of_step (hd.step_out w q _ _ d)]
      _ = _ := by rw [ih hq']; simp [drainReads]

end

/-- The state with this queue in the encoder and this host's side. -/
def State.withEncQ (s : State) (q : List Word) (h : HostSide) : State := { s with enc := { s.enc with q := q }, host := h }

/-- The state with this queue in the decoder and this host's side. -/
def State.withDecQ (s : State) (q : List Word) (h : HostSide) : State := { s with dec := { s.dec with q := q }, host := h }

theorem drainsBy_drainEnc {s : State} (hb : s.busy = false) : DrainsBy .drainEnc .encLevel .encOut s.withEncQ where
  run _ := rfl
  idle _ _ := hb
  host _ _ := rfl
  hostSide _ _ _ := rfl
  readLevel _ _ := rfl
  keeps _ := rfl
  readOut _ _ := rfl
  pops _ _ := rfl

theorem drainsBy_drainDec {s : State} (hb : s.busy = false) : DrainsBy .drainDec .decLevel .decOut s.withDecQ where
  run _ := rfl
  idle _ _ := hb
  host _ _ := rfl
  hostSide _ _ _ := rfl
  readLevel _ _ := rfl
  keeps _ := rfl
  readOut _ _ := rfl
  pops _ _ := rfl

end Sys2Proof.Machine
end

section
/-! The statements about the encoding of commands (30_encoding.md), settled. -/

namespace Sys2Proof.Machine

/-- Settles O2: the word of a command shows its opcode and operands. -/
theorem decodeOfEncodeIsTheCommand : Obligations.DecodeOfEncodeIsTheCommand :=
  fun i hwf => (showsFields_encode i).decode_eq hwf

/-- Settles O3: a legal word shows its command's fields, and the decoder has checked DEC_WORD's `n`. -/
theorem legalWordsAreTheirOwnEncodings : Obligations.LegalWordsAreTheirOwnEncodings :=
  fun _ _ h => ⟨encode_of_decode h, wf_of_decode h⟩

/-- Settles O4: a legal word shows a well-formed command's fields, and a row of the table is what some command's fields show. -/
theorem decodeAcceptsExactlyTheOpcodeMap : Obligations.DecodeAcceptsExactlyTheOpcodeMap := by
  intro w
  simp only [decode_eq_legal_iff, opcodeRows_cover_iff]
  constructor
  · rintro ⟨i, h, hwf⟩
    exact ⟨⟨i, h⟩, h.wf_iff.mp hwf⟩
  · rintro ⟨⟨i, h⟩, hn⟩
    exact ⟨i, h, h.wf_iff.mpr hn⟩

/-- A word outside the table, or DEC_WORD's with an `n` out of range, is illegal. -/
theorem decode_illegal_of_outside {w : Word} (h : (∀ r ∈ opcodeRows, w &&& r.mask ≠ r.pattern) ∨
    (w.toNat / 2 ^ 24 = 0x51 ∧ (w.toNat % 64 = 0 ∨ 32 < w.toNat % 64))) : ∃ why, decode w = .illegal why := by
  cases hdec : decode w with
  | illegal why => exact ⟨why, rfl⟩
  | legal i =>
    obtain ⟨⟨r, hr, hrow⟩, hn⟩ := (decodeAcceptsExactlyTheOpcodeMap w).mp ⟨i, hdec⟩
    rcases h with hout | ⟨hop, hcount⟩
    · exact absurd hrow (hout r hr)
    · have := hn hop
      omega

theorem acceptCommand_illegal {s : State} {w : Word} {why : Illegal} (herr : s.latch.err = false)
    (hdec : decode w = .illegal why) : acceptCommand w s = .next (startBusy (raise .illegalCommand w s)) := by
  simp [acceptCommand, herr, hdec]

/-- Settles O6: with ERR = 0 the word is decoded, and it is illegal. -/
theorem stepRaisesIllegalCommand : Obligations.StepRaisesIllegalCommand := by
  intro s w rest hnext hb herr hout
  obtain ⟨why, hdec⟩ := decode_illegal_of_outside hout
  exact (step_writeReg (r := .cmd) hnext hb).trans (acceptCommand_illegal herr hdec)

/-- Settles O16, by induction on how long BUSY lasts. -/
theorem pollEndsWithBusyClear : Obligations.PollEndsWithBusyClear := by
  intro s rest h
  induction hn : s.busyLeft generalizing s with
  | zero =>
    refine ⟨[.read s.statusWord], rfl, ?_⟩
    rw [run_of_step (step_poll_idle h (busy_eq_false.mpr hn)), run_zero, ← hn]
    rfl
  | succ n ih =>
    have hstep := step_poll_busy h (busy_eq_true.mpr (by omega))
    obtain ⟨rs, hlen, hrun⟩ := ih (tickBusy (respond (.read s.statusWord) s)) h (by simp [hn])
    refine ⟨rs ++ [.read s.statusWord], by simp [hlen], ?_⟩
    rw [run_of_step hstep, hrun]
    simp

/-- Settles O17: each loop drains its queue, whose words FIFO_DEPTH bounds. -/
theorem drainReadsTheQueueInOrder : Obligations.DrainReadsTheQueueInOrder := by
  intro s rest hinv hb
  refine ⟨fun h => ?_, fun h => ?_⟩
  · have hrun := (drainsBy_drainEnc hb).run_drain (hinv.enc.queue.trans hinv.depth.2) rest s.host.responses s.host.draws
    rw [← h] at hrun
    exact hrun
  · have hrun := (drainsBy_drainDec hb).run_drain (hinv.dec.queue.trans hinv.depth.2) rest s.host.responses s.host.draws
    rw [← h] at hrun
    exact hrun

/-- Settles O1: each word is its command's encoding. -/
theorem opcodeWordsDecodeAsWritten : Obligations.OpcodeWordsDecodeAsWritten :=
  ⟨decodeOfEncodeIsTheCommand .nop rfl, decodeOfEncodeIsTheCommand (.freqCount 0x62#8) rfl,
   decodeOfEncodeIsTheCommand (.nodeRead 0x102#9) rfl, decodeOfEncodeIsTheCommand (.codeLoad 0x78#8 2#8) rfl,
   decodeOfEncodeIsTheCommand (.encSym 0x61#8) rfl, decodeOfEncodeIsTheCommand (.decWord 23#6) rfl,
   decodeOfEncodeIsTheCommand (.decChar 0x0A#8) rfl, decodeOfEncodeIsTheCommand .softReset rfl⟩

end Sys2Proof.Machine
end

section
/-! What the commands of the frequency front end answer, one equation for each case of their rules (R111 to R114). -/

namespace Sys2Proof.Machine

variable {s : State} {sym : Byte} {k : Nat}

/-- Two fields side by side are the upper one over zeros, or-ed with the lower one. -/
theorem append_eq_or_setWidth {m n : Nat} (a : BitVec m) (b : BitVec n) : a ++ b = (a ++ 0#n) ||| b.setWidth (m + n) := by
  ext j hj
  by_cases h : j < n
  · simp [BitVec.getElem_append, h]
  · simp [BitVec.getElem_append, h, BitVec.getLsbD_of_ge b j (Nat.le_of_not_lt h)]

/-- The word of a command of format B is its row's pattern or-ed with the operand (R81, R83). -/
theorem encode_formatB {i : Instr} {pattern : Word} {b : Byte} (op : Byte) (hpattern : pattern = op ++ 0#24)
    (hop : i.opcode = op) (hfield : i.operandField = 0#16 ++ b) : encode i = pattern ||| b.setWidth 32 := by
  have hzero : 0#16 ++ b = b.setWidth 24 := by rw [append_eq_or_setWidth]; simp
  rw [encode, hop, append_eq_or_setWidth, hfield, hzero, BitVec.setWidth_setWidth (by decide), hpattern]

theorem exec_freqCount_of_find (h : s.ft.find sym = some k) (hc : (s.ft.entry k).count ≠ 0xFFFFFFFF#32) :
    exec (.freqCount sym) s = .next { s with ft := s.ft.setEntry k ⟨sym, (s.ft.entry k).count + 1⟩ } := by
  obtain ⟨-, hsym⟩ := FreqTable.find_some h
  simp [exec, execFreqCount, h, hc, hsym]

theorem exec_freqCount_overflow (h : s.ft.find sym = some k) (hc : (s.ft.entry k).count = 0xFFFFFFFF#32) :
    exec (.freqCount sym) s = .next (raise .countOverflow (sym.setWidth 32) s) := by
  simp [exec, execFreqCount, fault, h, hc]

theorem exec_freqCount_new (h : s.ft.find sym = none) :
    exec (.freqCount sym) s = .next { s with ft := s.ft.append ⟨sym, 1#32⟩ } := by
  simp [exec, execFreqCount, h]

theorem exec_freqLoad_of_find (h : s.ft.find sym = some k) :
    exec (.freqLoad sym) s = .next { s with ft := s.ft.setEntry k ⟨sym, s.arg0⟩ } := by
  obtain ⟨-, hsym⟩ := FreqTable.find_some h
  simp [exec, execFreqLoad, h, hsym]

theorem exec_freqLoad_new (h : s.ft.find sym = none) :
    exec (.freqLoad sym) s = .next { s with ft := s.ft.append ⟨sym, s.arg0⟩ } := by
  simp [exec, execFreqLoad, h]

theorem exec_freqRead_used {slot : Byte} (h : slot.toNat < s.ft.n) :
    exec (.freqRead slot) s =
      .next (setRes (1#1 ++ 0#23 ++ (s.ft.entry slot.toNat).sym) (s.ft.entry slot.toNat).count 0#32 0#32 s) := by
  simp [exec, execFreqRead, h]

theorem exec_freqRead_unused {slot : Byte} (h : s.ft.n ≤ slot.toNat) :
    exec (.freqRead slot) s = .next (setRes 0#32 0#32 0#32 0#32 s) := by
  simp [exec, execFreqRead, Nat.not_lt.mpr h]

theorem exec_codeClear_of_closed (h : s.sessionOpen = false) :
    exec .codeClear s = .next { s with ct := { s.ct with n := 0 } } := by
  simp [exec, execCodeClear, h]

theorem exec_codeClear_of_open (h : s.sessionOpen = true) :
    exec .codeClear s = .next (raise .tableBusy (encode .codeClear) s) := by
  simp [exec, execCodeClear, fault, h]

end Sys2Proof.Machine
end

section
/-! The distinct symbols of a sequence in order of first occurrence, and the table that has counted them (R115, R116). -/

namespace Sys2Proof.Machine

theorem mem_firstSeen {S : List Byte} {c : Byte} : c ∈ firstSeen S ↔ c ∈ S := by
  induction S with
  | nil => rfl
  | cons d rest ih => by_cases h : c = d <;> simp [firstSeen, h, ih]

theorem nodup_firstSeen (S : List Byte) : (firstSeen S).Nodup := by
  induction S with
  | nil => exact List.nodup_nil
  | cons c rest ih => exact List.nodup_cons.mpr ⟨by simp, ih.filter _⟩

/-- A symbol seen before leaves the order as it is; a new one comes last. -/
theorem firstSeen_concat (S : List Byte) (c : Byte) :
    firstSeen (S ++ [c]) = if c ∈ S then firstSeen S else firstSeen S ++ [c] := by
  induction S with
  | nil => rfl
  | cons d rest ih =>
    rw [List.cons_append, firstSeen, ih, firstSeen]
    by_cases hd : c = d
    · split <;> simp [hd]
    · split <;> simp [*]

/-- The occurrences of the distinct symbols are all there are. -/
theorem sum_count_firstSeen (S : List Byte) : ((firstSeen S).map (S.count ·)).sum = S.length := by
  have hperm : (firstSeen S).Perm S.dedup :=
    (List.perm_ext_iff_of_nodup (nodup_firstSeen S) S.nodup_dedup).mpr fun c => by rw [mem_firstSeen, List.mem_dedup]
  rw [(hperm.map _).sum_eq, List.sum_map_count_dedup_eq_length]

/-- The table has counted exactly the symbols of `S`: one entry for each distinct symbol, in the order of first occurrence. -/
structure FreqTable.Counts (t : FreqTable) (S : List Byte) : Prop where
  size : t.n = (firstSeen S).length
  entry : ∀ i c, (firstSeen S)[i]? = some c → (t.entry i).sym = c ∧ (t.entry i).count.toNat = S.count c

variable {t : FreqTable} {S : List Byte} {c : Byte}

/-- An emptied table has counted no symbol, whatever its memory holds. -/
theorem FreqTable.counts_nil (m : Memory FtEntry) : FreqTable.Counts ⟨0, m⟩ [] := ⟨rfl, nofun⟩

theorem FreqTable.Counts.find_of_getElem? (h : t.Counts S) {i : Nat} (hi : (firstSeen S)[i]? = some c) :
    t.find c = some i := by
  obtain ⟨hlt, -⟩ := List.getElem?_eq_some_iff.mp hi
  refine FreqTable.find_of_distinct (h.size ▸ hlt) (h.entry i c hi).1 fun j k hj hk hjk => ?_
  rw [h.size] at hj hk
  rw [(h.entry j _ (List.getElem?_eq_getElem hj)).1, (h.entry k _ (List.getElem?_eq_getElem hk)).1] at hjk
  exact (nodup_firstSeen S).getElem_inj_iff.mp hjk

theorem FreqTable.Counts.find_of_not_mem (h : t.Counts S) (hc : c ∉ S) : t.find c = none := by
  refine FreqTable.find_none.mpr fun i hi hsym => hc (mem_firstSeen.mp ?_)
  rw [h.size] at hi
  rw [← hsym, (h.entry i _ (List.getElem?_eq_getElem hi)).1]
  exact List.getElem_mem hi

/-- One more occurrence of the symbol in slot `i`. -/
theorem FreqTable.Counts.increment (h : t.Counts S) {i : Nat} (hi : (firstSeen S)[i]? = some c)
    (hlt : S.count c + 1 < 2 ^ 32) : (t.setEntry i ⟨c, (t.entry i).count + 1⟩).Counts (S ++ [c]) := by
  have hseen : firstSeen (S ++ [c]) = firstSeen S := by
    rw [firstSeen_concat, if_pos (mem_firstSeen.mp (List.mem_of_getElem? hi))]
  refine ⟨by rw [hseen]; exact h.size, fun j d hj => ?_⟩
  rw [hseen] at hj
  rw [FreqTable.entry_setEntry]
  split
  · next hji =>
    subst hji
    obtain rfl : c = d := Option.some.inj (hi.symm.trans hj)
    have hcount := (h.entry j c hi).2
    exact ⟨rfl, by simp [hcount]; omega⟩
  · next hji =>
    have hcd : c ≠ d := by
      rintro rfl
      exact hji (Option.some.inj ((h.find_of_getElem? hj).symm.trans (h.find_of_getElem? hi)))
    simpa [List.count_append, List.count_cons_of_ne hcd] using h.entry j d hj

/-- The first occurrence of a symbol. -/
theorem FreqTable.Counts.append (h : t.Counts S) (hc : c ∉ S) : (t.append ⟨c, 1#32⟩).Counts (S ++ [c]) := by
  have hseen : firstSeen (S ++ [c]) = firstSeen S ++ [c] := by rw [firstSeen_concat, if_neg hc]
  refine ⟨by rw [hseen]; simp [h.size], fun j d hj => ?_⟩
  rw [hseen] at hj
  rw [FreqTable.entry_append, h.size]
  split
  · next hjn =>
    obtain rfl : c = d := by simpa [hjn] using hj
    exact ⟨rfl, by simp [List.count_eq_zero.mpr hc]⟩
  · next hjn =>
    have hjlt : j < (firstSeen S).length := by
      obtain ⟨hlt, -⟩ := List.getElem?_eq_some_iff.mp hj
      simp at hlt
      omega
    rw [List.getElem?_append_left hjlt] at hj
    have hcd : c ≠ d := by
      rintro rfl
      exact hc (mem_firstSeen.mp (List.mem_of_getElem? hj))
    simpa [List.count_append, List.count_cons_of_ne hcd] using h.entry j d hj

/-- FREQ_COUNT counts the next symbol of a sequence of fewer than 2^32, without a fault (R112, R115). -/
theorem FreqTable.Counts.exec_freqCount {s : State} (h : s.ft.Counts S) (c : Byte) (hlen : S.length + 1 < 2 ^ 32) :
    ∃ ft : FreqTable, exec (.freqCount c) s = .next { s with ft := ft } ∧ ft.Counts (S ++ [c]) := by
  by_cases hc : c ∈ S
  · obtain ⟨i, hi⟩ := List.mem_iff_getElem?.mp (mem_firstSeen.mpr hc)
    have hlt : S.count c + 1 < 2 ^ 32 := (Nat.succ_le_succ S.count_le_length).trans_lt hlen
    have hmax : (s.ft.entry i).count ≠ 0xFFFFFFFF#32 := fun he => by
      have hcount := (h.entry i c hi).2
      rw [he] at hcount
      simp at hcount
      omega
    exact ⟨_, exec_freqCount_of_find (h.find_of_getElem? hi) hmax, h.increment hi hlt⟩
  · exact ⟨_, exec_freqCount_new (h.find_of_not_mem hc), h.append hc⟩

theorem runCommands_cons {i : Instr} {rest : List Instr} {s u : State} (h : exec i s = .next u) :
    runCommands (i :: rest) s = runCommands rest u := by
  simp [runCommands, h]

/-- Counting on from a table that has counted `S`. -/
theorem FreqTable.Counts.runCommands {s : State} (h : s.ft.Counts S) (more : List Byte)
    (hlen : (S ++ more).length < 2 ^ 32) :
    ∃ ft : FreqTable, Machine.runCommands (more.map .freqCount) s = .next { s with ft := ft } ∧ ft.Counts (S ++ more) := by
  induction more generalizing S s with
  | nil => exact ⟨s.ft, rfl, by simpa using h⟩
  | cons c rest ih =>
    obtain ⟨ft, hexec, hft⟩ := h.exec_freqCount c (by simp at hlen; omega)
    obtain ⟨ft', hrun, hft'⟩ := ih (s := { s with ft := ft }) hft (by simpa using hlen)
    exact ⟨ft', (runCommands_cons hexec).trans hrun, by simpa using hft'⟩

/-- The table that FREQ_CLEAR and a FREQ_COUNT for each symbol leave, from any state (R115). -/
theorem runCommands_freqCounts (s : State) (hlen : S.length < 2 ^ 32) :
    ∃ ft : FreqTable, runCommands (.freqClear :: S.map .freqCount) s = .next { s with ft := ft } ∧ ft.Counts S :=
  (FreqTable.counts_nil s.ft.mem).runCommands (s := { s with ft := { s.ft with n := 0 } }) S hlen

theorem FreqTable.Counts.counts_eq (h : t.Counts S) :
    (List.range t.n).map (fun i => (t.entry i).count.toNat) = (firstSeen S).map (S.count ·) := by
  refine List.ext_getElem (by simp [h.size]) fun i h1 h2 => ?_
  have hi : i < (firstSeen S).length := by simpa using h2
  simpa using (h.entry i _ (List.getElem?_eq_getElem hi)).2

end Sys2Proof.Machine
end

section
/-! The statements about the frequency front end (41_frequency.md), settled. -/

namespace Sys2Proof.Machine

/-- Settles O25: FT's distinct symbols make the slot of a present one the slot found, and leave a slot for an absent one. -/
theorem freqCountCountsOneOccurrence : Obligations.FreqCountCountsOneOccurrence := by
  intro s sym hwf
  refine ⟨encode_formatB 0x11#8 rfl rfl rfl, fun i hi hsym => ?_, fun habsent => ?_⟩
  · have hfind := FreqTable.find_of_distinct hi hsym hwf.distinct
    exact ⟨exec_freqCount_overflow hfind,
      fun hc => ⟨_, exec_freqCount_of_find hfind hc, rfl, fun j => FreqTable.entry_setEntry ..⟩⟩
  · have hfind := FreqTable.find_none.mpr habsent
    exact ⟨hwf.lt_of_find_none hfind, _, exec_freqCount_new hfind, rfl, FreqTable.entry_append _ _⟩

/-- Settles O26, by the lookup as for FREQ_COUNT. -/
theorem freqLoadSetsTheCount : Obligations.FreqLoadSetsTheCount := by
  intro s sym hwf
  refine ⟨encode_formatB 0x12#8 rfl rfl rfl, fun i hi hsym => ?_, fun habsent => ?_⟩
  · have hfind := FreqTable.find_of_distinct hi hsym hwf.distinct
    exact ⟨_, exec_freqLoad_of_find hfind, rfl, fun j => FreqTable.entry_setEntry ..⟩
  · have hfind := FreqTable.find_none.mpr habsent
    exact ⟨hwf.lt_of_find_none hfind, _, exec_freqLoad_new hfind, rfl, FreqTable.entry_append _ _⟩

/-- Settles O28: FREQ_CLEAR leaves the counts of the empty sequence, and each FREQ_COUNT adds its symbol to the sequence
counted. -/
theorem countingASequenceIsExact : Obligations.CountingASequenceIsExact := by
  intro S s hlen
  obtain ⟨ft, hrun, hft⟩ := runCommands_freqCounts s hlen
  exact ⟨ft, hrun, hft.size, fun i hi => hft.entry i _ (List.getElem?_eq_getElem hi),
    by rw [hft.counts_eq, sum_count_firstSeen]⟩

/-- Settles O24: CODE_CLEAR asks whether a session is open. -/
theorem clearCommandsEmptyTheTables : Obligations.ClearCommandsEmptyTheTables := by
  refine ⟨rfl, rfl, fun s => ⟨rfl, fun henc hdec => ?_, fun hopen => ?_⟩⟩
  · exact exec_codeClear_of_closed (sessionOpen_eq_false.mpr ⟨henc, hdec⟩)
  · exact exec_codeClear_of_open (by simpa [State.sessionOpen] using hopen)

/-- Settles O27: a used slot's RES0 is bit 31 or-ed with the symbol. -/
theorem freqReadReportsTheSlot : Obligations.FreqReadReportsTheSlot := by
  refine fun s slot => ⟨encode_formatB 0x13#8 rfl rfl rfl, fun hused => ?_, exec_freqRead_unused⟩
  rw [exec_freqRead_used hused, append_eq_or_setWidth]
  rfl

end Sys2Proof.Machine
end

section
/-! What BUILD and NODE_READ answer, one equation for each case of their rules (R130, R135). -/

namespace Sys2Proof.Machine

/-- The tree arena that BUILD makes of a non-empty table, over what NODE held (R130). -/
def builtTree (t : FreqTable) (m : Memory Node) : TreeArena :=
  { valid := true, n := (mergeAll t m).next, root := (mergeAll t m).live.headD 0, mem := (mergeAll t m).mem }

variable {s : State} {idx : BitVec 9}

theorem exec_build_empty (h : s.ft.n = 0) : exec .build s = .next (raise .emptyInput 0#32 s) := by
  simp [exec, execBuild, h]

theorem exec_build_of_pos (h : 0 < s.ft.n) : exec .build s = .next { s with tree := builtTree s.ft s.tree.mem } := by
  simp [exec, execBuild, builtTree, Nat.ne_of_gt h]

/-- A BUILD that answers a new tree has built it. -/
theorem eq_builtTree {tr : TreeArena} (hn : 0 < s.ft.n) (h : exec .build s = .next { s with tree := tr }) :
    tr = builtTree s.ft s.tree.mem := by
  rw [exec_build_of_pos hn] at h
  injection h with h
  exact (congrArg State.tree h).symm

/-! ### NODE_READ -/

/-- Zeros above a field extend it. -/
theorem zero_append_eq_setWidth {m n : Nat} (b : BitVec n) : 0#m ++ b = b.setWidth (m + n) := by
  rw [append_eq_or_setWidth]
  simp

/-- RES0 of a node in use: bit 31, the variant, whether it is ROOT, and the index (R135). -/
theorem nodeFlags_eq (internal isRoot : Bool) (idx : BitVec 9) :
    (1#1 ++ BitVec.ofBool internal ++ BitVec.ofBool isRoot ++ 0#20 ++ idx : Word) =
      (if internal then 0xC0000000#32 else 0x80000000#32) ||| (if isRoot then 0x20000000#32 else 0#32) |||
        idx.setWidth 32 := by
  rw [append_eq_or_setWidth]
  cases internal <;> cases isRoot <;> rfl

/-- RES3 of an internal node: its children's indexes side by side (R135). -/
theorem childrenWord_eq {a b : Nat} (ha : a < 512) (hb : b < 512) :
    (0#7 ++ BitVec.ofNat 9 b ++ 0#7 ++ BitVec.ofNat 9 a : Word) = BitVec.ofNat 32 (b * 65536 + a) := by
  refine BitVec.eq_of_toNat_eq ?_
  rw [BitVec.toNat_append, BitVec.toNat_append, BitVec.toNat_append, ← Nat.shiftLeft_add_eq_or_of_lt (BitVec.isLt _),
    ← Nat.shiftLeft_add_eq_or_of_lt (by decide), ← Nat.shiftLeft_add_eq_or_of_lt (BitVec.isLt _)]
  simp [Nat.shiftLeft_eq]
  omega

/-- RES2 of a node in use: the upper bits of its weight, which has 40 (R135). -/
theorem weightHigh_eq (w : BitVec 40) : (0#24 ++ w.extractLsb' 32 8 : Word) = (w >>> 32).setWidth 32 := by
  have hw := w.isLt
  rw [zero_append_eq_setWidth]
  refine BitVec.eq_of_toNat_eq ?_
  simp only [BitVec.toNat_setWidth, BitVec.extractLsb'_toNat, BitVec.toNat_ushiftRight, Nat.shiftRight_eq_div_pow]
  omega

/-- A child of a node in use has a 9-bit index (R44). -/
theorem TreeArena.Wf.child_lt {t : TreeArena} (h : t.Wf) (hv : t.valid = true) {k c : Nat} (hk : k < t.n)
    (hc : (nodeAt t.mem k).hasChild c) : c < 512 := by
  obtain ⟨l, hshape⟩ := h.present hv
  obtain ⟨-, hmax⟩ := hshape.leaves
  have hck := hshape.childBelow k c hk hc
  have hn := hshape.count
  simp only [Config.nMax] at hmax
  omega

section
variable (hv : s.tree.valid = true) (hidx : idx.toNat < s.tree.n)
include hv hidx

theorem exec_nodeRead_leaf {w : BitVec 40} {sym : Byte} (hnode : nodeAt s.tree.mem idx.toNat = .leaf w sym) :
    exec (.nodeRead idx) s = .next (setRes
      (0x80000000#32 ||| (if idx.toNat = s.tree.root then 0x20000000#32 else 0#32) ||| idx.setWidth 32)
      (w.setWidth 32) ((w >>> 32).setWidth 32) (sym.setWidth 32) s) := by
  have hsym : (0#24 ++ sym : Word) = sym.setWidth 32 := zero_append_eq_setWidth sym
  simp only [exec, execNodeRead, hv, hidx, hnode, nodeFlags_eq, weightHigh_eq, hsym]
  simp [Node.isInternal, Node.weight, BitVec.setWidth_eq_extractLsb']

theorem exec_nodeRead_internal {w : BitVec 40} {a b : Nat} (hnode : nodeAt s.tree.mem idx.toNat = .internal w a b)
    (ha : a < 512) (hb : b < 512) :
    exec (.nodeRead idx) s = .next (setRes
      (0xC0000000#32 ||| (if idx.toNat = s.tree.root then 0x20000000#32 else 0#32) ||| idx.setWidth 32)
      (w.setWidth 32) ((w >>> 32).setWidth 32) (BitVec.ofNat 32 (b * 65536 + a)) s) := by
  simp only [exec, execNodeRead, hv, hidx, hnode, nodeFlags_eq, weightHigh_eq, childrenWord_eq ha hb]
  simp [Node.isInternal, Node.weight, BitVec.setWidth_eq_extractLsb']

end

theorem exec_nodeRead_unused (h : s.tree.valid = false ∨ s.tree.n ≤ idx.toNat) :
    exec (.nodeRead idx) s = .next (setRes 0#32 0#32 0#32 0#32 s) := by
  have hunused : (s.tree.valid && decide (idx.toNat < s.tree.n)) = false := by rcases h with h | h <;> simp [h]
  simp only [exec, execNodeRead, hunused]
  rfl

/-- The word of a command of format I is its row's pattern or-ed with the operand (R81, R83). -/
theorem encode_formatI {i : Instr} {pattern : Word} {b : BitVec 9} (op : Byte) (hpattern : pattern = op ++ 0#24)
    (hop : i.opcode = op) (hfield : i.operandField = 0#15 ++ b) : encode i = pattern ||| b.setWidth 32 := by
  rw [encode, hop, append_eq_or_setWidth, hfield, zero_append_eq_setWidth, BitVec.setWidth_setWidth (by decide), hpattern]

end Sys2Proof.Machine
end

section
/-! Each merge of BUILD joins the two least live nodes, and the weights of the live nodes add up to the counts (R130 to R132,
R134). -/

namespace Sys2Proof.Machine

/-- Node `k` joins the two nodes of least key that are live when it is created, the least one left, with their exact summed
weight (R130, R132). -/
def JoinsTheTwoLeast (m : Memory Node) (k : Nat) : Prop :=
  ∃ w a b, nodeAt m k = .internal w a b ∧
    w.toNat = (nodeAt m a).weight.toNat + (nodeAt m b).weight.toNat ∧
    LeastKey m (LiveAt m k) a ∧ LeastKey m (fun j => LiveAt m k j ∧ j ≠ a) b

/-- The sum of the weights of the listed nodes. -/
def weightOf (m : Memory Node) (l : List Nat) : Nat := (l.map fun j => (nodeAt m j).weight.toNat).sum

/-- The sum of all counts of a table. -/
def FreqTable.total (t : FreqTable) : Nat := ((List.range t.n).map fun i => (t.entry i).count.toNat).sum

/-- 256 counts of 32 bits do not reach 40 bits (R43, R130). -/
theorem FreqTable.Wf.total_lt {t : FreqTable} (h : t.Wf) : t.total < 2 ^ 40 := by
  have hle : t.total ≤ t.n * (2 ^ 32 - 1) := by
    have := List.sum_le_card_nsmul ((List.range t.n).map fun i => (t.entry i).count.toNat) (2 ^ 32 - 1) fun x hx => by
      obtain ⟨i, -, rfl⟩ := List.mem_map.mp hx
      exact Nat.le_sub_one_of_lt (t.entry i).count.isLt
    simpa [FreqTable.total] using this
  have hn := h.bound
  simp only [Config.nMax] at hn
  omega

theorem weightOf_cons (m : Memory Node) (j : Nat) (l : List Nat) :
    weightOf m (j :: l) = (nodeAt m j).weight.toNat + weightOf m l :=
  List.sum_cons

theorem weightOf_erase (m : Memory Node) {l : List Nat} {j : Nat} (hj : j ∈ l) :
    (nodeAt m j).weight.toNat + weightOf m (l.erase j) = weightOf m l :=
  List.sum_map_erase (fun j => (nodeAt m j).weight.toNat) hj

/-! ### Node memories that agree on the nodes of interest -/

section
variable {m m' : Memory Node} {n : Nat}

theorem weightOf_congr {l : List Nat} (h : ∀ j ∈ l, nodeAt m' j = nodeAt m j) : weightOf m' l = weightOf m l := by
  unfold weightOf
  rw [List.map_congr_left fun j hj => by rw [h j hj]]

theorem keyLess_congr {j k : Nat} (hj : nodeAt m' j = nodeAt m j) (hk : nodeAt m' k = nodeAt m k) :
    KeyLess m' j k ↔ KeyLess m j k := by
  simp only [KeyLess, hj, hk]

theorem liveAt_congr (h : ∀ p, p < n → nodeAt m' p = nodeAt m p) (j : Nat) : LiveAt m' n j ↔ LiveAt m n j := by
  refine and_congr_right fun _ => forall₂_congr fun p hp => ?_
  rw [h p hp]

/-- The least node of a set does not depend on the nodes outside it. -/
theorem LeastKey.congr {P P' : Nat → Prop} {a : Nat} (hP : ∀ j, P' j ↔ P j) (h : ∀ j, P j → nodeAt m' j = nodeAt m j)
    (hleast : LeastKey m P a) : LeastKey m' P' a := by
  obtain ⟨ha, hbelow⟩ := hleast
  refine ⟨(hP a).mpr ha, fun j hj hja => ?_⟩
  rw [hP] at hj
  exact (keyLess_congr (h a ha) (h j hj)).mpr (hbelow j hj hja)

/-- How a node was joined does not depend on the nodes created after it. -/
theorem JoinsTheTwoLeast.congr {k : Nat} (h : ∀ p, p < k + 1 → nodeAt m' p = nodeAt m p) (hjoin : JoinsTheTwoLeast m k) :
    JoinsTheTwoLeast m' k := by
  obtain ⟨w, a, b, hnode, hw, ha, hb⟩ := hjoin
  have hlive (j : Nat) : LiveAt m' k j ↔ LiveAt m k j := liveAt_congr (fun p hp => h p (Nat.lt_succ_of_lt hp)) j
  have hsame (j : Nat) (hj : LiveAt m k j) : nodeAt m' j = nodeAt m j := h j (Nat.lt_succ_of_lt hj.1)
  refine ⟨w, a, b, by rw [h k (Nat.lt_succ_self k), hnode], by rw [hsame a ha.1, hsame b hb.1.1, hw],
    ha.congr hlive hsame, hb.congr (fun j => and_congr_left fun _ => hlive j) fun j hj => hsame j hj.1⟩

end

/-! ### The merge under way -/

/-- What the merge has done so far: each node it created joins the two least, and no weight is lost (R130). -/
structure MergeState.Merged (t : FreqTable) (g : MergeState) : Prop where
  forest : g.Forest t
  joins : ∀ k, t.n ≤ k → k < g.next → JoinsTheTwoLeast g.mem k
  weight : weightOf g.mem g.live = t.total

theorem seed_merged (t : FreqTable) (m : Memory Node) (hn : t.n ≠ 0) :
    MergeState.Merged t { mem := seedLeaves t m, live := List.range t.n, next := t.n } where
  forest := seed_forest t m hn
  joins := fun _ hk hk' => absurd hk' (Nat.not_lt.mpr hk)
  weight := by
    refine congrArg List.sum (List.map_congr_left fun k hk => ?_)
    rw [(seed_forest t m hn).leaf k (List.mem_range.mp hk), Node.weight, BitVec.toNat_setWidth]
    exact Nat.mod_eq_of_lt (Nat.lt_trans (BitVec.isLt _) (by decide))

/-- A turn of the loop on a table whose counts fit (R130). -/
theorem MergeState.Merged.mergeStep {t : FreqTable} (htotal : t.total < 2 ^ 40) {g g' : MergeState} (h : g.Merged t)
    (hg : mergeStep g = some g') : g'.Merged t := by
  have hforest := h.forest.mergeStep hg
  obtain ⟨a, b, ha, hb, hleasta, hleastb, rfl⟩ := mergeStep_some hg
  have hsum : (nodeAt g.mem a).weight.toNat + ((nodeAt g.mem b).weight.toNat +
      weightOf g.mem ((g.live.erase a).erase b)) = t.total := by
    rw [weightOf_erase _ hb, weightOf_erase _ ha, h.weight]
  have hexact : ((nodeAt g.mem a).weight + (nodeAt g.mem b).weight).toNat =
      (nodeAt g.mem a).weight.toNat + (nodeAt g.mem b).weight.toNat := by
    rw [BitVec.toNat_add, Nat.mod_eq_of_lt (by omega)]
  generalize (nodeAt g.mem a).weight + (nodeAt g.mem b).weight = w at hexact hforest ⊢
  have hold (k : Nat) (hk : k < g.next) : nodeAt (setNode g.mem g.next (.internal w a b)) k = nodeAt g.mem k := by
    rw [nodeAt_setNode, if_neg (Nat.ne_of_lt hk)]
  have hnew : nodeAt (setNode g.mem g.next (.internal w a b)) g.next = .internal w a b := by
    rw [nodeAt_setNode, if_pos rfl]
  have hsame (j : Nat) (hj : j ∈ g.live) := hold j ((h.forest.live j).mp hj).1
  have hsameb (j : Nat) (hj : j ∈ g.live.erase a) := hsame j (List.mem_of_mem_erase hj)
  refine ⟨hforest, fun k hk hk' => ?_, ?_⟩
  · rcases Nat.lt_succ_iff_lt_or_eq.mp hk' with hk' | rfl
    · exact (h.joins k hk hk').congr fun p hp => hold p (Nat.lt_of_lt_of_le hp hk')
    · have hlive (j : Nat) : LiveAt (setNode g.mem g.next (.internal w a b)) g.next j ↔ j ∈ g.live :=
        (liveAt_congr hold j).trans (h.forest.live j).symm
      have hliveb (j : Nat) : LiveAt (setNode g.mem g.next (.internal w a b)) g.next j ∧ j ≠ a ↔ j ∈ g.live.erase a := by
        rw [hlive, h.forest.nodup.mem_erase_iff, and_comm]
      exact ⟨w, a, b, hnew, by rw [hsame a ha, hsameb b hb, hexact], LeastKey.congr hlive hsame ⟨ha, hleasta⟩,
        LeastKey.congr hliveb hsameb ⟨hb, hleastb⟩⟩
  · rw [weightOf_cons, hnew, weightOf_congr fun j hj => hsameb j (List.mem_of_mem_erase hj)]
    simp only [Node.weight]
    omega

/-- The loop keeps what each of its turns keeps. -/
theorem mergeLoop_keeps {P : MergeState → Prop} (hstep : ∀ g g', P g → mergeStep g = some g' → P g') (turns : Nat)
    {g : MergeState} (h : P g) : P (mergeLoop turns g) := by
  induction turns generalizing g with
  | zero => exact h
  | succ n ih =>
    simp only [mergeLoop]
    split
    · exact h
    · next g' hg => exact ih (hstep g g' h hg)

theorem mergeAll_merged {t : FreqTable} (ht : t.Wf) (m : Memory Node) (hn : t.n ≠ 0) : (mergeAll t m).Merged t :=
  mergeLoop_keeps (fun _ _ h hg => h.mergeStep ht.total_lt hg) t.n (seed_merged t m hn)

/-- The node left live at the end weighs what all counts add up to (R134). -/
theorem mergeAll_root_weight {t : FreqTable} (ht : t.Wf) (m : Memory Node) (hn : t.n ≠ 0) :
    (nodeAt (mergeAll t m).mem ((mergeAll t m).live.headD 0)).weight.toNat = t.total := by
  obtain ⟨-, k, -, hlive⟩ := mergeAll_forest t m hn
  rw [← (mergeAll_merged ht m hn).weight, hlive, weightOf_cons]
  rfl

end Sys2Proof.Machine
end

section
/-! The merge of BUILD depends on the entries in use alone (R131, R136). -/

namespace Sys2Proof.Machine

/-- The least node of a list depends on the nodes of the list alone. -/
theorem argmin_congr {m m' : Memory Node} {l : List Nat} (h : ∀ j ∈ l, nodeAt m' j = nodeAt m j) :
    argmin m' l = argmin m l := by
  induction l with
  | nil => rfl
  | cons j rest ih =>
    rw [argmin, argmin, ih fun i hi => h i (List.mem_cons_of_mem j hi)]
    cases hk : argmin m rest with
    | none => rfl
    | some k =>
      have hkj : keyBelow m' k j = keyBelow m k j := by
        rw [keyBelow, keyBelow, h j List.mem_cons_self, h k (List.mem_cons_of_mem j (argmin_some hk).1)]
      simp only [hkj]

/-- The turn of the loop that joins `a` and `b` (R130). -/
def joinNodes (g : MergeState) (a b : Nat) : MergeState :=
  { mem := setNode g.mem g.next (.internal ((nodeAt g.mem a).weight + (nodeAt g.mem b).weight) a b)
    live := g.next :: (g.live.erase a).erase b
    next := g.next + 1 }

/-- Two merges at the same point: the same nodes are live, and the nodes created so far are the same. -/
structure MergeState.Same (g g' : MergeState) : Prop where
  next : g'.next = g.next
  live : g'.live = g.live
  nodes : ∀ k, k < g.next → nodeAt g'.mem k = nodeAt g.mem k

theorem mergeStep_eq_some {g u : MergeState} : mergeStep g = some u ↔
    ∃ a b, argmin g.mem g.live = some a ∧ argmin g.mem (g.live.erase a) = some b ∧ joinNodes g a b = u := by
  unfold mergeStep
  cases argmin g.mem g.live with
  | none => simp
  | some a => cases hb : argmin g.mem (g.live.erase a) <;> simp [hb, joinNodes]

section
variable {t : FreqTable} {g g' : MergeState}

/-- Two merges at the same point take the same turn (R131, R136). -/
theorem MergeState.Same.mergeStep {u : MergeState} (h : g.Same g') (hforest : g.Forest t) (hu : mergeStep g = some u) :
    ∃ u', mergeStep g' = some u' ∧ u.Same u' := by
  obtain ⟨a, b, ha, hb, rfl⟩ := mergeStep_eq_some.mp hu
  have hsame (j : Nat) (hj : j ∈ g.live) : nodeAt g'.mem j = nodeAt g.mem j := h.nodes j ((hforest.live j).mp hj).1
  have hsameb (j : Nat) (hj : j ∈ g.live.erase a) : nodeAt g'.mem j = nodeAt g.mem j := hsame j (List.mem_of_mem_erase hj)
  refine ⟨joinNodes g' a b, mergeStep_eq_some.mpr ⟨a, b, ?_, ?_, rfl⟩, congrArg Nat.succ h.next, ?_, fun k hk => ?_⟩
  · rw [h.live, argmin_congr hsame, ha]
  · rw [h.live, argmin_congr hsameb, hb]
  · simp only [joinNodes, h.next, h.live]
  · simp only [joinNodes, nodeAt_setNode, h.next, hsame a (argmin_some ha).1, hsameb b (argmin_some hb).1]
    split
    · rfl
    · next hne => exact h.nodes k (by simp only [joinNodes] at hk; omega)

theorem MergeState.Same.mergeLoop (turns : Nat) (h : g.Same g') (hforest : g.Forest t) :
    (mergeLoop turns g).Same (mergeLoop turns g') := by
  induction turns generalizing g g' with
  | zero => exact h
  | succ n ih =>
    simp only [Machine.mergeLoop]
    cases hu : Machine.mergeStep g with
    | none =>
      rw [mergeStep_none.mpr (h.live ▸ mergeStep_none.mp hu)]
      exact h
    | some u =>
      obtain ⟨u', hu', hsame⟩ := h.mergeStep hforest hu
      rw [hu']
      exact ih hsame (hforest.mergeStep hu)

end

/-- The merge of two tables with the same entries in use, over any two node memories (R131, R136). -/
theorem mergeAll_same {t t' : FreqTable} (hn : t.n ≠ 0) (hlen : t'.n = t.n) (hentry : ∀ i, i < t.n → t'.entry i = t.entry i)
    (m m' : Memory Node) : (mergeAll t m).Same (mergeAll t' m') := by
  have hseed : MergeState.Same { mem := seedLeaves t m, live := List.range t.n, next := t.n }
      { mem := seedLeaves t' m', live := List.range t'.n, next := t'.n } := by
    refine ⟨hlen, congrArg List.range hlen, fun k hk => ?_⟩
    rw [nodeAt_seedLeaves, nodeAt_seedLeaves, if_pos hk, if_pos (hlen ▸ hk), hentry k hk]
  simpa only [mergeAll, hlen] using hseed.mergeLoop t.n (seed_forest t m hn)

end Sys2Proof.Machine
end

section
/-! The statements about the tree builder (42_tree_builder.md), settled. -/

namespace Sys2Proof.Machine

/-- Settles O29: the merge of a non-empty table is a forest over its leaves that ends in one tree. -/
theorem buildMakesATreeOverTheEntries : Obligations.BuildMakesATreeOverTheEntries := by
  refine ⟨rfl, fun s hft hmem => ⟨exec_build_empty, fun hn => ?_⟩⟩
  have hn0 := Nat.ne_of_gt hn
  have hshape : (builtTree s.ft s.tree.mem).Shape s.ft.n := mergeAll_shape hft s.tree.mem hn0
  have hcount := hshape.count
  have hroot := hshape.root
  obtain ⟨hforest, -⟩ := mergeAll_forest s.ft s.tree.mem hn0
  exact ⟨builtTree s.ft s.tree.mem, exec_build_of_pos hn, rfl, by omega, by omega, mergeAll_wf hft hmem hn0, hforest.leaf⟩

/-- Settles O30: the merge has joined each internal node in this way, over the nodes created before it. -/
theorem buildMergesTheTwoLeastNodes : Obligations.BuildMergesTheTwoLeastNodes := by
  intro s tr hft hn hbuild k hk hk'
  obtain rfl := eq_builtTree hn hbuild
  exact (mergeAll_merged hft s.tree.mem (Nat.ne_of_gt hn)).joins k hk hk'

/-- Settles O31: no merge loses weight, so the one node left live has it all. -/
theorem rootWeightIsTheSumOfCounts : Obligations.RootWeightIsTheSumOfCounts := by
  intro s tr hft hn hbuild
  obtain rfl := eq_builtTree hn hbuild
  exact mergeAll_root_weight hft s.tree.mem (Nat.ne_of_gt hn)

/-- Settles O32: the two merges take the same turns. -/
theorem buildDependsOnTheEntriesInUse : Obligations.BuildDependsOnTheEntriesInUse := by
  intro s s' tr tr' hn hlen hentry hbuild hbuild'
  obtain rfl := eq_builtTree hn hbuild
  obtain rfl := eq_builtTree (hlen ▸ hn) hbuild'
  obtain ⟨hnext, hlive, hnodes⟩ := mergeAll_same (Nat.ne_of_gt hn) hlen hentry s.tree.mem s'.tree.mem
  exact ⟨hnext, congrArg (List.headD · 0) hlive, hnodes⟩

/-- Settles O33: the two variants of a node in use and an unused index; a child's index fits its 9 bits by R44. -/
theorem nodeReadReportsTheNode : Obligations.NodeReadReportsTheNode := by
  refine fun s idx hwf => ⟨encode_formatI 0x21#8 rfl rfl rfl, fun _ _ hv hidx hnode => exec_nodeRead_leaf hv hidx hnode,
    fun w a b hv hidx hnode => ?_, exec_nodeRead_unused⟩
  have hchild (c : Nat) (hc : a = c ∨ b = c) : c < 512 := hwf.child_lt hv hidx (hnode ▸ hc)
  exact exec_nodeRead_internal hv hidx hnode (hchild a (.inl rfl)) (hchild b (.inr rfl))

end Sys2Proof.Machine
end

section
/-! What GEN_CODES, CODE_READ and CODE_LOAD answer, one equation for each case of their rules (R150, R153, R155, R156). -/

namespace Sys2Proof.Machine

variable {s : State} {sym len slot : Byte} {i : Nat}

theorem sessionOpen_eq_true : s.sessionOpen = true ↔ s.enc.isOpen = true ∨ s.dec.isOpen = true := by
  simp [State.sessionOpen]

theorem exec_genCodes_of_open (h : s.sessionOpen = true) :
    exec .genCodes s = .next (raise .tableBusy 0x30000000#32 s) := by
  simp only [exec, execGenCodes, h]
  rfl

theorem exec_genCodes_noTree (h : s.sessionOpen = false) (hv : s.tree.valid = false) :
    exec .genCodes s = .next (raise .noTree 0#32 s) := by
  simp [exec, execGenCodes, h, hv]

theorem exec_genCodes_of_tree (h : s.sessionOpen = false) (hv : s.tree.valid = true) :
    exec .genCodes s = .next { s with ct := generatedCodes s.tree s.ct.mem } := by
  simp [exec, execGenCodes, generatedCodes, h, hv]

/-- A GEN_CODES that answers a new table has walked the tree. -/
theorem eq_generatedCodes {ct : CodeTable} (h : s.sessionOpen = false) (hv : s.tree.valid = true)
    (hexec : exec .genCodes s = .next { s with ct := ct }) : ct = generatedCodes s.tree s.ct.mem := by
  rw [exec_genCodes_of_tree h hv] at hexec
  injection hexec with hexec
  exact (congrArg State.ct hexec).symm

/-- Two bytes at the low end of a word, each at its place (R81, R153, R155). -/
theorem append_bytes_eq_or (a : BitVec 16) (b c : Byte) :
    (a ++ b ++ c : Word) = (a ++ 0#16) ||| (b.setWidth 32 <<< 8) ||| c.setWidth 32 := by
  have hshift : b.toNat <<< 8 < 2 ^ 32 := by
    rw [Nat.shiftLeft_eq]
    omega
  refine BitVec.eq_of_toNat_eq ?_
  simp only [BitVec.toNat_append, BitVec.toNat_or, BitVec.toNat_shiftLeft, BitVec.toNat_setWidth]
  rw [Nat.mod_eq_of_lt (a := b.toNat) (by omega), Nat.mod_eq_of_lt (a := c.toNat) (by omega), Nat.mod_eq_of_lt hshift,
    Nat.shiftLeft_or_distrib, ← Nat.shiftLeft_add, BitVec.toNat_ofNat, Nat.zero_mod, Nat.or_zero]

/-- The word of a command of format BL is its row's pattern or-ed with its operands (R81, R83). -/
theorem encode_codeLoad (sym len : Byte) :
    encode (.codeLoad sym len) = 0x33000000#32 ||| (len.setWidth 32 <<< 8) ||| sym.setWidth 32 := by
  have hfields : (0x33#8 ++ (0#8 ++ len ++ sym : BitVec 24) : Word) = 0x3300#16 ++ len ++ sym :=
    BitVec.eq_of_toNat_eq (by
      simp only [BitVec.toNat_append, Nat.shiftLeft_or_distrib, ← Nat.shiftLeft_add, Nat.or_assoc]
      simp)
  rw [encode, Instr.opcode, Instr.operandField, hfields, append_bytes_eq_or]
  rfl

/-! ### CODE_READ -/

/-- A packed window holds each bit in the word and at the place R41 gives it. -/
theorem getLsbD_packWindow (f : Nat → Bool) (j : Fin 8) {m : Nat} (hm : m < 32) :
    (packWindow f)[j].getLsbD (31 - m) = f (32 * j.val + m) := by
  rw [packWindow, Fin.getElem_fin, Vector.getElem_ofFn]
  exact packedBit_packWord (fun k => f (32 * j.val + k)) m hm

/-- The window of a slot's code: its bits, and zeros beyond its length (R153). -/
def CtEntry.window (e : CtEntry) : Vector Word 8 := packWindow fun k => decide (k < e.len.toNat) && e.bits.getLsbD k

theorem CtEntry.getLsbD_window (e : CtEntry) (j : Fin 8) {m : Nat} (hm : m < 32) : e.window[j].getLsbD (31 - m) =
    (decide (32 * j.val + m < e.len.toNat) && e.bits.getLsbD (32 * j.val + m)) :=
  getLsbD_packWindow _ j hm

theorem exec_codeRead_used (h : slot.toNat < s.ct.n) :
    exec (.codeRead slot) s = .next (setRes
      (0x80000000#32 ||| ((s.ct.entry slot.toNat).len.setWidth 32 <<< 8) ||| (s.ct.entry slot.toNat).sym.setWidth 32)
      0#32 0#32 0#32 { s with cbits := (s.ct.entry slot.toNat).window }) := by
  have hres (e : CtEntry) : (1#1 ++ 0#15 ++ e.len ++ e.sym : Word) =
      0x80000000#32 ||| (e.len.setWidth 32 <<< 8) ||| e.sym.setWidth 32 := append_bytes_eq_or (1#1 ++ 0#15) e.len e.sym
  simp only [exec, execCodeRead, if_pos h, hres, CtEntry.window]

theorem exec_codeRead_unused (h : s.ct.n ≤ slot.toNat) :
    exec (.codeRead slot) s = .next (setRes 0#32 0#32 0#32 0#32 { s with cbits := Vector.replicate 8 0#32 }) := by
  have hzero : packWindow (fun _ => false) = Vector.replicate 8 0#32 := by decide
  simp only [exec, execCodeRead, if_neg (Nat.not_lt.mpr h), hzero]

/-! ### CODE_LOAD -/

theorem exec_codeLoad_of_open (h : s.sessionOpen = true) :
    exec (.codeLoad sym len) s = .next (raise .tableBusy (encode (.codeLoad sym len)) s) := by
  simp [exec, execCodeLoad, h]

theorem exec_codeLoad_empty (h : s.sessionOpen = false) :
    exec (.codeLoad sym 0#8) s = .next (raise .badCodeLength (encode (.codeLoad sym 0#8)) s) := by
  simp [exec, execCodeLoad, h]

theorem codeBits_length_le (cbits : Vector Word 8) (len : Byte) : (codeBits cbits len.toNat).length ≤ 255 := by
  have := len.isLt
  rw [codeBits_length]
  omega

section
variable (hclosed : s.sessionOpen = false) (hlen : len ≠ 0#8)
include hclosed hlen

theorem exec_codeLoad_duplicate (hmatch : s.ct.matchCode (codeBits s.cbits len.toNat) = some i)
    (hsym : (s.ct.entry i).sym ≠ sym) : exec (.codeLoad sym len) s =
      .next (raise .duplicateCode ((sym.setWidth 32 <<< 8) ||| (s.ct.entry i).sym.setWidth 32) s) := by
  have hinfo (b c : Byte) : (0#16 ++ b ++ c : Word) = (b.setWidth 32 <<< 8) ||| c.setWidth 32 := by
    rw [append_bytes_eq_or]
    simp
  simp [exec, execCodeLoad, hclosed, hlen, hmatch, hsym, hinfo]

variable (hown : ∀ j, s.ct.matchCode (codeBits s.cbits len.toNat) = some j → (s.ct.entry j).sym = sym)
include hown

theorem exec_codeLoad_of_find (hfind : s.ct.find sym = some i) : exec (.codeLoad sym len) s =
    .next { s with ct := s.ct.setEntry i (CtEntry.ofCode sym (codeBits s.cbits len.toNat)) } := by
  cases hmatch : s.ct.matchCode (codeBits s.cbits len.toNat) with
  | none => simp [exec, execCodeLoad, hclosed, hlen, hmatch, hfind]
  | some j => simp [exec, execCodeLoad, hclosed, hlen, hmatch, hfind, hown j hmatch]

theorem exec_codeLoad_new (hfind : s.ct.find sym = none) : exec (.codeLoad sym len) s =
    .next { s with ct :=
      { s.ct.setEntry s.ct.n (CtEntry.ofCode sym (codeBits s.cbits len.toNat)) with n := s.ct.n + 1 } } := by
  cases hmatch : s.ct.matchCode (codeBits s.cbits len.toNat) with
  | none => simp [exec, execCodeLoad, hclosed, hlen, hmatch, hfind]
  | some j => simp [exec, execCodeLoad, hclosed, hlen, hmatch, hfind, hown j hmatch]

/-- Where CODE_LOAD stores the code: in the slot that holds the symbol, or in the next one if no slot does (R155). -/
theorem exec_codeLoad_stores (hwf : s.ct.Wf) :
    ∃ ct : CodeTable, exec (.codeLoad sym len) s = .next { s with ct := ct } ∧
      (∀ i, s.ct.Holds i sym → ct.n = s.ct.n ∧
        ∀ j, ct.entry j = if j = i then CtEntry.ofCode sym (codeBits s.cbits len.toNat) else s.ct.entry j) ∧
      ((∀ i, ¬ s.ct.Holds i sym) → s.ct.n < 256 ∧ ct.n = s.ct.n + 1 ∧
        ∀ j, ct.entry j = if j = s.ct.n then CtEntry.ofCode sym (codeBits s.cbits len.toNat) else s.ct.entry j) := by
  cases hfind : s.ct.find sym with
  | some k =>
    obtain ⟨hk, hksym⟩ := CodeTable.find_some hfind
    refine ⟨_, exec_codeLoad_of_find hclosed hlen hown hfind, fun i ⟨hi, hisym⟩ => ⟨rfl, ?_⟩,
      fun habsent => absurd ⟨hk, hksym⟩ (habsent k)⟩
    obtain rfl := hwf.distinct i k hi hk (hisym.trans hksym.symm)
    exact fun j => CodeTable.entry_setEntry ..
  | none =>
    have hmiss := CodeTable.find_none.mp hfind
    exact ⟨_, exec_codeLoad_new hclosed hlen hown hfind, fun i ⟨hi, hisym⟩ => absurd hisym (hmiss i hi),
      fun _ => ⟨lt_nMax_of_missing hwf.distinct hmiss, rfl, fun j => CodeTable.entry_setEntry ..⟩⟩

end

/-- CODE_LOAD does the same whatever NODE holds. -/
theorem Effect.codeLoad_withTree {t : State} (he : Effect s (.codeLoad sym len) t) (tr : TreeArena) :
    Effect { s with tree := tr } (.codeLoad sym len) { t with tree := tr } := by
  cases he with
  | raised w hi hc => exact .raised w hi hc
  | codeLoad hclosed hlen hfind hown => exact .codeLoad hclosed hlen hfind hown
  | codeLoadNew hclosed hlen hfind hown => exact .codeLoadNew hclosed hlen hfind hown

/-- CODE_LOAD keeps the code table's invariant, with any tree (R45, R155). -/
theorem Effect.codeLoad_ct_wf {t : State} (he : Effect s (.codeLoad sym len) t) (h : s.ct.Wf) : t.ct.Wf :=
  (he.codeLoad_withTree State.reset.tree).ct_wf reset_tree_wf h

end Sys2Proof.Machine
end

section
/-! The codes of a generated table are the paths of a full tree: none begins another, and together they are complete
(R151, R152). -/

namespace Sys2Proof.Machine

theorem follow_append {m : Memory Node} {k j : Nat} {p : Bits} (hp : follow m k p = some j) (q : Bits) :
    follow m k (p ++ q) = follow m j q := by
  induction p generalizing k with
  | nil => cases hp; rfl
  | cons b p ih =>
    cases hk : nodeAt m k with
    | leaf w sym => rw [follow_leaf hk] at hp; cases hp
    | internal w l r =>
      rw [follow_internal hk] at hp
      rw [List.cons_append, follow_internal hk]
      exact ih hp

/-- No path goes on below a leaf. -/
theorem eq_of_prefix_of_leaf {m : Memory Node} {k i j : Nat} {p q : Bits} {w : BitVec 40} {sym : Byte}
    (hleaf : nodeAt m i = .leaf w sym) (hp : follow m k p = some i) (hq : follow m k q = some j) (hpq : p <+: q) :
    i = j := by
  obtain ⟨rest, rfl⟩ := hpq
  rw [follow_append hp] at hq
  cases rest with
  | nil => cases hq; rfl
  | cons b rest => rw [follow_leaf hleaf] at hq; cases hq

/-- A bit sequence leads to a leaf before it ends, or leads all the way to some node. -/
theorem exists_prefix_to_leaf_or_follow (m : Memory Node) (k : Nat) (bits : Bits) :
    (∃ p i w sym, p <+: bits ∧ follow m k p = some i ∧ nodeAt m i = .leaf w sym) ∨ ∃ j, follow m k bits = some j := by
  induction bits generalizing k with
  | nil => exact .inr ⟨k, rfl⟩
  | cons b bits ih =>
    cases hk : nodeAt m k with
    | leaf w sym => exact .inl ⟨[], k, w, sym, List.nil_prefix, rfl, hk⟩
    | internal w l r =>
      have hbelow := follow_internal hk b
      rcases ih (if b then r else l) with ⟨p, i, w', sym, hp, hi, hleaf⟩ | ⟨j, hj⟩
      · exact .inl ⟨b :: p, i, w', sym, List.cons_prefix_cons.mpr ⟨rfl, hp⟩, by rw [hbelow, hi], hleaf⟩
      · exact .inr ⟨j, by rw [hbelow, hj]⟩

section
variable {t : TreeArena} {n : Nat} (h : t.Shape n)
include h

theorem TreeArena.Shape.lt_of_leaf {k : Nat} {w : BitVec 40} {sym : Byte} (hk : k < t.n)
    (hleaf : nodeAt t.mem k = .leaf w sym) : k < n := by
  by_contra hge
  have := h.internalAbove k (Nat.le_of_not_lt hge) hk
  rw [hleaf] at this
  cases this

/-- A path to an inner node is one edge shorter than some path. -/
theorem TreeArena.Shape.path_to_internal_length_lt {p : Bits} {k l r : Nat} {w : BitVec 40}
    (hp : follow t.mem t.root p = some k) (hk : nodeAt t.mem k = .internal w l r) : p.length + 1 < n := by
  have := h.path_length_lt (follow_concat_child hp hk false)
  rwa [List.length_append, List.length_singleton] at this

/-- A bit sequence as long as the longest path goes through a leaf. -/
theorem TreeArena.Shape.exists_leaf_on_bits {bits : Bits} (hlen : 255 ≤ bits.length) :
    ∃ p i, p <+: bits ∧ follow t.mem t.root p = some i ∧ i < n := by
  obtain ⟨-, hmax⟩ := h.leaves
  have hlt {p : Bits} {i : Nat} {w : BitVec 40} {sym : Byte} (hi : follow t.mem t.root p = some i)
      (hleaf : nodeAt t.mem i = .leaf w sym) : i < n :=
    h.lt_of_leaf (by have := h.follow_le_root hi; have := h.root_lt; omega) hleaf
  rcases exists_prefix_to_leaf_or_follow t.mem t.root bits with ⟨p, i, w, sym, hp, hi, hleaf⟩ | ⟨j, hj⟩
  · exact ⟨p, i, hp, hi, hlt hi hleaf⟩
  · cases hnode : nodeAt t.mem j with
    | leaf w sym => exact ⟨bits, j, List.prefix_rfl, hj, hlt hj hnode⟩
    | internal w l r =>
      have := h.path_to_internal_length_lt hj hnode
      simp only [Config.nMax] at hmax
      omega

theorem TreeArena.Shape.leafCode_length_le_of_path {p : Bits} {k : Nat} (hp : follow t.mem t.root p = some k) :
    (leafCode p).length ≤ 255 := by
  have := h.path_length_lt hp
  obtain ⟨-, hmax⟩ := h.leaves
  simp only [Config.nMax] at hmax
  exact leafCode_length_le (by omega)

/-- With two leaves or more, the code of a leaf is its path: the root is no leaf. -/
theorem TreeArena.Shape.follow_code (hn : 2 ≤ n) (codes : Memory CtEntry) {k : Nat} (hk : k < n) :
    follow t.mem t.root ((generatedCodes t codes).entry k).code = some k := by
  obtain ⟨p, w, sym, hp, -, hentry⟩ := h.generatedCodes_entry codes hk
  have hne : p ≠ [] := by
    rintro rfl
    cases hp
    have := h.root
    have := h.count
    omega
  rw [hentry, CtEntry.ofCode_code (h.leafCode_length_le_of_path hp), leafCode_of_ne_nil hne, hp]

/-- No code of a generated table begins another: no leaf lies on the path to another (R152). -/
theorem TreeArena.Shape.generatedCodes_prefixFree (codes : Memory CtEntry) : (generatedCodes t codes).PrefixFree := by
  intro i j hi hj hij
  rw [h.generatedCodes_n] at hi hj
  by_cases hn : 2 ≤ n
  · obtain ⟨w, sym, hleaf⟩ := h.leaf_of_lt hi
    exact eq_of_prefix_of_leaf hleaf (h.follow_code hn codes hi) (h.follow_code hn codes hj) hij
  · omega

/-- With two codes or more, a bit sequence as long as the longest code begins with one of them (R152). -/
theorem TreeArena.Shape.generatedCodes_complete (hn : 2 ≤ n) (codes : Memory CtEntry) {bits : Bits}
    (hlen : 255 ≤ bits.length) : ∃ i, i < n ∧ ((generatedCodes t codes).entry i).code <+: bits := by
  obtain ⟨p, i, hp, hfollow, hi⟩ := h.exists_leaf_on_bits hlen
  exact ⟨i, hi, by rwa [h.follow_unique (h.follow_code hn codes hi) hfollow]⟩

end

/-- Where no code begins another, at most one code begins a bit sequence. -/
theorem CodeTable.PrefixFree.unique {t : CodeTable} (h : t.PrefixFree) {bits : Bits} {i j : Nat} (hi : i < t.n)
    (hj : j < t.n) (hpi : (t.entry i).code <+: bits) (hpj : (t.entry j).code <+: bits) : j = i := by
  rcases List.prefix_or_prefix_of_prefix hpi hpj with hij | hji
  · exact (h i j hi hj hij).symm
  · exact h j i hj hi hji

end Sys2Proof.Machine
end

section
/-! The statements about the code table (43_code_table.md), settled. -/

namespace Sys2Proof.Machine

/-- Settles O35: the walk gives each leaf its one path from the root, and writes no slot but the leaves'. -/
theorem genCodesAssignsThePaths : Obligations.GenCodesAssignsThePaths := by
  refine ⟨rfl, fun s => ⟨fun hopen => exec_genCodes_of_open (sessionOpen_eq_true.mpr hopen),
    fun henc hdec hv => exec_genCodes_noTree (sessionOpen_eq_false.mpr ⟨henc, hdec⟩) hv, fun l henc hdec hv hshape =>
    ⟨generatedCodes s.tree s.ct.mem, exec_genCodes_of_tree (sessionOpen_eq_false.mpr ⟨henc, hdec⟩) hv,
      hshape.generatedCodes_n _, fun k hk => ?_, fun k hk => hshape.generatedCodes_entry_unused _ hk⟩⟩⟩
  obtain ⟨p, w, sym, hp, hleaf, hentry⟩ := hshape.generatedCodes_entry s.ct.mem hk
  have hlen := hshape.leafCode_length_le_of_path hp
  refine ⟨p, w, sym, hp, hleaf, ?_⟩
  rw [hentry]
  refine ⟨rfl, ?_, fun m hm => CtEntry.ofCode_clean hlen hm⟩
  rw [CtEntry.ofCode_code hlen]
  simp [leafCode]

/-- Settles O36: the codes are the paths to different leaves of one tree. -/
theorem generatedCodesArePrefixFree : Obligations.GeneratedCodesArePrefixFree := by
  intro s ct htree hv hmem henc hdec hexec
  obtain rfl := eq_generatedCodes (sessionOpen_eq_false.mpr ⟨henc, hdec⟩) hv hexec
  obtain ⟨l, hshape⟩ := htree.present hv
  exact ⟨hshape.generatedCodes_prefixFree _, hshape.generatedCodes_wf hmem⟩

/-- Settles O37: the bits lead from the root to a leaf, and no second code begins them as no code begins another. -/
theorem generatedCodesAreComplete : Obligations.GeneratedCodesAreComplete := by
  intro s ct bits htree hv henc hdec hexec hn hlen
  obtain rfl := eq_generatedCodes (sessionOpen_eq_false.mpr ⟨henc, hdec⟩) hv hexec
  obtain ⟨l, hshape⟩ := htree.present hv
  have hl := hshape.generatedCodes_n s.ct.mem
  obtain ⟨i, hi, hprefix⟩ := hshape.generatedCodes_complete (hl ▸ hn) s.ct.mem hlen
  rw [← hl] at hi
  exact ⟨i, hi, hprefix, fun j hj hj' => (hshape.generatedCodes_prefixFree s.ct.mem).unique hi hj hprefix hj'⟩

/-- Settles O38: a used slot's window is packed from its code. -/
theorem codeReadReportsTheSlot : Obligations.CodeReadReportsTheSlot := by
  refine fun s slot => ⟨encode_formatB 0x31#8 rfl rfl rfl, fun hused => ?_, exec_codeRead_unused⟩
  exact ⟨_, exec_codeRead_used hused, fun j _ hm => (s.ct.entry slot.toNat).getLsbD_window j hm⟩

/-- Settles O39: CT's distinct codes make the slot with the code the one matched, and what is stored is the entry of the
symbol and its code. -/
theorem codeLoadSetsTheCode : Obligations.CodeLoadSetsTheCode := by
  intro s sym len hwf w p
  have hword : encode (.codeLoad sym len) = w := encode_codeLoad sym len
  have hshort := codeBits_length_le s.cbits len
  refine ⟨hword, fun hopen => ?_, fun henc hdec hzero => ?_, fun j henc hdec hlen hj hcode hsym => ?_,
    fun henc hdec hlen howner => ?_⟩
  · rw [← hword]
    exact exec_codeLoad_of_open (sessionOpen_eq_true.mpr hopen)
  · subst hzero
    rw [← hword]
    exact exec_codeLoad_empty (sessionOpen_eq_false.mpr ⟨henc, hdec⟩)
  · exact exec_codeLoad_duplicate (sessionOpen_eq_false.mpr ⟨henc, hdec⟩) hlen
      (CodeTable.matchCode_of_distinct hj hcode hwf.codes) hsym
  · have hclosed := sessionOpen_eq_false.mpr ⟨henc, hdec⟩
    have hown (j : Nat) (hj : s.ct.matchCode (codeBits s.cbits len.toNat) = some j) : (s.ct.entry j).sym = sym := by
      obtain ⟨hlt, hcode⟩ := CodeTable.matchCode_some hj
      exact howner j hlt hcode
    obtain ⟨ct, hexec, hheld, habsent⟩ := exec_codeLoad_stores hclosed hlen hown hwf
    exact ⟨ct, CtEntry.ofCode sym p, hexec, (exec_cases hexec).codeLoad_ct_wf hwf, rfl,
      ofCode_codeBits_len sym len s.cbits, CtEntry.ofCode_code hshort,
      fun k hk => CtEntry.ofCode_clean hshort (by rwa [ofCode_codeBits_len]), hheld, habsent⟩

/-- Settles O34: each of the three asks first whether a session is open. -/
theorem tableCommandsAreRefusedInASession : Obligations.TableCommandsAreRefusedInASession := by
  intro s sym len hopen
  have hopen := sessionOpen_eq_true.mpr hopen
  refine ⟨exec_genCodes_of_open hopen, exec_codeClear_of_open hopen, ?_⟩
  rw [← encode_codeLoad]
  exact exec_codeLoad_of_open hopen

end Sys2Proof.Machine
end

section
/-! What the encoder's commands answer, one equation for each case of their rules, and the bitstream that a run of them leaves
(R180 to R185). -/

namespace Sys2Proof.Machine

variable {s : State} {sym : Byte} {i : Nat}

theorem CodeTable.Wf.find_of_holds {t : CodeTable} (h : t.Wf) (hi : t.Holds i sym) : t.find sym = some i :=
  CodeTable.find_of_distinct hi.1 hi.2 h.distinct

theorem CodeTable.codeOf_of_find {t : CodeTable} (h : t.find sym = some i) : t.codeOf sym = (t.entry i).code := by
  rw [CodeTable.codeOf, h]

@[simp] theorem docEncode_nil (t : CodeTable) : docEncode t [] = [] := rfl

@[simp] theorem docEncode_cons (t : CodeTable) (c : Byte) (S : List Byte) :
    docEncode t (c :: S) = t.codeOf c ++ docEncode t S := rfl

/-! ### ENC_SYM -/

theorem exec_encSym_of_closed (h : s.enc.isOpen = false) :
    exec (.encSym sym) s = .next (raise .sequenceError (encode (.encSym sym)) s) := by
  simp [exec, execEncSym, h]

theorem exec_encSym_unknown (h : s.enc.isOpen = true) (hfind : s.ct.find sym = none) :
    exec (.encSym sym) s = .next (raise .unknownSymbol (sym.setWidth 32) s) := by
  simp [exec, execEncSym, h, hfind]

theorem exec_encSym_overflow (h : s.enc.isOpen = true) (hfind : s.ct.find sym = some i)
    (hfull : s.free s.enc.q < (s.enc.fill + (s.ct.entry i).len.toNat) / 32) :
    exec (.encSym sym) s = .next (raise .outputOverflow (encode (.encSym sym)) s) := by
  simp [exec, execEncSym, h, hfind, hfull]

theorem exec_encSym_of_fit (h : s.enc.isOpen = true) (hfind : s.ct.find sym = some i)
    (hfit : (s.enc.fill + (s.ct.entry i).len.toNat) / 32 ≤ s.free s.enc.q) :
    exec (.encSym sym) s = .next { s with enc := putBits s.enc (s.ct.entry i).code } := by
  simp [exec, execEncSym, h, hfind, Nat.not_lt.mpr hfit]

theorem putBits_append (e : Encoder) (p q : Bits) : putBits e (p ++ q) = putBits (putBits e p) q := List.foldl_append

/-- Symbols whose words fit the queue are appended one after the other, and nothing but the encoder changes (R182, R185). -/
theorem runCommands_encSyms {S : List Byte} (hopen : s.enc.isOpen = true) (hclean : s.enc.Clean)
    (hfound : ∀ c ∈ S, ∃ i, s.ct.find c = some i)
    (hfit : (s.enc.fill + (docEncode s.ct S).length) / 32 ≤ s.free s.enc.q) (rest : List Instr) :
    runCommands (S.map .encSym ++ rest) s = runCommands rest { s with enc := putBits s.enc (docEncode s.ct S) } := by
  induction S generalizing s with
  | nil => rfl
  | cons c S ih =>
    obtain ⟨i, hi⟩ := hfound c List.mem_cons_self
    rw [docEncode_cons, CodeTable.codeOf_of_find hi] at hfit ⊢
    obtain ⟨-, hclean', hopen', hfill', -, -, hlen'⟩ := putBits_effect hclean (s.ct.entry i).code
    rw [CtEntry.code_length] at hfill' hlen'
    rw [List.length_append, CtEntry.code_length, State.free] at hfit
    have hnow : (s.enc.fill + (s.ct.entry i).len.toNat) / 32 ≤ s.free s.enc.q := by
      rw [State.free]
      omega
    rw [List.map_cons, List.cons_append, runCommands_cons (exec_encSym_of_fit hopen hi hnow), putBits_append]
    refine ih (hopen'.trans hopen) hclean' (fun d hd => hfound d (List.mem_cons_of_mem c hd)) ?_
    simp only [State.free, hfill', hlen']
    omega

/-! ### ENC_FLUSH -/

/-- The encoder that ENC_FLUSH leaves when the partial word fits (R183). -/
def Encoder.flushed (e : Encoder) : Encoder :=
  ⟨false, 0#32, 0, e.nbits, if 0 < e.fill then e.q ++ [e.acc] else e.q⟩

theorem encode_encFlush : encode .encFlush = 0x42000000#32 := rfl

theorem exec_encFlush_of_closed (h : s.enc.isOpen = false) :
    exec .encFlush s = .next (raise .sequenceError 0x42000000#32 s) := by
  simp [exec, execEncFlush, h, encode_encFlush]

theorem exec_encFlush_overflow (h : s.enc.isOpen = true) (hpos : 0 < s.enc.fill) (hfull : s.free s.enc.q = 0) :
    exec .encFlush s = .next (raise .outputOverflow 0x42000000#32 s) := by
  simp [exec, execEncFlush, h, hpos, hfull, encode_encFlush]

theorem exec_encFlush_of_fit (h : s.enc.isOpen = true) (hfit : 0 < s.enc.fill → 1 ≤ s.free s.enc.q) :
    exec .encFlush s = .next { s with enc := s.enc.flushed } := by
  have hroom : (0 < s.enc.fill && s.free s.enc.q < 1) = false := by simpa [Nat.one_le_iff_ne_zero] using hfit
  simp only [exec, execEncFlush, Encoder.flushed, h, hroom, Bool.not_true, Bool.false_eq_true, if_false]

theorem Encoder.flushed_q_length {e : Encoder} (h : e.Clean) : e.flushed.q.length = e.q.length + (e.fill + 31) / 32 := by
  have hfill := h.1
  simp only [Encoder.flushed]
  split
  · rw [List.length_append, List.length_singleton]
    omega
  · omega

/-- The bits of the partial word beyond those pending are 0 (R46, R183). -/
theorem Encoder.Clean.packedBits_acc {e : Encoder} (h : e.Clean) :
    packedBits e.acc 32 = packedBits e.acc e.fill ++ List.replicate (32 - e.fill) false := by
  obtain ⟨hfill, hzero⟩ := h
  have hbelow (k : Nat) (hk : k ∈ List.range (32 - e.fill)) : packedBit e.acc (e.fill + k) = false :=
    hzero _ (by have := List.mem_range.mp hk; omega)
  have hrest := List.map_eq_replicate_iff.mpr hbelow
  rw [List.length_range] at hrest
  have hsplit : packedBits e.acc (e.fill + (32 - e.fill)) = packedBits e.acc e.fill ++ List.replicate (32 - e.fill) false := by
    rw [packedBits, List.range_add, List.map_append, List.map_map, packedBits, ← hrest]
    rfl
  rwa [Nat.add_sub_cancel' (by omega)] at hsplit

/-- After ENC_FLUSH the queue holds the bitstream and less than a word of zeros (R183, R185). -/
theorem Encoder.wordBits_flushed {e : Encoder} (h : e.Clean) :
    wordBits e.flushed.q = e.stream ++ List.replicate ((32 - e.fill) % 32) false := by
  have hfill := h.1
  simp only [Encoder.flushed, Encoder.stream]
  split
  · next hpos =>
    rw [wordBits_append, h.packedBits_acc, Nat.mod_eq_of_lt (by omega), List.append_assoc]
  · next hzero =>
    have hzero : e.fill = 0 := Nat.eq_zero_of_not_pos hzero
    simp [hzero, packedBits]

/-! ### A fresh session -/

/-- The encoder that ENC_START leaves (R180). -/
def Encoder.fresh : Encoder := ⟨true, 0#32, 0, 0#64, []⟩

theorem exec_encStart (s : State) : exec .encStart s = .next { s with enc := .fresh } := rfl

theorem Encoder.fresh_clean : Encoder.fresh.Clean := (Encoder.wf_fresh 0 true).toClean

/-- The encoder of a session to which `p` has been appended, with no read on the way (R180, R181). -/
theorem putBits_fresh (p : Bits) : (putBits .fresh p).stream = p ∧ (putBits .fresh p).Clean ∧
    (putBits .fresh p).isOpen = true ∧ (putBits .fresh p).fill = p.length % 32 ∧
    (putBits .fresh p).nbits = BitVec.ofNat 64 p.length ∧ (putBits .fresh p).q.length = p.length / 32 := by
  obtain ⟨hstream, hclean, hopen, hfill, hnbits, -, hlen⟩ := putBits_effect Encoder.fresh_clean p
  refine ⟨hstream, hclean, hopen, ?_, hnbits.trans (BitVec.zero_add _), ?_⟩
  · rw [hfill, Encoder.fresh, Nat.zero_add]
  · rw [hlen, Encoder.fresh, List.length_nil, Nat.zero_add, Nat.zero_add]

/-! ### Sessions with reads on the way -/

theorem wordBits_append_words (q r : List Word) : wordBits (q ++ r) = wordBits q ++ wordBits r := List.flatMap_append

/-- A read of ENC_OUT moves the first word of the bitstream to the words read (R184). -/
theorem Encoder.stream_pop (e : Encoder) : wordBits (e.q.take 1) ++ Encoder.stream { e with q := e.q.tail } = e.stream := by
  rw [Encoder.stream, Encoder.stream, ← List.append_assoc, ← wordBits_append_words, ← List.drop_one, List.take_append_drop]

/-- In a run without a fault the words read, then the encoder's bitstream, are the bitstream at the start and the codes of the
symbols; ENC_NBITS counts their bits (R182, R184, R185). -/
theorem runEncode_stream {use : List EncodeUse} {s t : State} {ws : List Word} (hclean : s.enc.Clean)
    (hrun : runEncode use s = some (ws, t)) :
    t.enc.Clean ∧ wordBits ws ++ t.enc.stream = s.enc.stream ++ docEncode s.ct (symbolsOf use) ∧
      t.enc.nbits = s.enc.nbits + BitVec.ofNat 64 (docEncode s.ct (symbolsOf use)).length := by
  induction use generalizing s ws with
  | nil =>
    cases hrun
    exact ⟨hclean, by simp [wordBits], by simp⟩
  | cons u rest ih =>
    cases u with
    | sym c =>
      obtain ⟨t', hexec, hok, hrest⟩ := runEncode_sym hrun
      obtain ⟨-, i, hi, -, rfl⟩ := execEncSym_no_fault hexec hok
      obtain ⟨hstream, hclean', -, -, hnbits, -⟩ := putBits_effect hclean (s.ct.entry i).code
      obtain ⟨htclean, htstream, htnbits⟩ := ih hclean' hrest
      rw [symbolsOf_sym, docEncode_cons, CodeTable.codeOf_of_find hi]
      refine ⟨htclean, ?_, ?_⟩
      · rw [htstream, hstream, List.append_assoc]
      · rw [htnbits, hnbits, List.length_append, BitVec.ofNat_add, BitVec.add_assoc]
    | take =>
      obtain ⟨ws', hrest, rfl⟩ := runEncode_take hrun
      obtain ⟨htclean, htstream, htnbits⟩ := ih (s := { s with enc := { s.enc with q := s.enc.q.tail } }) hclean hrest
      refine ⟨htclean, ?_, htnbits⟩
      rw [wordBits_append_words, List.append_assoc, htstream, ← List.append_assoc, s.enc.stream_pop, symbolsOf_take]

/-- An ENC_FLUSH that leaves no fault has closed the session (R183). -/
theorem exec_encFlush_no_fault {t u : State} (h : exec .encFlush t = .next u) (hu : u.latch.err = false) :
    u = { t with enc := t.enc.flushed } := by
  cases exec_cases h with
  | raised w _ _ => cases hu
  | encFlush hopen hfit => rfl

end Sys2Proof.Machine
end

section
/-! The statements about the encoder (44_encoder.md), settled. -/

namespace Sys2Proof.Machine

/-- Settles O43: CT's distinct symbols make the slot of the symbol the one found, and appending its code is PutBit on each
of its bits. -/
theorem encSymAppendsTheCode : Obligations.EncSymAppendsTheCode := by
  intro s sym hct henc w
  have hword : encode (.encSym sym) = w := encode_formatB 0x41#8 rfl rfl rfl
  rw [← hword]
  refine ⟨rfl, exec_encSym_of_closed, fun hopen habsent => ?_, fun i hopen hi => ⟨fun hfull => ?_, fun hfit => ?_⟩⟩
  · exact exec_encSym_unknown hopen (CodeTable.find_none.mpr fun i hlt hsym => habsent i ⟨hlt, hsym⟩)
  · exact exec_encSym_overflow hopen (hct.find_of_holds hi) hfull
  · obtain ⟨hstream, -, hopen', hfill, hnbits, hprefix, hlen⟩ := putBits_effect henc.toClean (s.ct.entry i).code
    rw [CtEntry.code_length] at hfill hnbits hlen
    exact ⟨_, exec_encSym_of_fit hopen (hct.find_of_holds hi) hfit, hopen'.trans hopen,
      henc.putBits hopen (by rwa [CtEntry.code_length]), hstream, hfill, hnbits, hprefix, hlen⟩

/-- Settles O44: with nothing pending no room is needed, and a queue of FIFO_DEPTH words has none. -/
theorem encFlushPushesThePartialWord : Obligations.EncFlushPushesThePartialWord := by
  refine ⟨encode_encFlush, fun s _ => ⟨exec_encFlush_of_closed, fun hopen hzero => ?_, fun hopen hpos hroom => ?_,
    fun hopen hpos hfull => ?_⟩⟩
  · rw [exec_encFlush_of_fit hopen (by omega), Encoder.flushed, if_neg (by omega)]
  · rw [exec_encFlush_of_fit hopen fun _ => Nat.sub_pos_of_lt hroom, Encoder.flushed, if_pos hpos]
  · exact exec_encFlush_overflow hopen hpos (by rw [State.free, hfull, Nat.sub_self])

/-- Settles O45: the symbols' codes are appended to an empty bitstream, and ENC_FLUSH pads the last word. -/
theorem encodingASequenceGivesItsCodes : Obligations.EncodingASequenceGivesItsCodes := by
  intro s S hct hheld hroom
  obtain ⟨hstream, hclean, hopen, hfill, hnbits, hlen⟩ := putBits_fresh (docEncode s.ct S)
  have hsyms := runCommands_encSyms (s := { s with enc := .fresh }) (S := S) rfl Encoder.fresh_clean
    (fun c hc => (hheld c hc).imp fun _ => hct.find_of_holds)
    (by simp only [State.free, Encoder.fresh, List.length_nil]; omega) [.encFlush]
  have hfit (hpos : 0 < (putBits .fresh (docEncode s.ct S)).fill) :
      1 ≤ s.fifoDepth - (putBits .fresh (docEncode s.ct S)).q.length := by
    rw [hfill] at hpos
    rw [hlen]
    omega
  have hflush := exec_encFlush_of_fit (s := { s with enc := putBits .fresh (docEncode s.ct S) }) hopen hfit
  have hbits := Encoder.wordBits_flushed hclean
  rw [hstream] at hbits
  refine ⟨_, (runCommands_cons (exec_encStart s)).trans (hsyms.trans (runCommands_cons hflush)), rfl, hnbits, ?_, _, hbits⟩
  rw [Encoder.flushed_q_length hclean, hlen, hfill]
  omega

/-- Settles O58: each read moves a word out of the bitstream, and ENC_FLUSH leaves the rest of it, padded, in the queue. -/
theorem encodingADrainedSessionGivesItsCodes : Obligations.EncodingADrainedSessionGivesItsCodes := by
  intro s s0 t u use ws hstart hrun hflush hok
  cases hstart
  obtain ⟨hclean, hstream, hnbits⟩ := runEncode_stream Encoder.fresh_clean hrun
  obtain rfl := exec_encFlush_no_fault hflush hok
  refine ⟨hnbits.trans (BitVec.zero_add _), (32 - t.enc.fill) % 32, Nat.mod_lt _ (by decide), ?_⟩
  rw [wordBits_append_words, Encoder.wordBits_flushed hclean, ← List.append_assoc, hstream]
  rfl

/-- Settles O42: both commands ask nothing of the state. -/
theorem startCommandsOpenFreshSessions : Obligations.StartCommandsOpenFreshSessions :=
  ⟨rfl, rfl, fun s => ⟨exec_encStart s, rfl⟩⟩

end Sys2Proof.Machine
end

section
/-! The decoder follows the document's loop over any bits, and what the decoder's commands answer, one equation for each case of
their rules (R200 to R206). -/

namespace Sys2Proof.Machine

variable {s : State} {t : CodeTable} {d : Decoder} {buf bs : Bits} {w : Word}

/-! ### The document's decode -/

@[simp] theorem docDecode_nil (t : CodeTable) (buf : Bits) : docDecode t buf [] = ([], buf) := rfl

theorem docDecode_cons_of_match {b : Bool} {i : Nat} (h : t.matchCode (buf ++ [b]) = some i) (bs : Bits) :
    docDecode t buf (b :: bs) = ((t.entry i).sym :: (docDecode t [] bs).1, (docDecode t [] bs).2) := by
  simp [docDecode, h]

theorem docDecode_cons_of_no_match {b : Bool} (h : t.matchCode (buf ++ [b]) = none) (bs : Bits) :
    docDecode t buf (b :: bs) = docDecode t (buf ++ [b]) bs := by
  simp [docDecode, h]

/-- Decoding goes on from the buffer that the bits before have left (R202, R206). -/
theorem docDecode_append (t : CodeTable) (buf bs bs' : Bits) : docDecode t buf (bs ++ bs') =
    ((docDecode t buf bs).1 ++ (docDecode t (docDecode t buf bs).2 bs').1,
      (docDecode t (docDecode t buf bs).2 bs').2) := by
  induction bs generalizing buf with
  | nil => rfl
  | cons b bs ih =>
    rw [List.cons_append]
    cases h : t.matchCode (buf ++ [b]) with
    | none => rw [docDecode_cons_of_no_match h, docDecode_cons_of_no_match h, ih]
    | some i => rw [docDecode_cons_of_match h, docDecode_cons_of_match h, ih, List.cons_append]

/-- A bit completes at most one symbol. -/
theorem docDecode_symbols_length_le (t : CodeTable) (buf bs : Bits) : (docDecode t buf bs).1.length ≤ bs.length := by
  induction bs generalizing buf with
  | nil => exact Nat.le_refl _
  | cons b bs ih =>
    cases h : t.matchCode (buf ++ [b]) with
    | none => rw [docDecode_cons_of_no_match h]; exact Nat.le_succ_of_le (ih _)
    | some i => rw [docDecode_cons_of_match h]; exact Nat.succ_le_succ (ih _)

/-! ### DecodeBit on the bits of a sequence -/

/-- `d'` is where the document's decode of `bs` from the buffer `buf` leads `d`: its buffer is left, its symbols are queued and
counted, and the session stays as it was (R206). -/
structure Decoder.Decoded (t : CodeTable) (buf bs : Bits) (d d' : Decoder) : Prop where
  isOpen : d'.isOpen = d.isOpen
  follows : d'.Follows (docDecode t buf bs).2
  q : d'.q = d.q ++ (docDecode t buf bs).1.map (BitVec.setWidth 32)
  nsym : d'.nsym = d.nsym + BitVec.ofNat 32 (docDecode t buf bs).1.length

theorem Decoder.Decoded.trans {d d' d'' : Decoder} {bs' : Bits} (h : d.Decoded t buf bs d')
    (h' : d'.Decoded t (docDecode t buf bs).2 bs' d'') : d.Decoded t buf (bs ++ bs') d'' := by
  refine ⟨h'.isOpen.trans h.isOpen, ?_, ?_, ?_⟩ <;> rw [docDecode_append]
  · exact h'.follows
  · rw [h'.q, h.q, List.map_append, List.append_assoc]
  · rw [h'.nsym, h.nsym, List.length_append, BitVec.ofNat_add, BitVec.add_assoc]

theorem Decoder.Follows.decodeBit (h : d.Follows buf) (b : Bool) : d.Decoded t buf [b] (decodeBit t d b) := by
  obtain ⟨hmatch, hmiss⟩ := decodeBit_follows (t := t) h b
  cases hm : t.matchCode (buf ++ [b]) with
  | some i =>
    rw [hmatch i hm]
    refine ⟨rfl, ?_, ?_, ?_⟩ <;> rw [docDecode_cons_of_match hm]
    · exact Decoder.emit_follows _ _
    · rfl
    · rfl
  | none =>
    obtain ⟨hfollows, hq, hnsym, hopen⟩ := hmiss hm
    refine ⟨hopen, ?_, ?_, ?_⟩ <;> rw [docDecode_cons_of_no_match hm]
    · exact hfollows
    · rw [hq, docDecode_nil, List.map_nil, List.append_nil]
    · rw [hnsym, docDecode_nil]; exact (BitVec.add_zero _).symm

/-- DecodeBit on each bit of a sequence does what the document's loop does (R201, R206). -/
theorem Decoder.Follows.decodeBits (h : d.Follows buf) (bs : Bits) : d.Decoded t buf bs (decodeBits t d bs) := by
  induction bs generalizing d buf with
  | nil => exact ⟨rfl, h, (List.append_nil _).symm, (BitVec.add_zero _).symm⟩
  | cons b bs ih => exact (h.decodeBit b).trans (ih (h.decodeBit b).follows)

/-- Pushes counts the symbols that the document emits (R201, R206). -/
theorem Decoder.Follows.pushes_eq (h : d.Follows buf) (bs : Bits) : pushes t d bs = (docDecode t buf bs).1.length := by
  rw [pushes, (h.decodeBits bs).q, List.length_append, List.length_map, Nat.add_sub_cancel_left]

theorem decodeOrOverflow_of_fit (h : s.dec.Follows buf) (bs : Bits) (w : Word)
    (hfit : (docDecode s.ct buf bs).1.length ≤ s.free s.dec.q) :
    ∃ d : Decoder, decodeOrOverflow bs w s = .next { s with dec := d } ∧ s.dec.Decoded s.ct buf bs d :=
  ⟨_, by rw [decodeOrOverflow, h.pushes_eq, if_neg (Nat.not_lt.mpr hfit)], h.decodeBits bs⟩

theorem decodeOrOverflow_overflow (h : s.dec.Follows buf) (bs : Bits) (w : Word)
    (hfull : s.free s.dec.q < (docDecode s.ct buf bs).1.length) :
    decodeOrOverflow bs w s = .next (raise .outputOverflow w s) := by
  rw [decodeOrOverflow, h.pushes_eq, if_pos hfull, fault_eq]

/-! ### DEC_WORD -/

/-- The word of a command of format N is its row's pattern or-ed with the operand (R81, R83). -/
theorem encode_decWord (n : BitVec 6) : encode (.decWord n) = 0x51000000#32 ||| n.setWidth 32 := by
  rw [encode, Instr.operandField, append_eq_or_setWidth, zero_append_eq_setWidth, BitVec.setWidth_setWidth (by decide),
    Instr.opcode]
  rfl

section
variable {n : BitVec 6} (hpos : 1 ≤ n.toNat) (hle : n.toNat ≤ 32)
include hpos hle

theorem exec_decWord_of_closed (h : s.dec.isOpen = false) :
    exec (.decWord n) s = .next (raise .sequenceError (encode (.decWord n)) s) := by
  simp [exec, execDecWord, legalBitCount, hpos, hle, h]

theorem exec_decWord_of_open (h : s.dec.isOpen = true) :
    exec (.decWord n) s = decodeOrOverflow (packedBits s.arg0 n.toNat) (encode (.decWord n)) s := by
  simp [exec, execDecWord, legalBitCount, hpos, hle, h]

end

/-! ### DEC_CHAR -/

section
variable {c : Byte}

theorem charBit_of_ne (h0 : c ≠ 0x30#8) (h1 : c ≠ 0x31#8) : charBit c = none := by
  rw [charBit, if_neg h0, if_neg h1]

theorem charBit_bitCharacter (b : Bool) : charBit (if b then 0x31#8 else 0x30#8) = some b := by
  cases b <;> rfl

theorem exec_decChar_of_closed (h : s.dec.isOpen = false) :
    exec (.decChar c) s = .next (raise .sequenceError (encode (.decChar c)) s) := by
  simp [exec, execDecChar, h]

theorem exec_decChar_skip (h : s.dec.isOpen = true) (hc : charBit c = none) : exec (.decChar c) s = .next s := by
  simp [exec, execDecChar, h, hc]

theorem exec_decChar_bit (h : s.dec.isOpen = true) {b : Bool} (hc : charBit c = some b) :
    exec (.decChar c) s = decodeOrOverflow [b] (encode (.decChar c)) s := by
  simp [exec, execDecChar, h, hc]

/-- The characters of a text whose symbols fit are decoded one after the other, from the buffer left so far (R203, R206). -/
theorem runCommands_decChars {text : List Byte} (hopen : s.dec.isOpen = true) (hfollows : s.dec.Follows buf)
    (hfit : (docDecode s.ct buf (textBits text)).1.length ≤ s.free s.dec.q) :
    ∃ d : Decoder, runCommands (text.map .decChar) s = .next { s with dec := d } ∧
      s.dec.Decoded s.ct buf (textBits text) d := by
  induction text generalizing s buf with
  | nil => exact ⟨s.dec, rfl, hfollows.decodeBits []⟩
  | cons c text ih =>
    cases hc : charBit c with
    | none =>
      have hskip : textBits (c :: text) = textBits text := List.filterMap_cons_none hc
      rw [hskip] at hfit ⊢
      obtain ⟨d, hrun, hd⟩ := ih hopen hfollows hfit
      exact ⟨d, (runCommands_cons (exec_decChar_skip hopen hc)).trans hrun, hd⟩
    | some b =>
      have hbit : textBits (c :: text) = [b] ++ textBits text := List.filterMap_cons_some hc
      rw [hbit, docDecode_append, List.length_append, State.free] at hfit
      obtain ⟨d, hexec, hd⟩ := decodeOrOverflow_of_fit hfollows [b] (encode (.decChar c)) (by rw [State.free]; omega)
      rw [← exec_decChar_bit hopen hc] at hexec
      have hroom : (docDecode s.ct (docDecode s.ct buf [b]).2 (textBits text)).1.length ≤
          s.fifoDepth - d.q.length := by
        rw [hd.q, List.length_append, List.length_map]
        omega
      obtain ⟨d', hrun, hd'⟩ := ih (s := { s with dec := d }) (hd.isOpen.trans hopen) hd.follows hroom
      exact ⟨d', (runCommands_cons hexec).trans hrun, hbit ▸ hd.trans hd'⟩

end

/-! ### DEC_END -/

theorem encode_decEnd : encode .decEnd = 0x53000000#32 := rfl

theorem exec_decEnd_of_closed (h : s.dec.isOpen = false) :
    exec .decEnd s = .next (raise .sequenceError 0x53000000#32 s) := by
  simp [exec, execDecEnd, h, encode_decEnd]

theorem exec_decEnd_incomplete (h : s.dec.isOpen = true) (hlen : s.dec.len ≠ 0) :
    exec .decEnd s = .next (raise .incompleteCode (BitVec.ofNat 32 s.dec.len) s) := by
  simp [exec, execDecEnd, h, hlen]

theorem exec_decEnd_of_empty (h : s.dec.isOpen = true) (hlen : s.dec.len = 0) :
    exec .decEnd s = .next { s with dec := { s.dec with isOpen := false } } := by
  simp [exec, execDecEnd, h, hlen]

end Sys2Proof.Machine
end

section
/-! A table in which no code begins another decodes what it encodes, and GEN_CODES makes such a table of a sequence that has
been counted (R152, R206, R208). -/

namespace Sys2Proof.Machine

section
variable {t : CodeTable} (hfree : t.PrefixFree) {i : Nat} (hi : i < t.n)
include hfree hi

theorem CodeTable.PrefixFree.matchCode_code : t.matchCode (t.entry i).code = some i :=
  CodeTable.matchCode_of_distinct hi rfl fun i j hi hj hij => hfree i j hi hj (hij ▸ List.prefix_rfl)

/-- A proper beginning of a code is no code. -/
theorem CodeTable.PrefixFree.matchCode_of_proper_prefix {p q : Bits} (hcode : (t.entry i).code = p ++ q) (hq : q ≠ []) :
    t.matchCode p = none := by
  refine CodeTable.matchCode_none.mpr fun j hj hjp => hq ?_
  obtain rfl := hfree j i hj hi (by rw [hjp, hcode]; exact List.prefix_append p q)
  exact List.append_right_eq_self.mp (hcode.symm.trans hjp)

/-- The rest of a code completes its symbol (R201, R206). -/
theorem CodeTable.PrefixFree.docDecode_code {p q : Bits} (hcode : (t.entry i).code = p ++ q) (hq : q ≠ []) (bs : Bits) :
    docDecode t p (q ++ bs) = ((t.entry i).sym :: (docDecode t [] bs).1, (docDecode t [] bs).2) := by
  induction q generalizing p with
  | nil => exact absurd rfl hq
  | cons b q ih =>
    rw [List.append_cons] at hcode
    rw [List.cons_append]
    by_cases hlast : q = []
    · subst hlast
      rw [List.append_nil] at hcode
      exact docDecode_cons_of_match (hcode ▸ hfree.matchCode_code hi) bs
    · rw [docDecode_cons_of_no_match (hfree.matchCode_of_proper_prefix hi hcode hlast)]
      exact ih hcode hlast

end

/-- The table can code the symbols of `S`: it has a non-empty code for each, and no code begins another (R45, R152). -/
structure CodeTable.Covers (t : CodeTable) (S : List Byte) : Prop where
  prefixFree : t.PrefixFree
  nonempty : ∀ i, i < t.n → (t.entry i).code ≠ []
  found : ∀ c ∈ S, ∃ i, t.find c = some i

theorem CodeTable.Covers.tail {t : CodeTable} {c : Byte} {S : List Byte} (h : t.Covers (c :: S)) : t.Covers S :=
  ⟨h.prefixFree, h.nonempty, fun d hd => h.found d (List.mem_cons_of_mem c hd)⟩

theorem CodeTable.exists_find_of_holds {t : CodeTable} {i : Nat} {c : Byte} (h : t.Holds i c) : ∃ k, t.find c = some k :=
  Option.ne_none_iff_exists'.mp fun hnone => CodeTable.find_none.mp hnone i h.1 h.2

/-- Decoding the encoding gives the sequence back (R208). -/
theorem CodeTable.Covers.docDecode_docEncode {t : CodeTable} {S : List Byte} (h : t.Covers S) :
    docDecode t [] (docEncode t S) = (S, []) := by
  induction S with
  | nil => rfl
  | cons c S ih =>
    obtain ⟨i, hfind⟩ := h.found c List.mem_cons_self
    obtain ⟨hi, hsym⟩ := CodeTable.find_some hfind
    rw [docEncode_cons, CodeTable.codeOf_of_find hfind,
      h.prefixFree.docDecode_code hi (List.nil_append _).symm (h.nonempty i hi), ih h.tail, hsym]

/-! ### What BUILD makes depends on the entries in use alone -/

section
variable {t t' : FreqTable} (hn : t'.n = t.n) (hentry : ∀ i, i < t.n → t'.entry i = t.entry i) (m : Memory Node)
include hn hentry

theorem seedLeaves_congr : seedLeaves t' m = seedLeaves t m := by
  rw [seedLeaves, seedLeaves, hn]
  exact List.foldl_ext _ _ _ fun acc i hi => by rw [hentry i (List.mem_range.mp hi)]

theorem builtTree_congr : builtTree t' m = builtTree t m := by
  simp only [builtTree, mergeAll, seedLeaves_congr hn hentry, hn]

end

/-! ### The code table of a sequence that has been counted -/

/-- Commands keep the frequency table's invariant (R43). -/
theorem runCommands_ft_wf {cs : List Instr} {s t : State} (hs : s.ft.Wf) (h : runCommands cs s = .next t) : t.ft.Wf := by
  induction cs generalizing s with
  | nil => cases h; exact hs
  | cons i cs ih =>
    obtain ⟨u, hexec, heffect⟩ := exec_effective i s
    rw [runCommands_cons hexec] at h
    exact ih (heffect.ft_wf hs) h

section
variable {t : FreqTable} {S : List Byte} (h : t.Counts S) (hlen : S.length < 2 ^ 32)
include h

/-- Two tables that have counted the same sequence have the same entries in use. -/
theorem FreqTable.Counts.entry_congr {t' : FreqTable} (h' : t'.Counts S) {i : Nat} (hi : i < t.n) :
    t'.entry i = t.entry i := by
  have hget := List.getElem?_eq_getElem (h.size ▸ hi)
  obtain ⟨hsym, hcount⟩ := h.entry i _ hget
  obtain ⟨hsym', hcount'⟩ := h'.entry i _ hget
  exact FtEntry.mk.injEq .. ▸ ⟨hsym'.trans hsym.symm, BitVec.eq_of_toNat_eq (hcount'.trans hcount.symm)⟩

theorem FreqTable.Counts.n_ne_zero (hS : S ≠ []) : t.n ≠ 0 := by
  obtain ⟨c, hc⟩ := List.exists_mem_of_ne_nil S hS
  rw [h.size]
  exact Nat.ne_of_gt (List.length_pos_of_mem (mem_firstSeen.mpr hc))

include hlen

/-- Whatever FT's memory held, BUILD makes a tree of the counts: the same as from a table cleared by reset (R115, R130). -/
theorem FreqTable.Counts.builtTree_shape (hS : S ≠ []) (m : Memory Node) : (builtTree t m).Shape t.n := by
  obtain ⟨clean, hrun, hclean⟩ := runCommands_freqCounts State.reset hlen
  have hwf : clean.Wf := runCommands_ft_wf reset_ft_wf hrun
  have hn : clean.n = t.n := hclean.size.trans h.size.symm
  rw [← builtTree_congr hn (fun i hi => h.entry_congr hclean hi), ← hn]
  exact mergeAll_shape hwf m (hn ▸ h.n_ne_zero hS)

/-- The generated table has a code for each symbol of the sequence, and no code begins another (R152). -/
theorem FreqTable.Counts.generatedCodes_covers (hS : S ≠ []) (m : Memory Node) (codes : Memory CtEntry) :
    (generatedCodes (builtTree t m) codes).Covers S := by
  have hshape := h.builtTree_shape hlen hS m
  have hn := hshape.generatedCodes_n codes
  refine ⟨hshape.generatedCodes_prefixFree codes, fun i hi => ?_, fun c hc => ?_⟩
  · obtain ⟨p, w, sym, hp, -, hentry⟩ := hshape.generatedCodes_entry codes (hn ▸ hi)
    rw [hentry, CtEntry.ofCode_code (hshape.leafCode_length_le_of_path hp)]
    exact List.ne_nil_of_length_pos (leafCode_length_pos p)
  · obtain ⟨i, hi⟩ := List.mem_iff_getElem?.mp (mem_firstSeen.mpr hc)
    have hlt : i < t.n := (FreqTable.find_some (h.find_of_getElem? hi)).1
    obtain ⟨p, w, sym, -, hleaf, hentry⟩ := hshape.generatedCodes_entry codes hlt
    have hseed := (mergeAll_forest t m (h.n_ne_zero hS)).1.leaf i hlt
    have hsym : sym = c := by
      rw [builtTree, hseed] at hleaf
      injection hleaf with _ hsym
      rw [← hsym, (h.entry i c hi).1]
    exact CodeTable.exists_find_of_holds (i := i) ⟨hn ▸ hlt, by rw [hentry, CtEntry.ofCode_sym, hsym]⟩

end

theorem runCommands_append {cs : List Instr} {s t : State} (h : runCommands cs s = .next t) (rest : List Instr) :
    runCommands (cs ++ rest) s = runCommands rest t := by
  induction cs generalizing s with
  | nil => cases h; rfl
  | cons i cs ih =>
    obtain ⟨u, hexec, -⟩ := exec_effective i s
    rw [runCommands_cons hexec] at h
    rw [List.cons_append, runCommands_cons hexec, ih h]

/-- Counting a sequence, building and deriving codes raises no fault and leaves a table that can code it (R208). -/
theorem runCommands_train {s : State} {S : List Byte} (hS : S ≠ []) (hlen : S.length < 2 ^ 32)
    (hclosed : s.sessionOpen = false) (rest : List Instr) : ∃ (ft : FreqTable) (tree : TreeArena) (ct : CodeTable),
      runCommands (.freqClear :: S.map .freqCount ++ .build :: .genCodes :: rest) s =
        runCommands rest { s with ft := ft, tree := tree, ct := ct } ∧ ct.Covers S := by
  obtain ⟨ft, hrun, hft⟩ := runCommands_freqCounts s hlen
  have hbuild := exec_build_of_pos (s := { s with ft := ft }) (Nat.pos_of_ne_zero (hft.n_ne_zero hS))
  have hgen := exec_genCodes_of_tree (s := { s with ft := ft, tree := builtTree ft s.tree.mem }) hclosed rfl
  exact ⟨ft, _, _, by rw [runCommands_append hrun, runCommands_cons hbuild, runCommands_cons hgen],
    hft.generatedCodes_covers hlen hS s.tree.mem s.ct.mem⟩

end Sys2Proof.Machine
end

section
/-! The round trip by the block's commands, with both queues drained (R185, R202, R208). -/

namespace Sys2Proof.Machine

/-! ### Encoding with eight reads after each symbol -/

/-- An open session with no word left to read. -/
structure Encoder.Drained (e : Encoder) : Prop where
  isOpen : e.isOpen = true
  clean : e.Clean
  q : e.q = []

variable {s : State}

@[simp] theorem drainedUse_cons (c : Byte) (S : List Byte) :
    drainedUse (c :: S) = .sym c :: (List.replicate 8 .take ++ drainedUse S) := rfl

theorem symbolsOf_takes (k : Nat) (use : List EncodeUse) : symbolsOf (List.replicate k .take ++ use) = symbolsOf use := by
  induction k with
  | zero => rfl
  | succ k ih => exact ih

theorem symbolsOf_drainedUse (S : List Byte) : symbolsOf (drainedUse S) = S := by
  induction S with
  | nil => rfl
  | cons c S ih => rw [drainedUse_cons, symbolsOf_sym, symbolsOf_takes, ih]

/-- The encoder once `k` words have been read (R184). -/
def Encoder.drop (e : Encoder) (k : Nat) : Encoder := { e with q := e.q.drop k }

theorem readEffect_encOut_drop (s : State) (k : Nat) :
    (readEffect s .encOut).enc.drop k = s.enc.drop (k + 1) := by
  simp [readEffect, Encoder.drop]

/-- As many reads of ENC_OUT drop as many words (R184). -/
theorem runEncode_takes {k : Nat} {rest : List EncodeUse} {ws : List Word} {t : State}
    (h : runEncode rest { s with enc := s.enc.drop k } = some (ws, t)) :
    ∃ ws', runEncode (List.replicate k .take ++ rest) s = some (ws', t) := by
  induction k generalizing s with
  | zero => exact ⟨ws, h⟩
  | succ k ih =>
    rw [← readEffect_encOut_drop] at h
    obtain ⟨ws', hrest⟩ := ih (s := readEffect s .encOut) h
    exact ⟨s.enc.q.take 1 ++ ws', by rw [List.replicate_succ, List.cons_append, runEncode, hrest, Option.map_some]⟩

theorem runEncode_cons_sym {c : Byte} {t : State} (h : exec (.encSym c) s = .next t) (ht : t.latch.err = false)
    (rest : List EncodeUse) : runEncode (.sym c :: rest) s = runEncode rest t := by
  simp [runEncode, h, ht]

/-- Eight reads after each symbol take every word, so no symbol overflows a queue of eight words or more (R182). -/
theorem runEncode_drainedUse {S : List Byte} (hdepth : 8 ≤ s.fifoDepth) (hok : s.latch.err = false) (he : s.enc.Drained)
    (hfound : ∀ c ∈ S, ∃ i, s.ct.find c = some i) :
    ∃ ws e, runEncode (drainedUse S) s = some (ws, { s with enc := e }) ∧ e.Drained := by
  induction S generalizing s with
  | nil => exact ⟨[], s.enc, rfl, he⟩
  | cons c S ih =>
    obtain ⟨i, hi⟩ := hfound c List.mem_cons_self
    obtain ⟨hopen, hclean, hq⟩ := he
    have hwords : (s.enc.fill + (s.ct.entry i).len.toNat) / 32 ≤ 8 := by
      have := hclean.1
      have := (s.ct.entry i).len.isLt
      omega
    have hexec := exec_encSym_of_fit hopen hi (by rw [State.free, hq, List.length_nil]; omega)
    obtain ⟨-, hclean', hopen', -, -, -, hlen⟩ := putBits_effect hclean (s.ct.entry i).code
    rw [hq, CtEntry.code_length, List.length_nil, Nat.zero_add] at hlen
    have hdrained : ((putBits s.enc (s.ct.entry i).code).drop 8).Drained :=
      ⟨hopen'.trans hopen, hclean', List.drop_eq_nil_of_le (hlen ▸ hwords)⟩
    obtain ⟨ws, e, hrest, he'⟩ := ih (s := { s with enc := (putBits s.enc (s.ct.entry i).code).drop 8 }) hdepth hok
      hdrained fun d hd => hfound d (List.mem_cons_of_mem c hd)
    obtain ⟨ws', hrun⟩ := runEncode_takes (s := { s with enc := putBits s.enc (s.ct.entry i).code }) hrest
    exact ⟨ws', e, by rw [drainedUse_cons, runEncode_cons_sym hexec hok, hrun], he'⟩

theorem wordBits_length (ws : List Word) : (wordBits ws).length = 32 * ws.length := by
  simp [wordBits, Nat.mul_comm]

theorem CodeTable.codeOf_length_le (t : CodeTable) (c : Byte) : (t.codeOf c).length ≤ 255 := by
  rw [CodeTable.codeOf]
  split
  · exact CtEntry.code_length_le _
  · exact Nat.zero_le _

/-- A code has at most 255 bits, so ENC_NBITS does not wrap on fewer than 2^32 symbols (R33, R45). -/
theorem docEncode_length_le (t : CodeTable) (S : List Byte) : (docEncode t S).length ≤ 255 * S.length := by
  induction S with
  | nil => exact Nat.le_refl _
  | cons c S ih =>
    have := t.codeOf_length_le c
    rw [docEncode_cons, List.length_append, List.length_cons]
    omega

/-- A drained encode session raises no fault, and its words are just enough to hold the document's bitstream (R185). -/
theorem encode_drained {S : List Byte} (hdepth : 8 ≤ s.fifoDepth) (hok : s.latch.err = false)
    (hfound : ∀ c ∈ S, ∃ i, s.ct.find c = some i) (hlen : S.length < 2 ^ 32) :
    ∃ (ws : List Word) (u : State) (e : Encoder), runEncode (drainedUse S) { s with enc := .fresh } = some (ws, u) ∧
      exec .encFlush u = .next { s with enc := e } ∧ e.nbits.toNat = (docEncode s.ct S).length ∧
      (ws ++ e.q).length = (e.nbits.toNat + 31) / 32 ∧ (wordBits (ws ++ e.q)).take e.nbits.toNat = docEncode s.ct S := by
  obtain ⟨ws, e, hrun, hopen, -, hq⟩ := runEncode_drainedUse (s := { s with enc := .fresh }) hdepth hok
    ⟨rfl, Encoder.fresh_clean, rfl⟩ hfound
  have hflush := exec_encFlush_of_fit (s := { s with enc := e }) hopen fun _ => by
    simp only [State.free, hq, List.length_nil]
    omega
  obtain ⟨(hnbits : e.flushed.nbits = _), pad, hpad, (hbits : wordBits (ws ++ e.flushed.q) = _)⟩ :=
    encodingADrainedSessionGivesItsCodes s _ _ _ _ ws (exec_encStart s) hrun hflush hok
  rw [symbolsOf_drainedUse] at hnbits hbits
  have hbound := docEncode_length_le s.ct S
  have htoNat : e.flushed.nbits.toNat = (docEncode s.ct S).length := by
    rw [hnbits, BitVec.toNat_ofNat, Nat.mod_eq_of_lt (by omega)]
  refine ⟨ws, _, e.flushed, hrun, hflush, htoNat, ?_, ?_⟩
  · have hcount := congrArg List.length hbits
    rw [wordBits_length, List.length_append (bs := List.replicate pad false), List.length_replicate] at hcount
    rw [htoNat]
    omega
  · rw [htoNat, hbits, List.take_left]

/-! ### Feeding the words back -/

theorem take_packedBits (w : Word) (n : Nat) : (packedBits w 32).take n = packedBits w (min n 32) := by
  rw [packedBits, ← List.map_take, List.take_range, packedBits]

theorem take_wordBits_cons (w : Word) (ws : List Word) (n : Nat) :
    (wordBits (w :: ws)).take n = packedBits w (min n 32) ++ (wordBits ws).take (n - 32) := by
  rw [wordBits, List.flatMap_cons, List.take_append, take_packedBits, packedBits_length, wordBits]

/-- The words of a bitstream of `n` bits, fed back with DEC_Q emptied after each, give the symbols of the document's decode
(R202, R206, R208). -/
theorem feedWords_decodes {ws : List Word} {n : Nat} {buf : Bits} (hdepth : 32 ≤ s.fifoDepth) (hok : s.latch.err = false)
    (hopen : s.dec.isOpen = true) (hq : s.dec.q = []) (hfollows : s.dec.Follows buf) (hn : ws.length = (n + 31) / 32) :
    ∃ y : State, feedWords n ws s =
        some ((docDecode s.ct buf ((wordBits ws).take n)).1.map (BitVec.setWidth 32), y) ∧
      y.latch.err = false ∧ y.dec.isOpen = true ∧ y.dec.Follows (docDecode s.ct buf ((wordBits ws).take n)).2 := by
  induction ws generalizing s n buf with
  | nil => exact ⟨s, by simp [wordBits, feedWords], hok, hopen, by simpa [wordBits] using hfollows⟩
  | cons w ws ih =>
    rw [List.length_cons] at hn
    have hk : (BitVec.ofNat 6 (min n 32)).toNat = min n 32 := by
      rw [BitVec.toNat_ofNat, Nat.mod_eq_of_lt (by omega)]
    have hle := docDecode_symbols_length_le s.ct buf (packedBits w (min n 32))
    rw [packedBits_length] at hle
    have hfit : (docDecode s.ct buf (packedBits w (min n 32))).1.length ≤ State.free { s with arg0 := w } s.dec.q := by
      simp only [State.free, hq, List.length_nil]
      omega
    obtain ⟨d, hexec, hd⟩ := decodeOrOverflow_of_fit (s := { s with arg0 := w }) hfollows _
      (encode (.decWord (BitVec.ofNat 6 (min n 32)))) hfit
    have hword := exec_decWord_of_open (s := { s with arg0 := w }) (n := BitVec.ofNat 6 (min n 32)) (by omega) (by omega)
      hopen
    rw [hk, hexec] at hword
    obtain ⟨y, hrest, hyok, hyopen, hyfollows⟩ := ih (s := { s with arg0 := w, dec := { d with q := [] } }) (n := n - 32)
      hdepth hok (hd.isOpen.trans hopen) rfl hd.follows (by omega)
    have hqd : d.q = (docDecode s.ct buf (packedBits w (min n 32))).1.map (BitVec.setWidth 32) := by
      rw [hd.q, hq, List.nil_append]
    rw [take_wordBits_cons, docDecode_append, List.map_append, ← hqd]
    exact ⟨y, feedWords_cons hword hok hrest, hyok, hyopen, hyfollows⟩

theorem Decoder.Follows.len_eq_zero {d : Decoder} (h : d.Follows []) : d.len = 0 := h.1

end Sys2Proof.Machine
end

section
/-! The statements about the decoder (45_decoder.md), settled. -/

namespace Sys2Proof.Machine

/-- Settles O46: DecodeBit on each of the n bits does what the document's loop does. -/
theorem decWordFollowsTheDocument : Obligations.DecWordFollowsTheDocument := by
  intro s n buf hfollows hpos hle w r
  have hword : encode (.decWord n) = w := encode_decWord n
  rw [← hword]
  refine ⟨rfl, exec_decWord_of_closed hpos hle, fun hopen hfit => ?_, fun hopen hfull => ?_⟩ <;>
    rw [exec_decWord_of_open hpos hle hopen]
  · obtain ⟨d, hexec, hd⟩ := decodeOrOverflow_of_fit hfollows (packedBits s.arg0 n.toNat) (encode (.decWord n)) hfit
    exact ⟨d, hexec, hd.isOpen.trans hopen, hd.follows, hd.q, hd.nsym⟩
  · exact decodeOrOverflow_overflow hfollows _ _ hfull

/-- Settles O47: a character is skipped, or is one bit, on which DecodeBit does what the document's loop does. -/
theorem decCharDecodesBitCharactersOnly : Obligations.DecCharDecodesBitCharactersOnly := by
  intro s c buf hfollows w
  have hword : encode (.decChar c) = w := encode_formatB 0x52#8 rfl rfl rfl
  rw [← hword]
  refine ⟨rfl, exec_decChar_of_closed, fun hopen h0 h1 => exec_decChar_skip hopen (charBit_of_ne h0 h1),
    fun b hopen hc => ?_⟩
  have hbit : charBit c = some b := hc ▸ charBit_bitCharacter b
  rw [exec_decChar_bit hopen hbit]
  refine ⟨fun hfit => ?_, fun hfull => decodeOrOverflow_overflow hfollows _ _ hfull⟩
  obtain ⟨d, hexec, hd⟩ := decodeOrOverflow_of_fit hfollows [b] (encode (.decChar c)) hfit
  exact ⟨d, hexec, hd.isOpen.trans hopen, hd.follows, hd.q, hd.nsym⟩

/-- Settles O49: skipped characters change nothing, and the bits are decoded one after the other. -/
theorem textDecodesAsItsBitCharacters : Obligations.TextDecodesAsItsBitCharacters := by
  intro s text hopen hfollows r hfit
  obtain ⟨d, hrun, hd⟩ := runCommands_decChars hopen hfollows hfit
  exact ⟨d, hrun, hd.isOpen.trans hopen, hd.follows, hd.q⟩

/-- Settles O48: the three cases of DEC_END's rule. -/
theorem decEndAsksForAnEmptyBuffer : Obligations.DecEndAsksForAnEmptyBuffer :=
  ⟨encode_decEnd, fun _ => ⟨exec_decEnd_of_closed, exec_decEnd_of_empty, exec_decEnd_incomplete⟩⟩

/-- Settles O50: the generated codes are the paths to different leaves, so that each code of the encoding is completed at its
last bit and no earlier. -/
theorem roundTripRecoversTheSequence : Obligations.RoundTripRecoversTheSequence := by
  intro S s hS hlen henc hdec
  obtain ⟨ft, tree, ct, hrun, hcovers⟩ := runCommands_train hS hlen (sessionOpen_eq_false.mpr ⟨henc, hdec⟩) []
  exact ⟨_, hrun, rfl, fun c hc => (hcovers.found c hc).imp fun _ => CodeTable.find_some, hcovers.docDecode_docEncode⟩

/-- Settles O59: eight reads after a symbol take all it has pushed, one word completes at most 32 symbols, and what the words
hold decodes to the sequence. -/
theorem roundTripByCommandsRecoversTheSequence : Obligations.RoundTripByCommandsRecoversTheSequence := by
  intro s hdepth henc hdec hok
  refine ⟨fun S hS hlen => ?_, ?_⟩
  · obtain ⟨ft, tree, ct, htrain, hcovers⟩ :=
      runCommands_train hS hlen (sessionOpen_eq_false.mpr ⟨henc, hdec⟩) [.encStart]
    obtain ⟨ws, u, e, hencode, hflush, -, hcount, hbits⟩ :=
      encode_drained (s := { s with ft := ft, tree := tree, ct := ct }) (by simp only; omega) hok hcovers.found hlen
    obtain ⟨y, hfeed, hyok, hyopen, hyfollows⟩ := feedWords_decodes (buf := [])
      (s := { s with ft := ft, tree := tree, ct := ct, enc := e, dec := ⟨true, 0#255, 0, 0#32, []⟩ }) hdepth hok rfl rfl
      ⟨rfl, fun _ => rfl⟩ hcount
    rw [hbits, hcovers.docDecode_docEncode] at hfeed hyfollows
    exact ⟨_, u, _, _, y, _, ws, htrain, hok, hencode, hflush, hok, rfl, hfeed,
      exec_decEnd_of_empty hyopen hyfollows.len_eq_zero, hyok, rfl⟩
  · exact ⟨_, rfl, hok, rfl, rfl, rfl, rfl⟩

end Sys2Proof.Machine
end

section
/-! The control commands: what NOP, ERR_CLEAR and SOFT_RESET leave of a state (R230 to R232). -/

namespace Sys2Proof.Machine

theorem exec_nop (s : State) : exec .nop s = .next s := rfl

theorem exec_errClear (s : State) : exec .errClear s = .next (clearLatch s) := rfl

theorem exec_softReset (s : State) : exec .softReset s = .next (blockReset s) := rfl

/-- Settles O21: no control command asks anything of the state, so what the latch holds cannot stop one (R246). -/
theorem controlCommandsDoWhatTheySay : Obligations.ControlCommandsDoWhatTheySay :=
  ⟨rfl, rfl, rfl, fun s => ⟨exec_nop s, exec_errClear s, exec_softReset s⟩⟩

end Sys2Proof.Machine
end

section
/-! The statements about faults and command acceptance (60_exceptions.md), settled: precise faults, and what ERR = 1 holds
fixed (R242, R243, R247). -/

namespace Sys2Proof.Machine

theorem acceptedInError_eq_true_iff {w : Word} :
    acceptedInError w = true ↔ w = 0x70000000#32 ∨ w = 0x7F000000#32 := by
  simp only [acceptedInError, Bool.or_eq_true, beq_iff_eq]

theorem acceptCommand_dropped {s : State} {w : Word} (herr : s.latch.err = true) (hw : acceptedInError w = false) :
    acceptCommand w s = .next s := by
  simp only [acceptCommand, herr, hw, Bool.not_false, Bool.and_self, if_true]

/-- A command but SOFT_RESET writes the latch and nothing else, or leaves the latch (R242). -/
theorem Effect.latch_kept_or_alone {i : Instr} {s t : State} (he : Effect s i t) (hi : i ≠ .softReset) :
    t.latch = s.latch ∨ t = { s with latch := t.latch } := by
  cases he with
  | raised | errClear => exact .inr rfl
  | softReset => exact absurd rfl hi
  | _ => exact .inl rfl

/-- A quiet access latches BUSY_OVERRUN only where no fault is latched (R247). -/
theorem Quiet.latch_kept {s t : State} (hq : Quiet s t) (herr : s.latch.err = true) : t.latch = s.latch := by
  cases hq with
  | overrun _ _ _ _ hok => exact absurd (herr.symm.trans hok) (by decide)
  | _ => rfl

/-- A word accepted while ERR = 1 is ERR_CLEAR's or SOFT_RESET's, and both clear the latch (R231, R232, R243). -/
theorem Accepts.clears_latch {w : Word} {s t : State} (h : Accepts w s t) (herr : s.latch.err = true) :
    t.latch = Latch.clear ∧ (w = 0x70000000#32 ∨ w = 0x7F000000#32) := by
  obtain ⟨-, hcond, hrun⟩ := h
  have hw : w = 0x70000000#32 ∨ w = 0x7F000000#32 :=
    acceptedInError_eq_true_iff.mp (hcond.resolve_left (by rw [herr]; decide))
  have run {i : Instr} (hdec : decode w = .legal i) : ∃ u, exec i (respond .written s) = .next u ∧ t = startBusy u := by
    obtain ⟨j, u, hj, hu, rfl⟩ | ⟨why, hill, -⟩ := hrun
    · cases hdec.symm.trans hj
      exact ⟨u, hu, rfl⟩
    · cases hdec.symm.trans hill
  refine ⟨?_, hw⟩
  rcases hw with rfl | rfl
  · obtain ⟨u, hu, rfl⟩ := run (decodeOfEncodeIsTheCommand .errClear rfl)
    cases hu
    rfl
  · obtain ⟨u, hu, rfl⟩ := run (decodeOfEncodeIsTheCommand .softReset rfl)
    cases hu
    rfl

/-- Settles O7: with ERR = 1 the write is dropped before the word is decoded. -/
theorem stepDropsCommandsWhileErr : Obligations.StepDropsCommandsWhileErr := by
  intro s w rest hnext hb herr hclear hreset
  have hw : acceptedInError w = false :=
    Bool.eq_false_iff.mpr fun h => (acceptedInError_eq_true_iff.mp h).elim hclear hreset
  exact (step_writeReg (r := .cmd) hnext hb).trans (acceptCommand_dropped herr hw)

/-- Settles O19: the latch is written by a fault and by ERR_CLEAR, which write nothing else. -/
theorem faultsArePrecise : Obligations.FaultsArePrecise := fun _ _ _ hi h => (exec_cases h).latch_kept_or_alone hi

/-- Settles O20: only the reset of the block and the two commands accepted while ERR = 1 write a latch that holds a fault. -/
theorem firstFaultIsKeptUntilCleared : Obligations.FirstFaultIsKeptUntilCleared := by
  intro s t herr hstep
  obtain ⟨-, rfl⟩ | ⟨rest, hrst, rfl⟩ | ⟨a, rest, u, as, -, hq, ht⟩ | ⟨w, rest, hnext, ha⟩ := step_cases hstep
  · exact .inl rfl
  · exact .inr ⟨rfl, .inr ⟨rest, .inl hrst⟩⟩
  · have hu : u.latch = s.latch := hq.latch_kept herr
    rcases ht with rfl | rfl <;> exact .inl hu
  · obtain ⟨hclear, hw⟩ := ha.clears_latch herr
    obtain ⟨hb, -, -⟩ := ha
    rcases hw with rfl | rfl
    · exact .inr ⟨hclear, .inl ⟨rest, hb, hnext⟩⟩
    · exact .inr ⟨hclear, .inr ⟨rest, .inr ⟨hb, hnext⟩⟩⟩

end Sys2Proof.Machine
end

section
/-! One access while BUSY = 1, and the `rst` input (R270, R276). -/

namespace Sys2Proof.Machine

/-! ### Writes -/

/-- A register that is refused while BUSY = 1 stands at CMD, at ARG0 and at each aligned offset of the CBITS window (R21, R276). -/
theorem exists_busyGuarded_at {off : BitVec 8}
    (h : off = 0x08#8 ∨ off = 0x18#8 ∨ (0x80 ≤ off.toNat ∧ off.toNat ≤ 0x9C ∧ off.toNat % 4 = 0)) :
    ∃ r, busyGuarded r = true ∧ regOffset r = off := by
  obtain rfl | rfl | ⟨hlow, hhigh, hmod⟩ := h
  · exact ⟨.cmd, rfl, rfl⟩
  · exact ⟨.arg0, rfl, rfl⟩
  · refine ⟨.cbits ⟨(off.toNat - 0x80) / 4, by omega⟩, rfl, BitVec.eq_of_toNat_eq ?_⟩
    rw [cbits_offset, BitVec.toNat_ofNat, show 0x80 + 4 * ((off.toNat - 0x80) / 4) = off.toNat by omega]
    exact Nat.mod_eq_of_lt off.isLt

theorem busyWrite_of_guarded {r : Reg} (h : busyGuarded r = true) (s : State) :
    busyWrite (regOffset r) s = overrun (regOffset r) (respond .written s) := by
  simp only [busyWrite, regAt_offset, h, if_true]

/-- BUSY_OVERRUN writes the latch alone, and only where no fault is latched (R247). -/
theorem overrun_eq (off : BitVec 8) (s : State) : overrun off s =
    { s with latch := if s.latch.err then s.latch else ⟨true, .busyOverrun, off.setWidth 32⟩ } := by
  cases herr : s.latch.err <;> simp only [overrun, herr] <;> rfl

/-! ### Reads -/

/-- A read while BUSY = 1 changes the host's side alone, and STATUS, ID and PARAM show the value they have with BUSY = 0
(R276). -/
theorem busyReadAccess_responds (off : BitVec 8) (s : State) : ∃ (x : Word) (draws : Nat),
    busyReadAccess off s = { s with host := ⟨s.host.pending, .read x :: s.host.responses, draws⟩ } ∧
    ∀ r ∈ [Reg.status, .id, .param], regAt off = some r → x = readValue s r := by
  simp only [busyReadAccess]
  split
  case h_1 hreg | h_2 hreg | h_3 hreg => exact ⟨_, s.host.draws, rfl, fun r _ hr => by cases hreg.symm.trans hr; rfl⟩
  case h_4 hstatus hid hparam =>
    refine ⟨Config.busyRead s.host.draws, s.host.draws + 1, rfl, fun r hmem hr => ?_⟩
    simp only [List.mem_cons, List.not_mem_nil, or_false] at hmem
    obtain rfl | rfl | rfl := hmem
    · exact (hstatus hr).elim
    · exact (hid hr).elim
    · exact (hparam hr).elim

/-- Bits 1 to 7 of STATUS (R25). -/
theorem statusWord_flags (s : State) :
    s.statusWord.getLsbD 1 = s.latch.err ∧ s.statusWord.getLsbD 2 = s.tree.valid ∧
    s.statusWord.getLsbD 3 = s.enc.isOpen ∧ s.statusWord.getLsbD 4 = s.dec.isOpen ∧
    s.statusWord.getLsbD 5 = s.dec.dead ∧ s.statusWord.getLsbD 6 = decide (s.enc.q ≠ []) ∧
    s.statusWord.getLsbD 7 = decide (s.dec.q ≠ []) := by
  simp only [State.statusWord, BitVec.getLsbD_append, ← not_isEmpty_eq]
  simp

/-- Bits 31:8 of STATUS read as 0 (R25). -/
theorem statusWord_lt (s : State) : s.statusWord.toNat < 256 := by
  rw [statusWord_toNat]
  linarith only [s.busy.toNat_le, s.latch.err.toNat_le, s.tree.valid.toNat_le, s.enc.isOpen.toNat_le,
    s.dec.isOpen.toNat_le, s.dec.dead.toNat_le, (!s.enc.q.isEmpty).toNat_le, (!s.dec.q.isEmpty).toNat_le]

theorem step_rst {s : State} {rest : List HostAction} (h : s.host.pending = .rst :: rest) :
    step s = .next (blockReset (s.setPending rest)) := step_of_pending h

end Sys2Proof.Machine
end

section
/-! The statements about reset and hazards (70_reset_and_hazards.md), settled. -/

namespace Sys2Proof.Machine

/-- Settles O22: `rst` is the block's reset, which leaves the build constant and the host's side. -/
theorem rstResetsTheBlock : Obligations.RstResetsTheBlock := fun _ _ h => step_rst h

/-- Settles O8: the three places hold the registers that R276 guards. -/
theorem busyWritesLatchOverrun : Obligations.BusyWritesLatchOverrun := by
  intro s off v rest hnext hb hoff
  obtain ⟨r, hr, rfl⟩ := exists_busyGuarded_at hoff
  rw [step_busy hnext (regOffset_aligned r) hb]
  simp only [busyAccess, if_true, busyWrite_of_guarded hr, overrun_eq]
  rfl

/-- Settles O9: the value is a register's at STATUS, ID and PARAM, and elsewhere the next draw. -/
theorem busyReadsHaveNoSideEffect : Obligations.BusyReadsHaveNoSideEffect := by
  intro s off v rest hnext hb hoff
  obtain ⟨x, draws, hread, hexact⟩ := busyReadAccess_responds off (s.setPending rest)
  have hstep : step s = .next
      { s with busyLeft := s.busyLeft - 1, host := ⟨rest, .read x :: s.host.responses, draws⟩ } := by
    rw [step_busy hnext hoff hb]
    simp only [busyAccess, Bool.false_eq_true, if_false, hread]
    rfl
  simp only [readValue_setPending] at hexact
  refine ⟨x, draws, hstep, ?id, ?param, ?status⟩
  case id =>
    rintro rfl
    exact hexact .id (by decide) (regAt_offset .id)
  case param =>
    rintro rfl
    rw [hexact .param (by decide) (regAt_offset .param)]
    exact paramWord_toNat s
  case status =>
    rintro rfl
    obtain rfl : x = s.statusWord := hexact .status (by decide) (regAt_offset .status)
    obtain ⟨herr, htree, henc, hdec, hdead, hencQ, hdecQ⟩ := statusWord_flags s
    exact ⟨(statusWord_bit_zero s).trans hb, herr, htree, henc, hdec, hdead, hencQ, hdecQ, statusWord_lt s⟩

end Sys2Proof.Machine
end
